-- ==== Sys2Proof/Word.lean ====
section
/-! DEFINITION. The word types of the block: bytes, the two wider operand widths, and a framed packet
of bytes (30_encoding.md R85, R88). -/

namespace Sys2Proof

/-- One byte: a byte of FB, of a packet, a segment mask, a character. -/
abbrev Byte := BitVec 8

/-- A 16-bit operand (HEX, the delay of SCROLL) and the width of CUR. -/
abbrev Half := BitVec 16

/-- A 32-bit operand (NUMBER, NUMBERS, TEMP). -/
abbrev Word := BitVec 32

/-- A framed packet `p[0], p[1], .., p[L-1]`: the channel marks its end, so its length is known (R85). -/
abbrev Packet := List Byte

end Sys2Proof
end

