-- ==== Sys2Proof/Syntax.lean ====
section
/-! DEFINITION. The eleven commands with their decoded operands (30_encoding.md R86), one constructor per
row of spec/opcode_table.json. -/

namespace Sys2Proof

/-- A decoded command. A 32-bit operand is kept as its bits and read as two's complement where it is used;
an on/off operand is already the pixel value `truth` gives. -/
inductive Instr where
  /-- CLEAR, opcode 0x01, format B. -/
  | clear (color : Bool)
  /-- COLON, opcode 0x02, format B. -/
  | colon (on : Bool)
  /-- WRITE, opcode 0x03, format P. -/
  | write (pos : Byte) (masks : List Byte)
  /-- ENCD, opcode 0x10, format B. -/
  | encd (n : Byte)
  /-- ENCC, opcode 0x11, format B. -/
  | encc (c : Byte)
  /-- ENCS, opcode 0x12, format L. -/
  | encs (s : List Byte)
  /-- HEX, opcode 0x20, format H. -/
  | hex (v : Half)
  /-- NUMBER, opcode 0x21, format N. -/
  | number (v : Word)
  /-- NUMBERS, opcode 0x22, format NN. -/
  | numbers (a b : Word) (colon : Bool)
  /-- TEMP, opcode 0x23, format N. -/
  | temp (v : Word)
  /-- SCROLL, opcode 0x24, format SC. -/
  | scroll (delayMs : Half) (s : List Byte)
  deriving DecidableEq, Repr

end Sys2Proof
end

