-- ==== Sys2Proof/WellFormed.lean ====
section
/-! DEFINITION. Which commands a packet can carry: a sequence operand has at most MAXLEN = 255 elements,
because its count is one byte (00_scope.md R5, 30_encoding.md R87). Every other operand value is legal (R91). -/

namespace Sys2Proof

/-- MAXLEN of 00_scope.md R5. -/
def maxLen : Nat := 255

/-- The command fits a packet. -/
def Instr.wellFormed : Instr → Bool
  | .clear _ => true
  | .colon _ => true
  | .write _ masks => masks.length ≤ maxLen
  | .encd _ => true
  | .encc _ => true
  | .encs s => s.length ≤ maxLen
  | .hex _ => true
  | .number _ => true
  | .numbers _ _ _ => true
  | .temp _ => true
  | .scroll _ s => s.length ≤ maxLen

end Sys2Proof
end

