-- ==== Sys2Proof/Decode.lean ====
section
/-! DEFINITION. From a framed packet to a command and back (30_encoding.md R84 to R91, R100;
opcode_table.json). Decoding is total and names the reason of each rejection; all of them are BadCommand
(60_exceptions.md R224). -/

namespace Sys2Proof

/-- The eleven opcodes (R86). -/
inductive Opcode where
  | clear | colon | write | encd | encc | encs | hex | number | numbers | temp | scroll
  deriving DecidableEq, Repr

/-- The seven packet formats (R87). -/
inductive Format where
  | b | p | l | h | n | nn | sc
  deriving DecidableEq, Repr

/-- Why a packet is no command. -/
inductive DecodeError where
  /-- `L = 0` (R89). -/
  | emptyPacket
  /-- One of the 245 reserved values of `p[0]` (R90). -/
  | reservedOpcode (op : Byte)
  /-- The length does not match the format, or the count byte is missing (R89). -/
  | wrongLength (op : Byte) (len : Nat)
  deriving DecidableEq, Repr

/-- The opcode byte of R86. -/
def Opcode.byte : Opcode → Byte
  | .clear => 0x01
  | .colon => 0x02
  | .write => 0x03
  | .encd => 0x10
  | .encc => 0x11
  | .encs => 0x12
  | .hex => 0x20
  | .number => 0x21
  | .numbers => 0x22
  | .temp => 0x23
  | .scroll => 0x24

/-- The format of R86. -/
def Opcode.format : Opcode → Format
  | .clear => .b
  | .colon => .b
  | .write => .p
  | .encd => .b
  | .encc => .b
  | .encs => .l
  | .hex => .h
  | .number => .n
  | .numbers => .nn
  | .temp => .n
  | .scroll => .sc

def allOpcodes : List Opcode :=
  [.clear, .colon, .write, .encd, .encc, .encs, .hex, .number, .numbers, .temp, .scroll]

/-- The opcode a byte stands for; `none` for a reserved one (R90). -/
def opcodeOf (b : Byte) : Option Opcode :=
  allOpcodes.find? fun o => o.byte == b

/-- The length `L` the format requires of the packet `p` (R87); `none` where `p` is too short to hold its
count byte (R89). -/
def requiredLength (f : Format) (p : Packet) : Option Nat :=
  match f with
  | .b => some 2
  | .p => p[2]?.map fun n => 3 + n.toNat
  | .l => p[1]?.map fun n => 2 + n.toNat
  | .h => some 3
  | .n => some 5
  | .nn => some 10
  | .sc => p[3]?.map fun n => 4 + n.toNat

/-- `truth(b)` (R84). -/
def truth (b : Byte) : Bool := b != 0

/-- The canonical byte of an on/off operand (R100). -/
def truthByte (v : Bool) : Byte := if v then 0x01 else 0x00

/-- Byte `k` of a packet; only read inside the packet, after the length check. -/
def byteAt (p : Packet) (k : Nat) : Byte := p.getD k 0

/-- `p[k] | p[k+1] << 8` (R88): the byte at the lower index is the less significant (20_memory.md R54). -/
def halfAt (p : Packet) (k : Nat) : Half := byteAt p (k + 1) ++ byteAt p k

/-- `p[k] | p[k+1] << 8 | p[k+2] << 16 | p[k+3] << 24` (R88). -/
def wordAt (p : Packet) (k : Nat) : Word :=
  (byteAt p (k + 3) ++ byteAt p (k + 2)) ++ (byteAt p (k + 1) ++ byteAt p k)

/-- The operands of a packet of the right length (R87, R88). -/
def operands (o : Opcode) (p : Packet) : Instr :=
  match o with
  | .clear => .clear (truth (byteAt p 1))
  | .colon => .colon (truth (byteAt p 1))
  | .write => .write (byteAt p 1) (p.drop 3)
  | .encd => .encd (byteAt p 1)
  | .encc => .encc (byteAt p 1)
  | .encs => .encs (p.drop 2)
  | .hex => .hex (halfAt p 1)
  | .number => .number (wordAt p 1)
  | .numbers => .numbers (wordAt p 1) (wordAt p 5) (truth (byteAt p 9))
  | .temp => .temp (wordAt p 1)
  | .scroll => .scroll (halfAt p 1) (p.drop 4)

/-- The packet decoder: opcode first (R90), then the exact length (R89), then the operands (R88). -/
def decode (p : Packet) : Except DecodeError Instr :=
  match p with
  | [] => .error .emptyPacket
  | op :: _ =>
    match opcodeOf op with
    | none => .error (.reservedOpcode op)
    | some o =>
      if requiredLength o.format p = some p.length then .ok (operands o p)
      else .error (.wrongLength op p.length)

/-- The two bytes of a 16-bit operand, less significant first. -/
def halfBytes (v : Half) : List Byte := [v.extractLsb' 0 8, v.extractLsb' 8 8]

/-- The four bytes of a 32-bit operand, least significant first. -/
def wordBytes (v : Word) : List Byte :=
  [v.extractLsb' 0 8, v.extractLsb' 8 8, v.extractLsb' 16 8, v.extractLsb' 24 8]

/-- The count byte of formats P, L, SC. -/
def countByte (xs : List Byte) : Byte := BitVec.ofNat 8 xs.length

/-- The canonical packet of a command (R87, R100). -/
def encode : Instr → Packet
  | .clear color => [0x01, truthByte color]
  | .colon on => [0x02, truthByte on]
  | .write pos masks => 0x03 :: pos :: countByte masks :: masks
  | .encd n => [0x10, n]
  | .encc c => [0x11, c]
  | .encs s => 0x12 :: countByte s :: s
  | .hex v => 0x20 :: halfBytes v
  | .number v => 0x21 :: wordBytes v
  | .numbers a b colon => 0x22 :: (wordBytes a ++ wordBytes b ++ [truthByte colon])
  | .temp v => 0x23 :: wordBytes v
  | .scroll delayMs s => 0x24 :: (halfBytes delayMs ++ countByte s :: s)

/-- The longest legal packet, `4 + 255` bytes (R85). -/
def longestPacket : Nat := 259

/-- The packet whose bytes, least significant first, are the `nbits` bits of `w`. Where the packet's format
asks for more bytes, the missing ones are 0 (the table gives a row no bits for its operand bytes). -/
def packetOfWord (nbits w : Nat) : Packet :=
  let given : Packet := (List.range ((nbits + 7) / 8)).map fun k => BitVec.ofNat 8 (w >>> (8 * k))
  let filled : Packet := given ++ List.replicate longestPacket 0
  match opcodeOf (byteAt filled 0) with
  | none => given
  | some o =>
    match requiredLength o.format filled with
    | none => given
    | some len => if given.length ≤ len then filled.take len else given

/-- What the decoder reads from a row of opcode_table.json whose bits are `w`. -/
def decodeTableWord (nbits w : Nat) : Option Instr :=
  match decode (packetOfWord nbits w) with
  | .ok i => some i
  | .error _ => none

end Sys2Proof
end

