-- ==== Sys2Proof/Config.lean ====
section
/-! DEFINITION. What is fixed when the block is built (00_scope.md R5) and what the world outside answers
freely (42_rasterizer.md R146, 44_format.md R199). The default values of the parameters stand in
Machine/Table.lean. -/

namespace Sys2Proof

/-- The VARIANT strap (10_state.md R23). -/
inductive Variant where
  | wide
  | narrow
  deriving DecidableEq, Repr, Inhabited

/-- The masks of the segment table by character class (41_segment_table.md R120 to R122); how they are
numbered in each variant is R123. -/
structure Table where
  /-- Indices 0 to 15 of both variants: digits 0..9 and letters a..f. -/
  hex : Vector Byte 16
  /-- The letters g..z, WIDE only. -/
  letters : Vector Byte 20
  space : Byte
  dash : Byte
  /-- The star, WIDE only. -/
  star : Byte
  deriving DecidableEq, Repr

/-- The construction parameters: VARIANT, and the OPEN ones W, H (as BANDS = H / 8, so that H is a multiple
of 8, 20_memory.md R53) and TABLE. No command and no RESET changes them (10_state.md R22, R23, R30). -/
structure Params where
  variant : Variant
  /-- W, the number of columns. -/
  width : Nat
  /-- BANDS, the number of 8-row bands. -/
  bands : Nat
  table : Table
  deriving DecidableEq, Repr

/-- What the display transport says to one flush (42_rasterizer.md R146). `never` is the transport that does
not answer (93_implementation_defined.md I7, U8). -/
inductive XportAnswer where
  | ok
  | ioError (e : Byte)
  | never
  deriving DecidableEq, Repr, Inhabited

/-- What the delay unit says to one request (44_format.md R199); `never` as for the transport (U8). -/
inductive DelayAnswer where
  | done
  | never
  deriving DecidableEq, Repr, Inhabited

/-- FREE VALUE (log entry 3): the transport's n-th answer past the answers a state lists. -/
opaque Config.transportAnswer : Nat → XportAnswer

/-- FREE VALUE (log entry 4): the delay unit's n-th answer past the answers a state lists. -/
opaque Config.delayAnswer : Nat → DelayAnswer

end Sys2Proof
end

