-- ==== Sys2Proof/Machine/Table.lean ====
section
/-! DEFINITION. segment_lookup_table: the default contents of TABLE, its numbering in each variant, and the
functions from characters to masks (41_segment_table.md R120 to R124, R129). -/

namespace Sys2Proof.Machine

/-- Default masks of 0..9, a..f (R120). The values of 0, 8 and f are the source's; the others are the spec's
default, marked there as general knowledge (log entry 8). -/
def defaultHex : Vector Byte 16 :=
  #v[0x3F, 0x06, 0x5B, 0x4F, 0x66, 0x6D, 0x7D, 0x07, 0x7F, 0x6F, 0x77, 0x7C, 0x39, 0x5E, 0x79, 0x71]

/-- Default masks of g..z (R121), all the spec's default from general knowledge (log entry 8). -/
def defaultLetters : Vector Byte 20 :=
  #v[0x3D, 0x76, 0x06, 0x1E, 0x76, 0x38, 0x55, 0x54, 0x3F, 0x73,
     0x67, 0x50, 0x6D, 0x78, 0x3E, 0x1C, 0x2A, 0x76, 0x6E, 0x5B]

/-- Default TABLE (R120 to R122). -/
def defaultTable : Table :=
  { hex := defaultHex, letters := defaultLetters, space := 0x00, dash := 0x40, star := 0x63 }

/-- The parameters at their defaults (00_scope.md R5) in a variant: W = 84, H = 48. -/
def defaultParams (v : Variant) : Params :=
  { variant := v, width := 84, bands := 6, table := defaultTable }

/-- The variant State.reset is built with (log entry 7). -/
def resetVariant : Variant := .wide

/-- TABLE in index order (R123): 39 entries in WIDE, 18 in NARROW. -/
def tableMasks (p : Params) : List Byte :=
  match p.variant with
  | .wide => p.table.hex.toList ++ p.table.letters.toList ++ [p.table.space, p.table.dash, p.table.star]
  | .narrow => p.table.hex.toList ++ [p.table.space, p.table.dash]

/-- `TABLE[i]`. No rule forms an index outside the table (Laws/Table.lean, charIndex_lt_length). -/
def tableMask (p : Params) (i : Nat) : Byte := (tableMasks p).getD i 0

/-- `CharIndex(c)` (R124). -/
def charIndex (v : Variant) (c : Byte) : Option Nat :=
  let k := c.toNat
  if 0x30 ≤ k ∧ k ≤ 0x39 then some (k - 0x30)
  else
    match v with
    | .wide =>
      if 0x61 ≤ k ∧ k ≤ 0x7A then some (k - 0x61 + 10)
      else if 0x41 ≤ k ∧ k ≤ 0x5A then some (k - 0x41 + 10)
      else if k = 0x20 then some 36
      else if k = 0x2D then some 37
      else if k = 0x2A then some 38
      else none
    | .narrow =>
      if 0x61 ≤ k ∧ k ≤ 0x66 then some (k - 0x61 + 10)
      else if 0x41 ≤ k ∧ k ≤ 0x46 then some (k - 0x41 + 10)
      else if k = 0x20 then some 16
      else if k = 0x2D then some 17
      else none

/-- `EncodeChar(c)` (R129): the mask, or the character that raises CharacterOutOfRange. -/
def encodeChar (p : Params) (c : Byte) : Except Byte Byte :=
  match charIndex p.variant c with
  | none => .error c
  | some i => .ok (tableMask p i)

/-- The masks of every character, scanned left to right; the first unsupported one ends the scan (R129). -/
def encodeAll (p : Params) : List Byte → Except Byte (List Byte)
  | [] => .ok []
  | c :: cs =>
    match encodeChar p c with
    | .error e => .error e
    | .ok m =>
      match encodeAll p cs with
      | .error e => .error e
      | .ok ms => .ok (m :: ms)

/-- `EncodeString(s)` (R129): WIDE keeps the length; NARROW reads at most four characters and answers exactly
four masks, the missing ones 0x00. -/
def encodeString (p : Params) (s : List Byte) : Except Byte (List Byte) :=
  match p.variant with
  | .wide => encodeAll p s
  | .narrow =>
    match encodeAll p (s.take 4) with
    | .error e => .error e
    | .ok ms => .ok (ms ++ List.replicate (4 - ms.length) 0x00)

end Sys2Proof.Machine
end

