-- ==== Sys2Proof/Machine/State.lean ====
section
/-! DEFINITION. The state of the block (10_state.md) with the inputs and outputs a claim can speak of
(10_state.md R34), as plain data, and the state after reset. -/

namespace Sys2Proof.Machine

/-- Idle or busy (10_state.md R28). -/
inductive Sequencer where
  | idle
  | busy
  deriving DecidableEq, Repr

/-- One thing the block hands to the outside (10_state.md R34). -/
inductive Output where
  /-- A frame given to the transport: `FB[0], FB[1], ..` (42_rasterizer.md R146). -/
  | frame (bytes : List Byte)
  /-- A delay request (44_format.md R199). -/
  | delay (ms : Half)
  /-- A response packet (30_encoding.md R94). -/
  | response (bytes : List Byte)
  deriving DecidableEq, Repr

/-- The errors a running command can raise (60_exceptions.md R220). BadCommand is the decoder's. -/
inductive Err where
  /-- Raised by WRITE (R221). -/
  | positionOutOfRange
  /-- Raised by EncodeChar, with the character (R222). -/
  | characterOutOfRange (c : Byte)
  /-- Raised by FLUSH, with the transport's byte (R223). -/
  | ioError (e : Byte)
  deriving DecidableEq, Repr

@[ext]
structure State where
  /-- VARIANT, W, BANDS, TABLE: fixed at construction (R22, R23). -/
  params : Params
  /-- FB (R20) as cells, addresses strictly rising, no cell 0x00; an unlisted byte reads 0x00. -/
  fb : List Host.Cell
  /-- CUR (R21). -/
  cur : Half
  /-- The sequencer (R28). -/
  seq : Sequencer
  /-- The packets the host has still to present on CMD, first one first (R34). -/
  cmd : List Packet
  /-- Responses, frames and delay requests in the order they left the block (R34). -/
  out : List Output
  /-- The transport's coming answers, first one first; past them they are free (log entry 3). -/
  xport : List XportAnswer
  /-- How many free answers of the transport were drawn: the model's own field (log entry 3). -/
  xportDraws : Nat
  /-- The delay unit's coming answers; past them they are free (log entry 4). -/
  dly : List DelayAnswer
  /-- How many free answers of the delay unit were drawn: the model's own field (log entry 4). -/
  dlyDraws : Nat
  /-- The RESETs to come (R250): each entry counts the boundaries that pass before it, from now or from the one
  before it; the boundaries are the acceptance of a packet, each micro-operation and each response; no entry, no
  RESET (log entry 6). -/
  resets : List Nat
  deriving DecidableEq, Repr

/-- No step faults: the errors of a command are responses (60_exceptions.md R227), and R220 says that there is
no other fault, so this type has no constructor. -/
inductive Fault where
  deriving DecidableEq, Repr

/-- Why a step has no meaning. -/
inductive Refusal where
  /-- Raised by `exec` for an instruction without a meaning; no arm raises it. Safe: the run stops. -/
  | notModelled (mnemonic : String)
  deriving DecidableEq, Repr

/-- The block right after power-on, built with the parameters `p` (R30, 70_reset_and_hazards.md R253). -/
def State.resetWith (p : Params) : State :=
  { params := p, fb := [], cur := 0, seq := .idle, cmd := [], out := [], xport := [], xportDraws := 0,
    dly := [], dlyDraws := 0, resets := [] }

/-- The block right after power-on with the default parameters of 00_scope.md R5. -/
def State.reset : State := State.resetWith (defaultParams resetVariant)

end Sys2Proof.Machine
end

