-- ==== Sys2Proof/Machine/Flags.lean ====
section
/-! DEFINITION. The block has no flags (10_state.md R26): the outcome of a command is the status byte of its
response and nothing else. This file holds the status codes and the response packets (30_encoding.md R94). -/

namespace Sys2Proof.Machine

/-- The response of a command that ends well: status Ok 0x00, then the payload (R94). -/
def okResponse (payload : List Byte) : Packet := 0x00 :: payload

/-- The response of an error: its code, then what it carries (R94, 60_exceptions.md R220). -/
def errResponse : Err → Packet
  | .positionOutOfRange => [0x01]
  | .characterOutOfRange c => [0x02, c]
  | .ioError e => [0x03, e]

/-- The response to a malformed or reserved packet (R94, R224). -/
def badCommandResponse : Packet := [0xFF]

end Sys2Proof.Machine
end

