-- ==== Sys2Proof/Machine/Ops.lean ====
section
/-! DEFINITION. The shared operations: FB as memory (20_memory.md), the pixel primitives and the flush
(42_rasterizer.md), the delay request (44_format.md R199), RESET (70_reset_and_hazards.md R250), the order of
micro-operations, and ending a command with its response (60_exceptions.md R227). -/

namespace Sys2Proof.Machine

/-! ### FB bytes -/

/-- What a byte of FB that no cell lists reads as: its value after RESET (10_state.md R30). -/
def unlisted : Byte := 0x00

/-- `MemRead(a, 1)` (00_scope.md section 7). -/
def readByte (m : List Host.Cell) (a : Nat) : Byte :=
  match m with
  | [] => unlisted
  | (k, b) :: r => if a = k then b else if a < k then unlisted else readByte r a

/-- Put a cell in front, unless it says what an unlisted byte reads as. -/
def consCell (a : Nat) (b : Byte) (m : List Host.Cell) : List Host.Cell :=
  if b = unlisted then m else (a, b) :: m

/-- `MemWrite(a, 1, b)` (00_scope.md section 7), keeping the canonical form. -/
def writeByte (m : List Host.Cell) (a : Nat) (b : Byte) : List Host.Cell :=
  match m with
  | [] => consCell a b []
  | (k, c) :: r =>
    if a = k then consCell a b r
    else if a < k then consCell a b ((k, c) :: r)
    else (k, c) :: writeByte r a b

/-- Cells in canonical form, from address `lo` on: addresses strictly rising, no cell that says what an
unlisted byte reads as. -/
def canonicalAbove (lo : Nat) (m : List Host.Cell) : Bool :=
  match m with
  | [] => true
  | (k, b) :: r => lo ≤ k ∧ b ≠ unlisted ∧ canonicalAbove (k + 1) r

/-- The cells of FB are in canonical form, so that equal buffers are equal data. -/
def Memory.wf (m : List Host.Cell) : Bool := canonicalAbove 0 m

/-- FB_BYTES = W * (H / 8) (10_state.md R20). -/
def fbBytes (p : Params) : Nat := p.width * p.bands

/-- H, the number of pixel rows (20_memory.md R53). -/
def height (p : Params) : Nat := 8 * p.bands

/-! ### Pixels -/

/-- Pixel `(x, y)` exists (20_memory.md R57, 10_state.md R35). -/
def onScreen (p : Params) (x y : Int) : Bool :=
  0 ≤ x ∧ x < p.width ∧ 0 ≤ y ∧ y < height p

/-- The FB index of pixel `(x, y)` (20_memory.md R51). -/
def pixelIndex (p : Params) (x y : Nat) : Nat := (y / 8) * p.width + x

/-- The bit of pixel `(x, y)` in its byte (20_memory.md R51, R52). -/
def pixelBit (y : Nat) : Nat := y % 8

/-- Byte `b` with bit `k` at `v` (20_memory.md R55). -/
def withBit (b : Byte) (k : Nat) (v : Bool) : Byte :=
  if v then b ||| (1#8 <<< k) else b &&& ~~~(1#8 <<< k)

/-- `SetPixel(x, y, v)` (42_rasterizer.md R141). -/
def setPixel (p : Params) (x y : Int) (v : Bool) (m : List Host.Cell) : List Host.Cell :=
  if onScreen p x y then
    let i := pixelIndex p x.toNat y.toNat
    writeByte m i (withBit (readByte m i) (pixelBit y.toNat) v)
  else m

/-- `GetPixel(x, y)`, for statements about FB only (42_rasterizer.md R141). -/
def getPixel (p : Params) (m : List Host.Cell) (x y : Nat) : Bool :=
  (readByte m (pixelIndex p x y)).getLsbD (pixelBit y)

/-- SetPixel over a sequence of pixels, in order, each clipped on its own. -/
def setPixels (p : Params) (v : Bool) (pts : List (Int × Int)) (m : List Host.Cell) : List Host.Cell :=
  pts.foldl (fun acc q => setPixel p q.1 q.2 v acc) m

/-- The pixels of `HLINE(x, y, len, ..)` in drawing order; none if `len <= 0` (42_rasterizer.md R142). -/
def hlinePixels (x y len : Int) : List (Int × Int) :=
  (List.range len.toNat).map fun (i : Nat) => (x + (i : Int), y)

/-- The pixels of `VLINE(x, y, len, ..)` in drawing order; none if `len <= 0` (R143). -/
def vlinePixels (x y len : Int) : List (Int × Int) :=
  (List.range len.toNat).map fun (i : Nat) => (x, y + (i : Int))

/-- The pixels of `FILL_RECT(x, y, w, h, ..)` in drawing order, row by row (R144). -/
def rectPixels (x y w h : Int) : List (Int × Int) :=
  (List.range h.toNat).flatMap fun (j : Nat) =>
    (List.range w.toNat).map fun (i : Nat) => (x + (i : Int), y + (j : Int))

/-- `HLINE(x, y, len, v)` (R142). -/
def hline (p : Params) (x y len : Int) (v : Bool) (m : List Host.Cell) : List Host.Cell :=
  setPixels p v (hlinePixels x y len) m

/-- `VLINE(x, y, len, v)` (R143). -/
def vline (p : Params) (x y len : Int) (v : Bool) (m : List Host.Cell) : List Host.Cell :=
  setPixels p v (vlinePixels x y len) m

/-- `FILL_RECT(x, y, w, h, v)` (R144). -/
def fillRect (p : Params) (x y w h : Int) (v : Bool) (m : List Host.Cell) : List Host.Cell :=
  setPixels p v (rectPixels x y w h) m

/-- The byte FILL writes (R145). -/
def fillByte (v : Bool) : Byte := if v then 0xFF else 0x00

/-- `FILL(v)` (R145): what the writes of `fillByte v` to the bytes `0 .. FB_BYTES-1` leave
(Laws/Memory.lean, readByte_fill). -/
def fill (p : Params) (v : Bool) (m : List Host.Cell) : List Host.Cell :=
  let rest := m.filter fun c => fbBytes p ≤ c.1
  if v then (List.range (fbBytes p)).map (fun i => (i, fillByte true)) ++ rest else rest

/-- `MemRead(0, FB_BYTES)` (20_memory.md R62): the frame, in index order. -/
def frameOf (p : Params) (m : List Host.Cell) : List Byte :=
  (List.range (fbBytes p)).map (readByte m)

/-! ### Updates of the state -/

def State.setFb (s : State) (m : List Host.Cell) : State := { s with fb := m }

def State.setCur (s : State) (c : Half) : State := { s with cur := c }

def State.setSeq (s : State) (q : Sequencer) : State := { s with seq := q }

def State.setResets (s : State) (r : List Nat) : State := { s with resets := r }

/-- Append one output (10_state.md R34). -/
def State.emit (s : State) (o : Output) : State := { s with out := s.out ++ [o] }

/-- The RESETs to come once a boundary has passed at which none was due: the first is one boundary nearer (log
entry 6). -/
def passBoundary : List Nat → List Nat
  | [] => []
  | 0 :: r => 0 :: r
  | (k + 1) :: r => k :: r

/-- Accept a packet (10_state.md R28): it leaves the CMD channel and the block becomes busy. The moment before it
is a boundary too, so that a RESET can come right before a packet is accepted or right after (log entry 6). -/
def State.accept (s : State) (rest : List Packet) : State :=
  { s with cmd := rest, seq := .busy, resets := passBoundary s.resets }

/-- Use up the transport's next answer. -/
def State.xportNext (s : State) : State :=
  match s.xport with
  | _ :: r => { s with xport := r }
  | [] => { s with xportDraws := s.xportDraws + 1 }

/-- The transport's next answer: the one listed, else a free value (42_rasterizer.md R146). -/
def State.xportAnswer (s : State) : XportAnswer :=
  match s.xport with
  | a :: _ => a
  | [] => Config.transportAnswer s.xportDraws

/-- Use up the delay unit's next answer. -/
def State.dlyNext (s : State) : State :=
  match s.dly with
  | _ :: r => { s with dly := r }
  | [] => { s with dlyDraws := s.dlyDraws + 1 }

/-- The delay unit's next answer: the one listed, else a free value (44_format.md R199). -/
def State.dlyAnswer (s : State) : DelayAnswer :=
  match s.dly with
  | a :: _ => a
  | [] => Config.delayAnswer s.dlyDraws

/-- RESET (70_reset_and_hazards.md R250): FB all 0x00, CUR 0, idle; the parameters stay. What is already on the
output lists stays: for a command in progress that is 92 D41, and for a RESET taken while idle, where 10_state.md
R30 says that the lists start empty, it is the model's choice (DESIGN CHOICE, log entry 17). -/
def applyReset (s : State) : State := { s with fb := [], cur := 0, seq := .idle }

/-! ### Running a command -/

/-- How far a command has come. -/
inductive Progress where
  /-- It goes on from this state. -/
  | running (s : State)
  /-- It has raised an error (60_exceptions.md R227). -/
  | raised (e : Err) (s : State)
  /-- It sends no response: RESET has abandoned it (70 R250), or it waits for ever (93 U8). -/
  | silent (s : State)
  deriving DecidableEq, Repr

/-- Go on with `f`, unless the command has ended. -/
def Progress.andThen (r : Progress) (f : State → Progress) : Progress :=
  match r with
  | .running s => f s
  | .raised e s => .raised e s
  | .silent s => .silent s

/-- The state a command has left so far. -/
def Progress.state : Progress → State
  | .running s => s
  | .raised _ s => s
  | .silent s => s

/-- A micro-operation boundary: a RESET that has come due abandons the command here (70 R250, 92 D41). -/
def boundary (s : State) : Progress :=
  match s.resets with
  | [] => .running s
  | 0 :: r => .silent (applyReset (s.setResets r))
  | (k + 1) :: r => .running (s.setResets (k :: r))

/-- `FLUSH()` (42_rasterizer.md R146): hand the frame over, then wait for the answer. A transport that never
answers leaves the block busy (93 U8). -/
def flush (s : State) : Progress :=
  let handed := s.emit (.frame (frameOf s.params s.fb))
  match handed.xportAnswer with
  | .ok => .running handed.xportNext
  | .ioError e => .raised (.ioError e) handed.xportNext
  | .never => .silent (handed.xportNext.setSeq .busy)

/-- `DELAY(ms)` (44_format.md R199): send the request, then wait for `done`. -/
def delay (ms : Half) (s : State) : Progress :=
  let asked := s.emit (.delay ms)
  match asked.dlyAnswer with
  | .done => .running asked.dlyNext
  | .never => .silent (asked.dlyNext.setSeq .busy)

/-- The micro-operations of a command (00_scope.md R2, 42_rasterizer.md R140, 44_format.md R199). -/
inductive MicroOp where
  | hline (x y len : Int) (v : Bool)
  | vline (x y len : Int) (v : Bool)
  | fillRect (x y w h : Int) (v : Bool)
  | fill (v : Bool)
  | flush
  | delay (ms : Half)
  deriving DecidableEq, Repr

/-- What a micro-operation makes of FB; only the drawing ones change it (R146, R148). -/
def drawOn (p : Params) (o : MicroOp) (m : List Host.Cell) : List Host.Cell :=
  match o with
  | .hline x y len v => hline p x y len v m
  | .vline x y len v => vline p x y len v m
  | .fillRect x y w h v => fillRect p x y w h v m
  | .fill v => fill p v m
  | .flush => m
  | .delay _ => m

/-- A drawing micro-operation: it cannot fail and never calls the transport (R148). -/
def draw (o : MicroOp) (s : State) : Progress := .running (s.setFb (drawOn s.params o s.fb))

/-- What one micro-operation does. -/
def perform (o : MicroOp) (s : State) : Progress :=
  match o with
  | .hline _ _ _ _ => draw o s
  | .vline _ _ _ _ => draw o s
  | .fillRect _ _ _ _ _ => draw o s
  | .fill _ => draw o s
  | .flush => flush s
  | .delay ms => delay ms s

/-- One micro-operation after its boundary. -/
def runOp (o : MicroOp) (s : State) : Progress := (boundary s).andThen (perform o)

/-- Micro-operations in order; the first that ends the command is the last performed (60_exceptions.md R227). -/
def runOps : List MicroOp → State → Progress
  | [], s => .running s
  | o :: os, s => (runOp o s).andThen (runOps os)

/-- Send the response and become idle (10_state.md R28, 30_encoding.md R94), unless a RESET comes first. -/
def respond (bytes : Packet) (s : State) : State :=
  match boundary s with
  | .running t => (t.emit (.response bytes)).setSeq .idle
  | .raised _ t => t
  | .silent t => t

/-- End of a command: Ok with its payload, or the error entry of 60_exceptions.md R227, which sends the code and
what it carries, saves nothing and jumps nowhere; there is nothing to return from (R228). -/
def finish (payload : List Byte) (r : Progress) : State :=
  match r with
  | .running s => respond (okResponse payload) s
  | .raised e s => respond (errResponse e) s
  | .silent s => s

/-- A packet that is no command (60_exceptions.md R224): the response, and nothing else. -/
def badCommand (s : State) : State := respond badCommandResponse s

/-- Nothing can happen before the next RESET: it is due now, or the block waits for ever, or no packet is there
to run (log entry 6). -/
def resetLands (s : State) : Bool :=
  match s.resets with
  | [] => false
  | 0 :: _ => true
  | (_ + 1) :: _ => s.seq = .busy ∨ s.cmd = []

end Sys2Proof.Machine
end

