-- ==== Sys2Proof/Machine/Geometry.lean ====
section
/-! DEFINITION. Where the segments, the dot and the colon are (43_composer.md R160 to R164, R170) and the
micro-operations that draw them (R165, R171, R172). The coordinates are the spec's own choice (log entry 9). -/

namespace Sys2Proof.Machine

/-- `X(n)`, the left edge of slot `n` (R160). -/
def slotX (n : Nat) : Int := 21 * n + (if 2 ≤ n then 2 else 0)

/-- Three horizontal strokes of length 10 on consecutive rows, the first on row `y` (R162: a, d, g). -/
def horizontalSegment (x y : Int) (v : Bool) : List MicroOp :=
  [.hline (x + 3) (y + 0) 10 v, .hline (x + 3) (y + 1) 10 v, .hline (x + 3) (y + 2) 10 v]

/-- Three vertical strokes of length 19 in consecutive columns, the first in column `x` (R162: b, c, e, f). -/
def verticalSegment (x y : Int) (v : Bool) : List MicroOp :=
  [.vline (x + 0) y 19 v, .vline (x + 1) y 19 v, .vline (x + 2) y 19 v]

/-- The micro-operations of `DrawGlyph(mask, n)` (R165): segments a to g, the dot, one flush. Every element is
written, with 1 or with 0 (R163, R164). -/
def glyphOps (mask : Byte) (n : Nat) : List MicroOp :=
  let x := slotX n
  horizontalSegment x 0 (mask.getLsbD 0)
    ++ verticalSegment (x + 13) 3 (mask.getLsbD 1)
    ++ verticalSegment (x + 13) 25 (mask.getLsbD 2)
    ++ horizontalSegment x 44 (mask.getLsbD 3)
    ++ verticalSegment x 25 (mask.getLsbD 4)
    ++ verticalSegment x 3 (mask.getLsbD 5)
    ++ horizontalSegment x 22 (mask.getLsbD 6)
    ++ [.fillRect (x + 17) 45 2 2 (mask.getLsbD 7), .flush]

/-- The micro-operations of COLON (R170, R171). -/
def colonOps (on : Bool) : List MicroOp := [.fillRect 42 12 2 2 on, .fillRect 42 33 2 2 on, .flush]

/-- The micro-operations of CLEAR (R172). -/
def clearOps (color : Bool) : List MicroOp := [.fill color, .flush]

end Sys2Proof.Machine
end

