-- ==== Sys2Proof/Machine/Composer.lean ====
section
/-! DEFINITION. The glyph compositor: WRITE, COLON and CLEAR as the helpers call them (44_format.md, first
paragraph) and as commands (43_composer.md R165 to R175). -/

namespace Sys2Proof.Machine

/-- `DrawGlyph(mask, CUR)`, then `CUR <- CUR + 1` (R165, R167). -/
def drawNext (mask : Byte) (s : State) : Progress :=
  (runOps (glyphOps mask s.cur.toNat) s).andThen fun t => .running (t.setCur (t.cur + 1))

/-- The masks in order, one slot and one flush each; no bound check on the way (R167, R168). -/
def drawMasks : List Byte → State → Progress
  | [], s => .running s
  | m :: ms, s => (drawNext m s).andThen (drawMasks ms)

/-- `WRITE(pos, masks)` (R167): the position test comes before everything else (R174). -/
def writeMasks (pos : Byte) (masks : List Byte) (s : State) : Progress :=
  if 3 < pos.toNat then .raised .positionOutOfRange s
  else drawMasks masks (s.setCur (pos.setWidth 16))

/-- `COLON(on)` (R171). -/
def drawColon (on : Bool) (s : State) : Progress := runOps (colonOps on) s

/-- CLEAR (R172). -/
def execClear (color : Bool) (s : State) : Host.Outcome State Fault Refusal :=
  .next (finish [] (runOps (clearOps color) s))

/-- COLON (R171). -/
def execColon (on : Bool) (s : State) : Host.Outcome State Fault Refusal :=
  .next (finish [] (drawColon on s))

/-- WRITE (R167). -/
def execWrite (pos : Byte) (masks : List Byte) (s : State) : Host.Outcome State Fault Refusal :=
  .next (finish [] (writeMasks pos masks s))

end Sys2Proof.Machine
end

