-- ==== Sys2Proof/Machine/Operands.lean ====
section
/-! DEFINITION. Operand forms of the encode commands and the helpers: nibbles (41_segment_table.md R125,
44_format.md R193), the integer and string functions (44_format.md R191, R192). Byte order and `truth` are in
Decode.lean (30_encoding.md R84, R88). -/

namespace Sys2Proof.Machine

/-- `n[3:0]` as a table index (R125). -/
def lowNibble (n : Byte) : Nat := (n.extractLsb' 0 4).toNat

/-- Nibble `k` of a 16-bit operand as a table index, `k = 0` the least significant (R193). -/
def nibble (v : Half) (k : Nat) : Nat := (v.extractLsb' (4 * k) 4).toNat

/-- `sext_32` (R88): the operand as a mathematical integer. -/
def signed (v : Word) : Int := v.toInt

/-- `Clamp(v, lo, hi)` (R191). -/
def clamp (v lo hi : Int) : Int := if v < lo then lo else if v > hi then hi else v

/-- The character of a decimal digit. -/
def digitChar (d : Nat) : Byte := BitVec.ofNat 8 (0x30 + d)

/-- `Dec(u)` with at most `n` digits. -/
def decDigits : Nat → Nat → List Byte
  | 0, _ => []
  | n + 1, u => if u < 10 then [digitChar u] else decDigits n (u / 10) ++ [digitChar (u % 10)]

/-- `Dec(u)` for `0 <= u <= 9999` (R192). -/
def dec (u : Nat) : List Byte := decDigits 4 u

/-- `'-'`. -/
def dashChar : Byte := 0x2D

/-- `' '`. -/
def spaceChar : Byte := 0x20

/-- `'0'`. -/
def zeroChar : Byte := 0x30

/-- `Signed(v)` (R192): the minus sign immediately before the first digit. -/
def signedDec (v : Int) : List Byte := if v < 0 then dashChar :: dec (-v).toNat else dec v.toNat

/-- `PadLeft(s, w, p)` (R192). -/
def padLeft (s : List Byte) (w : Nat) (p : Byte) : List Byte := List.replicate (w - s.length) p ++ s

end Sys2Proof.Machine
end

