-- ==== Sys2Proof/Machine/Encoder.lean ====
section
/-! DEFINITION. The encode commands ENCD, ENCC, ENCS (41_segment_table.md R125 to R128): lookups that draw
nothing and make no flush (R130). -/

namespace Sys2Proof.Machine

/-- ENCD (R125): the mask of the low nibble; `n[7:4]` is ignored. -/
def execEncd (n : Byte) (s : State) : Host.Outcome State Fault Refusal :=
  .next (finish [tableMask s.params (lowNibble n)] (.running s))

/-- ENCC (R126). -/
def execEncc (c : Byte) (s : State) : Host.Outcome State Fault Refusal :=
  match encodeChar s.params c with
  | .error e => .next (finish [] (.raised (.characterOutOfRange e) s))
  | .ok m => .next (finish [m] (.running s))

/-- ENCS (R127 in WIDE, R128 in NARROW): the number of masks, then the masks. -/
def execEncs (cs : List Byte) (s : State) : Host.Outcome State Fault Refusal :=
  match encodeString s.params cs with
  | .error e => .next (finish [] (.raised (.characterOutOfRange e) s))
  | .ok ms => .next (finish (BitVec.ofNat 8 ms.length :: ms) (.running s))

end Sys2Proof.Machine
end

