-- ==== Sys2Proof/Machine/Format.lean ====
section
/-! DEFINITION. The formatting helpers HEX, NUMBER, NUMBERS, TEMP, SCROLL (44_format.md R193 to R202). Each
encodes before it draws, and an error inside it ends it at once (R200). -/

namespace Sys2Proof.Machine

/-- Encode `str`, then go on with its masks; an unsupported character raises CharacterOutOfRange before
anything is drawn (R200). -/
def encodeThen (str : List Byte) (f : List Byte → State → Progress) (s : State) : Progress :=
  match encodeString s.params str with
  | .error c => .raised (.characterOutOfRange c) s
  | .ok ms => f ms s

/-- The masks of the four nibbles, most significant first (R193). -/
def hexMasks (p : Params) (v : Half) : List Byte :=
  [tableMask p (nibble v 3), tableMask p (nibble v 2), tableMask p (nibble v 1), tableMask p (nibble v 0)]

/-- The string NUMBER shows (R194). -/
def numberString (v : Int) : List Byte := padLeft (signedDec (clamp v (-999) 9999)) 4 spaceChar

/-- The string NUMBERS shows (R195). -/
def numbersString (a b : Int) : List Byte :=
  padLeft (signedDec (clamp a (-9) 99)) 2 zeroChar ++ padLeft (signedDec (clamp b (-9) 99)) 2 zeroChar

/-- The string TEMP shows (R196): "lo", "hi", or two characters. -/
def tempString (v : Int) : List Byte :=
  if v < -9 then [0x6C, 0x6F] else if v > 99 then [0x68, 0x69] else padLeft (signedDec v) 2 spaceChar

/-- The degree symbol and C, fixed masks that are not looked up (R196). -/
def degreeC : List Byte := [0x63, 0x39]

/-- The blank mask of SCROLL's padding, and how many stand on each side (R197, SCROLL_PAD of 00_scope.md R5). -/
def scrollPad : List Byte := [0x00, 0x00, 0x00, 0x00]

/-- `padded` (R197). -/
def scrollPadded (ms : List Byte) : List Byte := scrollPad ++ ms ++ scrollPad

/-- The windows `padded[i .. i+3]` for `i` in `0 .. len(m) + 4` (R197). -/
def scrollWindows (ms : List Byte) : List (List Byte) :=
  (List.range (ms.length + 5)).map fun i => ((scrollPadded ms).drop i).take 4

/-- `WRITE(0, window)`, then `DELAY(delay_ms)`, window by window (R197, R198). -/
def scrollLoop (delayMs : Half) : List (List Byte) → State → Progress
  | [], s => .running s
  | w :: ws, s =>
    ((writeMasks 0 w s).andThen (runOp (.delay delayMs))).andThen (scrollLoop delayMs ws)

/-- HEX (R193). -/
def execHex (v : Half) (s : State) : Host.Outcome State Fault Refusal :=
  .next (finish [] (writeMasks 0 (hexMasks s.params v) s))

/-- NUMBER (R194). -/
def execNumber (v : Word) (s : State) : Host.Outcome State Fault Refusal :=
  .next (finish [] (encodeThen (numberString (signed v)) (writeMasks 0) s))

/-- NUMBERS (R195): the digits, then the colon. -/
def execNumbers (a b : Word) (colon : Bool) (s : State) : Host.Outcome State Fault Refusal :=
  .next (finish [] (encodeThen (numbersString (signed a) (signed b))
    (fun ms t => (writeMasks 0 ms t).andThen (drawColon colon)) s))

/-- TEMP (R196). -/
def execTemp (v : Word) (s : State) : Host.Outcome State Fault Refusal :=
  .next (finish [] (encodeThen (tempString (signed v))
    (fun ms t => (writeMasks 0 ms t).andThen (writeMasks 2 degreeC)) s))

/-- SCROLL (R197). -/
def execScroll (delayMs : Half) (str : List Byte) (s : State) : Host.Outcome State Fault Refusal :=
  .next (finish [] (encodeThen str (fun ms t => scrollLoop delayMs (scrollWindows ms) t) s))

end Sys2Proof.Machine
end

