-- ==== Sys2Proof/Machine/Dispatch.lean ====
section
/-! DEFINITION. The dispatch of a decoded command to its meaning, one arm per constructor. -/

namespace Sys2Proof.Machine

def exec (i : Instr) (s : State) : Host.Outcome State Fault Refusal :=
  match i with
  | .clear color => Sys2Proof.Machine.execClear color s
  | .colon on => Sys2Proof.Machine.execColon on s
  | .write pos masks => Sys2Proof.Machine.execWrite pos masks s
  | .encd n => Sys2Proof.Machine.execEncd n s
  | .encc c => Sys2Proof.Machine.execEncc c s
  | .encs cs => Sys2Proof.Machine.execEncs cs s
  | .hex v => Sys2Proof.Machine.execHex v s
  | .number v => Sys2Proof.Machine.execNumber v s
  | .numbers a b colon => Sys2Proof.Machine.execNumbers a b colon s
  | .temp v => Sys2Proof.Machine.execTemp v s
  | .scroll delayMs cs => Sys2Proof.Machine.execScroll delayMs cs s

end Sys2Proof.Machine
end

