-- ==== Sys2Proof/Machine/Step.lean ====
section
/-! DEFINITION. One step: the RESET that is due, or one whole command from the CMD channel (00_scope.md R2,
10_state.md R25, R28). -/

namespace Sys2Proof.Machine

/-- One step. A RESET that is due comes first; a busy block accepts no packet and waits on (R28); an idle block
with no packet waits; otherwise the next packet is accepted, decoded and run, and a packet that is no command is
answered BadCommand (60_exceptions.md R224). -/
def step (s : State) : Host.Outcome State Fault Refusal :=
  if resetLands s then .next (applyReset (s.setResets s.resets.tail))
  else
    match s.seq with
    | .busy => .next s
    | .idle =>
      match s.cmd with
      | [] => .next s
      | p :: rest =>
        match decode p with
        | .ok i => exec i (s.accept rest)
        | .error _ => .next (badCommand (s.accept rest))

/-- Deliver the packet whose bits are `w` so that the very next step accepts it: it is put first on the CMD
channel of an idle block with no RESET to come (log entry 1). -/
def State.withFetchWord (s : State) (nbits w : Nat) : State :=
  { s with cmd := packetOfWord nbits w :: s.cmd, seq := .idle, resets := [] }

end Sys2Proof.Machine
end

