-- ==== Sys2Proof/Machine/Asm.lean ====
section
/-! DEFINITION. The assembler text of a command (30_encoding.md R98), the default arguments (R99) and the
disassembler (R100). No step reads text: it is a convention between the host and its tools. What R98 leaves
open (blanks, the radix the disassembler prints) is log entry 14. -/

namespace Sys2Proof.Machine

/-- A line of assembler text. -/
abbrev Text := List Char

/-- A piece of a line. -/
inductive Token where
  | word (name : Text)
  | int (v : Int)
  | char (c : Byte)
  | str (s : List Byte)
  | comma
  | open
  | close
  deriving DecidableEq, Repr

/-- What the reader is in the middle of; text read so far is kept last character first. -/
inductive LexMode where
  | ground
  | word (read : Text)
  | num (read : Text)
  | str (read : List Byte)
  | charOpen
  | charRead (c : Byte)
  deriving DecidableEq, Repr

/-- An ASCII character as a byte (R98). A line end is none: a command stands on one line (DESIGN CHOICE, log
entry 14). -/
def asciiByte (c : Char) : Option Byte :=
  if c.toNat < 128 ∧ c ≠ '\n' then some (BitVec.ofNat 8 c.toNat) else none

/-- The value of a digit, up to base 16. -/
def digitValue (c : Char) : Option Nat :=
  if 48 ≤ c.toNat ∧ c.toNat ≤ 57 then some (c.toNat - 48)
  else if 65 ≤ c.toNat ∧ c.toNat ≤ 70 then some (c.toNat - 55)
  else if 97 ≤ c.toNat ∧ c.toNat ≤ 102 then some (c.toNat - 87)
  else none

/-- A number in a base, most significant digit first. -/
def readDigits (base : Nat) : Nat → Text → Option Nat
  | acc, [] => some acc
  | acc, c :: cs =>
    match digitValue c with
    | none => none
    | some d => if d < base then readDigits base (acc * base + d) cs else none

/-- Decimal or `0x` hexadecimal (R98). -/
def readNat : Text → Option Nat
  | [] => none
  | ['0', 'x'] => none
  | '0' :: 'x' :: cs => readDigits 16 0 cs
  | cs => readDigits 10 0 cs

/-- An integer with an optional leading `-` (R98). -/
def readInt : Text → Option Int
  | '-' :: cs => (readNat cs).map fun n => -(n : Int)
  | cs => (readNat cs).map fun n => (n : Int)

/-- What a character outside any piece begins: pieces complete at once, and what is then being read. -/
def lexStart (c : Char) : Option (List Token × LexMode) :=
  if c = ' ' then some ([], .ground)
  else if c = ',' then some ([.comma], .ground)
  else if c = '[' then some ([.open], .ground)
  else if c = ']' then some ([.close], .ground)
  else if c = '"' then some ([], .str [])
  else if c = '\'' then some ([], .charOpen)
  else if c.isUpper then some ([], .word [c])
  else if c.isDigit ∨ c = '-' then some ([], .num [c])
  else none

/-- One character further: pieces completed, and what is being read. R98 gives no escape. DESIGN CHOICE (log
entry 14): a character piece is any one ASCII character between two single quotes, the single quote itself among
them, and a string ends at its next double quote, so it holds none. -/
def lexNext (m : LexMode) (c : Char) : Option (List Token × LexMode) :=
  match m with
  | .ground => lexStart c
  | .word r =>
    if c.isUpper then some ([], .word (c :: r))
    else (lexStart c).map fun q => (.word r.reverse :: q.1, q.2)
  | .num r =>
    if c.isAlphanum then some ([], .num (c :: r))
    else
      match readInt r.reverse with
      | none => none
      | some v => (lexStart c).map fun q => (.int v :: q.1, q.2)
  | .str r => if c = '"' then some ([.str r.reverse], .ground) else (asciiByte c).map fun b => ([], .str (b :: r))
  | .charOpen => (asciiByte c).map fun b => ([], .charRead b)
  | .charRead b => if c = '\'' then some ([.char b], .ground) else none

/-- The last piece of a line. -/
def lexEnd : LexMode → Option (List Token)
  | .ground => some []
  | .word r => some [.word r.reverse]
  | .num r => (readInt r.reverse).map fun v => [.int v]
  | .str _ => none
  | .charOpen => none
  | .charRead _ => none

/-- The pieces of a line. -/
def lex : LexMode → Text → Option (List Token)
  | m, [] => lexEnd m
  | m, c :: cs =>
    match lexNext m c with
    | none => none
    | some (ts, m') => (lex m' cs).map fun us => ts ++ us

/-- An integer that fits a byte. -/
def byteOf (v : Int) : Option Byte :=
  if 0 ≤ v ∧ v < 256 then some (BitVec.ofInt 8 v) else none

/-- An integer that fits 16 bits unsigned. -/
def halfOf (v : Int) : Option Half :=
  if 0 ≤ v ∧ v < 65536 then some (BitVec.ofInt 16 v) else none

/-- An integer that fits 32 bits two's complement. -/
def wordOf (v : Int) : Option Word :=
  if -2147483648 ≤ v ∧ v < 2147483648 then some (BitVec.ofInt 32 v) else none

/-- The rest of a mask sequence after its first `[` and any earlier masks. -/
def parseMoreMasks : List Token → Option (List Byte)
  | [.close] => some []
  | .comma :: .int v :: ts =>
    match byteOf v, parseMoreMasks ts with
    | some m, some ms => some (m :: ms)
    | _, _ => none
  | _ => none

/-- A mask sequence `[m0, m1, ..]` (R98). -/
def parseMasks : List Token → Option (List Byte)
  | [.open, .close] => some []
  | .open :: .int v :: ts =>
    match byteOf v, parseMoreMasks ts with
    | some m, some ms => some (m :: ms)
    | _, _ => none
  | _ => none

/-- The mnemonics of R86. -/
def nameOf : Opcode → Text
  | .clear => ['C', 'L', 'E', 'A', 'R']
  | .colon => ['C', 'O', 'L', 'O', 'N']
  | .write => ['W', 'R', 'I', 'T', 'E']
  | .encd => ['E', 'N', 'C', 'D']
  | .encc => ['E', 'N', 'C', 'C']
  | .encs => ['E', 'N', 'C', 'S']
  | .hex => ['H', 'E', 'X']
  | .number => ['N', 'U', 'M', 'B', 'E', 'R']
  | .numbers => ['N', 'U', 'M', 'B', 'E', 'R', 'S']
  | .temp => ['T', 'E', 'M', 'P']
  | .scroll => ['S', 'C', 'R', 'O', 'L', 'L']

/-- The opcode a mnemonic names. -/
def opcodeNamed (w : Text) : Option Opcode := allOpcodes.find? fun o => nameOf o == w

/-- The operands of a mnemonic (R98), a missing one at its default (R99): CLEAR's colour is off, WRITE's
position is 0, NUMBERS' colon is on; SCROLL has no default. -/
def parseOperands (o : Opcode) (ts : List Token) : Option Instr :=
  match o, ts with
  | .clear, [] => some (.clear false)
  | .clear, [.int v] => (byteOf v).map fun b => .clear (truth b)
  | .colon, [.int v] => (byteOf v).map fun b => .colon (truth b)
  | .write, .int v :: .comma :: us =>
    match byteOf v, parseMasks us with
    | some pos, some ms => some (.write pos ms)
    | _, _ => none
  | .write, us => (parseMasks us).map fun ms => .write 0 ms
  | .encd, [.int v] => (byteOf v).map fun b => .encd b
  | .encc, [.char c] => some (.encc c)
  | .encs, [.str s] => some (.encs s)
  | .hex, [.int v] => (halfOf v).map fun h => .hex h
  | .number, [.int v] => (wordOf v).map fun w => .number w
  | .numbers, [.int a, .comma, .int b] =>
    match wordOf a, wordOf b with
    | some x, some y => some (.numbers x y true)
    | _, _ => none
  | .numbers, [.int a, .comma, .int b, .comma, .int c] =>
    match wordOf a, wordOf b, byteOf c with
    | some x, some y, some k => some (.numbers x y (truth k))
    | _, _, _ => none
  | .temp, [.int v] => (wordOf v).map fun w => .temp w
  | .scroll, [.int d, .comma, .str s] => (halfOf d).map fun h => .scroll h s
  | _, _ => none

/-- A line's command; `none` where it is not one a packet can carry. -/
def parseTokens (ts : List Token) : Option Instr :=
  match ts with
  | .word w :: us =>
    match opcodeNamed w with
    | none => none
    | some o =>
      match parseOperands o us with
      | none => none
      | some i => if i.wellFormed then some i else none
  | _ => none

/-- The assembler (R98): a line to its command. -/
def assemble (line : Text) : Option Instr :=
  match lex .ground line with
  | none => none
  | some ts => parseTokens ts

/-- The packet the assembler emits, the canonical one (R100). -/
def assemblePacket (line : Text) : Option Packet := (assemble line).map encode

/-- `m0, m1, ..` without the brackets. -/
def maskTokens : List Byte → List Token
  | [] => []
  | [m] => [.int m.toNat]
  | m :: ms => .int m.toNat :: .comma :: maskTokens ms

/-- An on/off operand as its canonical integer (R100). -/
def truthToken (v : Bool) : Token := .int (truthByte v).toNat

/-- The pieces of the canonical line of a command (R100). -/
def toTokens : Instr → List Token
  | .clear color => [.word (nameOf .clear), truthToken color]
  | .colon on => [.word (nameOf .colon), truthToken on]
  | .write pos masks =>
    .word (nameOf .write) :: .int pos.toNat :: .comma :: .open :: (maskTokens masks ++ [.close])
  | .encd n => [.word (nameOf .encd), .int n.toNat]
  | .encc c => [.word (nameOf .encc), .char c]
  | .encs s => [.word (nameOf .encs), .str s]
  | .hex v => [.word (nameOf .hex), .int v.toNat]
  | .number v => [.word (nameOf .number), .int v.toInt]
  | .numbers a b colon =>
    [.word (nameOf .numbers), .int a.toInt, .comma, .int b.toInt, .comma, truthToken colon]
  | .temp v => [.word (nameOf .temp), .int v.toInt]
  | .scroll delayMs s => [.word (nameOf .scroll), .int delayMs.toNat, .comma, .str s]

/-- A byte as the ASCII character it is, where a line can hold it: not above 0x7F and no line end, which is what
`asciiByte` reads (log entry 14). -/
def printChar (b : Byte) : Option Char :=
  if b.toNat < 128 ∧ b ≠ 0x0A then some (Char.ofNat b.toNat) else none

/-- The characters of a string, `none` where one cannot be written in it, the double quote among them (log
entry 14). -/
def printChars : List Byte → Option Text
  | [] => some []
  | b :: bs =>
    if b = 0x22 then none
    else
      match printChar b, printChars bs with
      | some c, some cs => some (c :: cs)
      | _, _ => none

/-- One piece as text; integers in decimal (log entry 14). -/
def printToken : Token → Option Text
  | .word w => some w
  | .int v => some (if v < 0 then '-' :: Nat.toDigits 10 (-v).toNat else Nat.toDigits 10 v.toNat)
  | .char c => (printChar c).map fun k => ['\'', k, '\'']
  | .str s => (printChars s).map fun cs => '"' :: (cs ++ ['"'])
  | .comma => some [',']
  | .open => some ['[']
  | .close => some [']']

/-- The blank after a piece: one after the mnemonic and after a comma (log entry 14). -/
def blankAfter : Token → Text
  | .word _ => [' ']
  | .comma => [' ']
  | .int _ => []
  | .char _ => []
  | .str _ => []
  | .open => []
  | .close => []

/-- The pieces of a line as text. -/
def printTokens : List Token → Option Text
  | [] => some []
  | t :: ts =>
    match printToken t, printTokens ts with
    | some a, some b => some (a ++ blankAfter t ++ b)
    | _, _ => none

/-- The disassembler (R100): the canonical line of a command; `none` where a character of it has no text. -/
def disassemble (i : Instr) : Option Text := printTokens (toTokens i)

/-- The line of a packet (R100); `none` where the packet is no command. -/
def disassemblePacket (p : Packet) : Option Text :=
  match decode p with
  | .ok i => disassemble i
  | .error _ => none

end Sys2Proof.Machine
end

