-- ==== Sys2Proof/Safety.lean ====
section
/-! DEFINITION. The terms claims are stated in: the views of the output list (10_state.md R34), what the outside
answers, the pixel sets of 43_composer.md as sets of coordinates, what a command shows, and the invariants. -/

namespace Sys2Proof.Machine

/-! ### Views of the output list (R34) -/

/-- The frame list. -/
def framesOf (os : List Output) : List (List Byte) :=
  os.filterMap fun o => match o with | .frame b => some b | .delay _ => none | .response _ => none

/-- The delay list. -/
def delaysOf (os : List Output) : List Half :=
  os.filterMap fun o => match o with | .frame _ => none | .delay ms => some ms | .response _ => none

/-- The response list. -/
def responsesOf (os : List Output) : List Packet :=
  os.filterMap fun o => match o with | .frame _ => none | .delay _ => none | .response r => some r

/-! ### What the outside answers -/

/-- The transport's answer to the k-th flush from now, `k` from 0. -/
def xportAt (s : State) (k : Nat) : XportAnswer :=
  (s.xport[k]?).getD (Config.transportAnswer (s.xportDraws + (k - s.xport.length)))

/-- The delay unit's answer to the k-th request from now, `k` from 0. -/
def dlyAt (s : State) (k : Nat) : DelayAnswer :=
  (s.dly[k]?).getD (Config.delayAnswer (s.dlyDraws + (k - s.dly.length)))

/-- The transport answers `ok` to the next `n` flushes. -/
def TransportOk (s : State) (n : Nat) : Prop := ∀ k, k < n → xportAt s k = .ok

/-- The transport answers `ok` to the next `n` flushes and `IoError(e)` to the one after them. -/
def TransportFails (s : State) (n : Nat) (e : Byte) : Prop := TransportOk s n ∧ xportAt s n = .ioError e

/-- The delay unit answers `done` to the next `n` requests. -/
def DelayOk (s : State) (n : Nat) : Prop := ∀ k, k < n → dlyAt s k = .done

/-- `s` with `n` answers of the transport used up. -/
def usedXport (s : State) (n : Nat) : State :=
  { s with xport := s.xport.drop n, xportDraws := s.xportDraws + (n - s.xport.length) }

/-- `s` with `n` answers of the delay unit used up. -/
def usedDly (s : State) (n : Nat) : State :=
  { s with dly := s.dly.drop n, dlyDraws := s.dlyDraws + (n - s.dly.length) }

/-- `s` with more outputs. -/
def State.emits (s : State) (os : List Output) : State := { s with out := s.out ++ os }

/-- `s` after a command that put out `os` and then the response `r` (30_encoding.md R94). -/
def State.ended (s : State) (os : List Output) (r : Packet) : State :=
  (s.emits (os ++ [.response r])).setSeq .idle

/-- `s` built with another variant and table. -/
def State.withTable (s : State) (v : Variant) (tb : Table) : State :=
  { s with params := { s.params with variant := v, table := tb } }

/-! ### Pixel sets (43_composer.md R162, R164, R170) -/

/-- Local column `dx`, row `y` belongs to element `k` of a glyph: segments a to g are 0 to 6, the dot is 7. -/
def inElement (k : Nat) (dx y : Int) : Bool :=
  match k with
  | 0 => 3 ≤ dx ∧ dx ≤ 12 ∧ 0 ≤ y ∧ y ≤ 2
  | 1 => 13 ≤ dx ∧ dx ≤ 15 ∧ 3 ≤ y ∧ y ≤ 21
  | 2 => 13 ≤ dx ∧ dx ≤ 15 ∧ 25 ≤ y ∧ y ≤ 43
  | 3 => 3 ≤ dx ∧ dx ≤ 12 ∧ 44 ≤ y ∧ y ≤ 46
  | 4 => 0 ≤ dx ∧ dx ≤ 2 ∧ 25 ≤ y ∧ y ≤ 43
  | 5 => 0 ≤ dx ∧ dx ≤ 2 ∧ 3 ≤ y ∧ y ≤ 21
  | 6 => 3 ≤ dx ∧ dx ≤ 12 ∧ 22 ≤ y ∧ y ≤ 24
  | 7 => 17 ≤ dx ∧ dx ≤ 18 ∧ 45 ≤ y ∧ y ≤ 46
  | _ => false

/-- The element of slot `n` that pixel `(x, y)` belongs to, if any. -/
def elementAt (n x y : Nat) : Option Nat :=
  (List.range 8).find? fun k => inElement k ((x : Int) - slotX n) y

/-- The pixel belongs to one of the colon's squares (R170). -/
def inColon (x y : Nat) : Bool := (x = 42 ∨ x = 43) ∧ (y = 12 ∨ y = 13 ∨ y = 33 ∨ y = 34)

/-- Pixel `(x, y)` after the masks were drawn from cursor value `n` on, when it was `old` before: the mask bit of
its element in the last of these slots that has it. -/
def shownPixel (x y : Nat) : Nat → List Byte → Bool → Bool
  | _, [], old => old
  | n, m :: ms, old =>
    match elementAt n x y with
    | some k => shownPixel x y (n + 1) ms (m.getLsbD k)
    | none => shownPixel x y (n + 1) ms old

/-! ### What commands do to FB and put out, for statements -/

/-- FB after the drawing of micro-operations. -/
def drawAll (p : Params) (ops : List MicroOp) (m : List Host.Cell) : List Host.Cell :=
  ops.foldl (fun acc o => drawOn p o acc) m

/-- FB after `DrawGlyph(mask, n)` (R165). -/
def glyphFb (p : Params) (mask : Byte) (n : Nat) (m : List Host.Cell) : List Host.Cell :=
  drawAll p (glyphOps mask n) m

/-- FB after the masks were drawn from cursor value `n` on (R167). -/
def writtenFb (p : Params) : Nat → List Byte → List Host.Cell → List Host.Cell
  | _, [], m => m
  | n, k :: ks, m => writtenFb p (n + 1) ks (glyphFb p k n m)

/-- The frames of drawing the masks from cursor value `n` on: one after each mask (R167). -/
def writtenFrames (p : Params) : Nat → List Byte → List Host.Cell → List Output
  | _, [], _ => []
  | n, k :: ks, m => .frame (frameOf p (glyphFb p k n m)) :: writtenFrames p (n + 1) ks (glyphFb p k n m)

/-- FB after COLON (R171). -/
def colonFb (p : Params) (on : Bool) (m : List Host.Cell) : List Host.Cell := drawAll p (colonOps on) m

/-- FB and outputs of SCROLL's windows (R197, R198). -/
def scrolled (p : Params) (delayMs : Half) : List (List Byte) → List Host.Cell → List Host.Cell × List Output
  | [], m => (m, [])
  | w :: ws, m =>
    let later := scrolled p delayMs ws (writtenFb p 0 w m)
    (later.1, writtenFrames p 0 w m ++ .delay delayMs :: later.2)

/-! ### The micro-operations of a command, as a list -/

/-- The masks drawn from cursor value `n` on (R167). -/
def glyphScript : Nat → List Byte → List MicroOp
  | _, [] => []
  | n, m :: ms => glyphOps m n ++ glyphScript (n + 1) ms

/-- What follows from a string's masks; nothing where it does not encode (44_format.md R200). -/
def encodedScript (p : Params) (str : List Byte) (f : List Byte → List MicroOp) : List MicroOp :=
  match encodeString p str with
  | .ok ms => f ms
  | .error _ => []

/-- The micro-operations of a command in order, where every flush and delay is answered (00_scope.md R2); a
command that fails its checks has none (60_exceptions.md R225). -/
def script (p : Params) (i : Instr) : List MicroOp :=
  match i with
  | .clear color => clearOps color
  | .colon on => colonOps on
  | .write pos masks => if 3 < pos.toNat then [] else glyphScript pos.toNat masks
  | .encd _ => []
  | .encc _ => []
  | .encs _ => []
  | .hex v => glyphScript 0 (hexMasks p v)
  | .number v => encodedScript p (numberString (signed v)) (glyphScript 0)
  | .numbers a b colon =>
    encodedScript p (numbersString (signed a) (signed b)) fun ms => glyphScript 0 ms ++ colonOps colon
  | .temp v => encodedScript p (tempString (signed v)) fun ms => glyphScript 0 ms ++ glyphScript 2 degreeC
  | .scroll delayMs str =>
    encodedScript p str fun ms => (scrollWindows ms).flatMap fun w => glyphScript 0 w ++ [.delay delayMs]

/-- The frames and delay requests of micro-operations on FB, where each is answered (42_rasterizer.md R146,
44_format.md R199). -/
def outputsOf (p : Params) : List MicroOp → List Host.Cell → List Output
  | [], _ => []
  | .flush :: ops, m => .frame (frameOf p m) :: outputsOf p ops m
  | .delay ms :: ops, m => .delay ms :: outputsOf p ops m
  | .hline x y len v :: ops, m => outputsOf p ops (hline p x y len v m)
  | .vline x y len v :: ops, m => outputsOf p ops (vline p x y len v m)
  | .fillRect x y w h v :: ops, m => outputsOf p ops (fillRect p x y w h v m)
  | .fill v :: ops, m => outputsOf p ops (fill p v m)

/-- How many answers of the transport micro-operations use. -/
def flushCount (ops : List MicroOp) : Nat := (ops.filter fun o => match o with
  | .flush => true
  | .hline _ _ _ _ => false
  | .vline _ _ _ _ => false
  | .fillRect _ _ _ _ _ => false
  | .fill _ => false
  | .delay _ => false).length

/-- How many answers of the delay unit micro-operations use. -/
def delayCount (ops : List MicroOp) : Nat := (ops.filter fun o => match o with
  | .delay _ => true
  | .hline _ _ _ _ => false
  | .vline _ _ _ _ => false
  | .fillRect _ _ _ _ _ => false
  | .fill _ => false
  | .flush => false).length

/-! ### Characters and commands -/

/-- The character has a mask in the variant (R124). -/
def supported (v : Variant) (c : Byte) : Bool := (charIndex v c).isSome

/-- The mask of a supported character. -/
def maskOf (p : Params) (c : Byte) : Byte := tableMask p ((charIndex p.variant c).getD 0)

/-- The command only looks masks up (R130). -/
def isLookup : Instr → Bool
  | .clear _ => false
  | .colon _ => false
  | .write _ _ => false
  | .encd _ => true
  | .encc _ => true
  | .encs _ => true
  | .hex _ => false
  | .number _ => false
  | .numbers _ _ _ => false
  | .temp _ => false
  | .scroll _ _ => false

/-- An output is a frame. -/
def isFrame : Output → Bool
  | .frame _ => true
  | .delay _ => false
  | .response _ => false

/-- The masks a string encodes to, where it encodes. -/
def masksOf (p : Params) (str : List Byte) : List Byte :=
  match encodeString p str with
  | .ok ms => ms
  | .error _ => []

/-! ### What the display shows, as a closed form (R177) -/

/-- The colour of the last CLEAR, the last mask drawn in each slot since, the last COLON since. -/
structure Picture where
  background : Bool
  slots : Vector (Option Byte) 4
  colon : Option Bool
  deriving DecidableEq, Repr

/-- The pixel a picture shows at `(x, y)`. -/
def Picture.pixel (q : Picture) (x y : Nat) : Bool :=
  if inColon x y then q.colon.getD q.background
  else
    match (List.finRange 4).find? fun n => (elementAt n.val x y).isSome with
    | none => q.background
    | some n =>
      match q.slots[n.val], elementAt n.val x y with
      | some m, some k => m.getLsbD k
      | _, _ => q.background

/-- The picture after the masks were written from slot `n` on; past slot 3 nothing shows (R168). -/
def Picture.written (q : Picture) : Nat → List Byte → Picture
  | _, [] => q
  | n, m :: ms =>
    Picture.written (if h : n < 4 then { q with slots := q.slots.set n (some m) } else q) (n + 1) ms

/-- The picture after a command that ended Ok (R177). -/
def Picture.after (p : Params) (i : Instr) (q : Picture) : Picture :=
  match i with
  | .clear color => { background := color, slots := Vector.replicate 4 none, colon := none }
  | .colon on => { q with colon := some on }
  | .write pos masks => q.written pos.toNat masks
  | .encd _ => q
  | .encc _ => q
  | .encs _ => q
  | .hex v => q.written 0 (hexMasks p v)
  | .number v => q.written 0 (masksOf p (numberString (signed v)))
  | .numbers a b colon =>
    { q.written 0 (masksOf p (numbersString (signed a) (signed b))) with colon := some colon }
  | .temp v => (q.written 0 (masksOf p (tempString (signed v)))).written 2 degreeC
  | .scroll _ _ => q.written 0 [0x00, 0x00, 0x00, 0x00]

/-- FB shows the picture on every pixel of the screen. -/
def Shows (p : Params) (m : List Host.Cell) (q : Picture) : Prop :=
  ∀ x y, x < p.width → y < height p → getPixel p m x y = q.pixel x y

/-! ### The invariant every step keeps -/

/-- The payload of an Ok response: none, one mask, or `k` and `k` masks (R94). -/
def okPayload (payload : List Byte) : Bool :=
  match payload with
  | [] => true
  | [_] => true
  | k :: masks => k.toNat = masks.length

/-- A response packet of a form that R94 lists. -/
def legalResponse (r : Packet) : Bool :=
  match r with
  | [] => false
  | st :: payload =>
    (st = 0x00 ∧ okPayload payload = true) ∨ (st = 0x01 ∧ payload.length = 0) ∨ (st = 0x02 ∧ payload.length = 1)
      ∨ (st = 0x03 ∧ payload.length = 1) ∨ (st = 0xFF ∧ payload.length = 0)

/-- Every cell of FB lies inside FB (20_memory.md R57). -/
def inBounds (p : Params) (m : List Host.Cell) : Bool := m.all fun c => c.1 < fbBytes p

/-- The payload of the command's Ok response: its column "sent by" of R94. -/
def okPayloadOf (i : Instr) (payload : List Byte) : Bool :=
  match i, payload with
  | .encd _, [_] => true
  | .encd _, _ => false
  | .encc _, [_] => true
  | .encc _, _ => false
  | .encs _, k :: masks => k.toNat = masks.length
  | .encs _, [] => false
  | .clear _, payload => payload.isEmpty
  | .colon _, payload => payload.isEmpty
  | .write _ _, payload => payload.isEmpty
  | .hex _, payload => payload.isEmpty
  | .number _, payload => payload.isEmpty
  | .numbers _ _ _, payload => payload.isEmpty
  | .temp _, payload => payload.isEmpty
  | .scroll _ _, payload => payload.isEmpty

/-- The command can raise CharacterOutOfRange (R94, 60_exceptions.md R222). -/
def readsCharacters : Instr → Bool
  | .clear _ => false
  | .colon _ => false
  | .write _ _ => false
  | .encd _ => false
  | .encc _ => true
  | .encs _ => true
  | .hex _ => false
  | .number _ => false
  | .numbers _ _ _ => false
  | .temp _ => true
  | .scroll _ _ => true

/-- The command is WRITE, the only one that tests a position (R94, 60_exceptions.md R221). -/
def testsPosition : Instr → Bool
  | .clear _ => false
  | .colon _ => false
  | .write _ _ => true
  | .encd _ => false
  | .encc _ => false
  | .encs _ => false
  | .hex _ => false
  | .number _ => false
  | .numbers _ _ _ => false
  | .temp _ => false
  | .scroll _ _ => false

/-- A response packet that R94 lists as one the command sends. -/
def responseFits (i : Instr) (r : Packet) : Bool :=
  match r with
  | [] => false
  | st :: payload =>
    (st = 0x00 ∧ okPayloadOf i payload = true) ∨ (st = 0x01 ∧ payload.length = 0 ∧ testsPosition i = true)
      ∨ (st = 0x02 ∧ payload.length = 1 ∧ readsCharacters i = true)
      ∨ (st = 0x03 ∧ payload.length = 1 ∧ isLookup i = false)

/-- FB is canonical and inside its bounds, CUR is at most 258 (10_state.md R21), every frame is a whole buffer
(42_rasterizer.md R146), every response is one of R94. -/
structure Inv (s : State) : Prop where
  canonical : Memory.wf s.fb = true
  bounded : inBounds s.params s.fb = true
  cursor : s.cur.toNat ≤ 258
  frames : ∀ f ∈ framesOf s.out, f.length = fbBytes s.params
  responses : ∀ r ∈ responsesOf s.out, legalResponse r = true

/-- No entry of TABLE has the dot bit (41_segment_table.md R131). -/
def dotClear (p : Params) : Bool := (tableMasks p).all fun m => !m.getLsbD 7

end Sys2Proof.Machine
end

