-- ==== Sys2Proof/Certificates/Slice0/Obligations.lean ====
section
/-! DEFINITION. The statements about the block. `s.ended os r` is `s` after a command that put out `os` and then
the response `r`; `usedXport s n` is `s` with `n` answers of the transport used up (Safety.lean). -/

open Sys2Proof Sys2Proof.Machine

/-! ### Packets -/

/-- Every command a packet can carry is read back from its canonical packet (30_encoding.md R100). -/
def Obligations.DecodeEncodeRoundTrip : Prop :=
  ∀ i : Instr, i.wellFormed = true → decode (encode i) = .ok i

/-- A packet that decodes is the canonical one of its command, but for the byte of an on/off operand (byte 1 of
CLEAR and COLON, byte 9 of NUMBERS), which the canonical packet gives as 0x00 or 0x01 (R84, R87, R100); and
decoding gives only commands a packet can carry. -/
def Obligations.DecodedPacketIsCanonicalButForTruth : Prop :=
  ∀ (p : Packet) (i : Instr), decode p = .ok i →
    i.wellFormed = true ∧ (encode i).length = p.length ∧
    (∀ k, byteAt (encode i) k = byteAt p k ∨
      (byteAt (encode i) k = truthByte (truth (byteAt p k)) ∧
        ((k = 1 ∧ ((∃ v, i = .clear v) ∨ ∃ v, i = .colon v)) ∨ (k = 9 ∧ ∃ a b v, i = .numbers a b v)))) ∧
    ((∀ v, i ≠ .clear v) → (∀ v, i ≠ .colon v) → (∀ a b v, i ≠ .numbers a b v) → encode i = p)

/-- A packet with one of the eleven opcodes and another length than its format's is rejected, and so is the empty
packet (R89; that this is BadCommand is the spec's decision D5). -/
def Obligations.WrongLengthRejected : Prop :=
  decode [] = .error .emptyPacket ∧
  ∀ (op : Byte) (rest : Packet) (o : Opcode), opcodeOf op = some o →
    requiredLength o.format (op :: rest) ≠ some (rest.length + 1) →
    decode (op :: rest) = .error (.wrongLength op (rest.length + 1))

/-- The other 245 opcodes are rejected whatever the length (R90; decision D5). -/
def Obligations.ReservedOpcodesRejected : Prop :=
  ∀ (op : Byte) (rest : Packet),
    op.toNat ∉ [0x01, 0x02, 0x03, 0x10, 0x11, 0x12, 0x20, 0x21, 0x22, 0x23, 0x24] →
    decode (op :: rest) = .error (.reservedOpcode op)

/-- Packets of the spec's test vectors, one for each format and more. -/
def Obligations.SpecPacketsDecode : Prop :=
  decode [0x01, 0x05] = .ok (.clear true) ∧ decode [0x02, 0x00] = .ok (.colon false) ∧
  decode [0x03, 0x01, 0x02, 0x06, 0xDB] = .ok (.write 1 [0x06, 0xDB]) ∧
  decode [0x12, 0x04, 0x31, 0x32, 0x33, 0x34] = .ok (.encs [0x31, 0x32, 0x33, 0x34]) ∧
  decode [0x20, 0xEF, 0xBE] = .ok (.hex 0xBEEF) ∧
  decode [0x21, 0x2E, 0xFB, 0xFF, 0xFF] = .ok (.number (BitVec.ofInt 32 (-1234))) ∧
  decode [0x22, 0xFB, 0xFF, 0xFF, 0xFF, 0x0B, 0x00, 0x00, 0x00, 0x01]
    = .ok (.numbers (BitVec.ofInt 32 (-5)) 11 true) ∧
  decode [0x24, 0xFA, 0x00, 0x02, 0x61, 0x62] = .ok (.scroll 250 [0x61, 0x62])

/-! ### The step -/

/-- An idle block with a packet waiting and no RESET due runs the packet's command: the packet leaves the channel,
the block is busy, and the step is exec of the decoded command (R2, R25, R28). That a RESET to come is one boundary
nearer then, so that it can also come right after the acceptance, is the model's choice (log entry 6). -/
def Obligations.StepRunsDecodedCommand : Prop :=
  ∀ (s : State) (p : Packet) (rest : List Packet) (i : Instr),
    s.seq = .idle → s.cmd = p :: rest → decode p = .ok i →
    (s.resets = [] → step s = exec i { s with cmd := rest, seq := .busy }) ∧
    (∀ (k : Nat) (r : List Nat), s.resets = (k + 1) :: r →
      step s = exec i { s with cmd := rest, seq := .busy, resets := k :: r })

/-- A packet that is no command is answered 0xFF and changes nothing else (R224; decision D5). A RESET that comes
after it is accepted and before its response leaves it without one (R250, decision D41; where the boundaries are is
log entry 6). -/
def Obligations.StepAnswersBadCommand : Prop :=
  ∀ (s : State) (p : Packet) (rest : List Packet) (why : DecodeError),
    s.seq = .idle → s.cmd = p :: rest → decode p = .error why →
    (s.resets = [] → step s = .next { s with cmd := rest, out := s.out ++ [.response [0xFF]] }) ∧
    (∀ r : List Nat, s.resets = 1 :: r →
      step s = .next { s with cmd := rest, fb := [], cur := 0, resets := r }) ∧
    (∀ (k : Nat) (r : List Nat), s.resets = (k + 2) :: r →
      step s = .next { s with cmd := rest, out := s.out ++ [.response [0xFF]], resets := k :: r })

/-- A busy block waits and accepts no packet, and an idle block without a packet waits (R28, decision D23; the
model's choice for the step with nothing to do, log entries 2 and 5). -/
def Obligations.StepWaits : Prop :=
  ∀ s : State, s.resets = [] → (s.seq = .busy ∨ s.cmd = []) → step s = .next s

/-- A RESET that is due: FB all 0x00, CUR 0, idle; the parameters stay (R250, decisions D21 and D41). The model's
choices: that the next step takes it, before a packet that waits, and leaves the packets of CMD alone (log
entry 6); that it ends the wait of a busy block (log entry 5); that the outputs already made stay, also where no
command is in progress (log entry 17). -/
def Obligations.StepTakesReset : Prop :=
  ∀ (s : State) (r : List Nat), s.resets = 0 :: r →
    step s = .next { s with resets := r, fb := [], cur := 0, seq := .idle } ∧
    ∀ a, readByte (applyReset s).fb a = 0x00

/-- After power-on with any parameters: FB all 0x00, CUR 0, idle, the output lists empty (R30, R253). State.reset
has the default parameters of R5 in the WIDE variant, which is the model's choice (log entry 7). -/
def Obligations.ResetStateValues : Prop :=
  (∀ p : Params, (State.resetWith p).params = p ∧ (∀ a, readByte (State.resetWith p).fb a = 0x00) ∧
    (State.resetWith p).cur = 0 ∧ (State.resetWith p).seq = .idle ∧ framesOf (State.resetWith p).out = [] ∧
    delaysOf (State.resetWith p).out = [] ∧ responsesOf (State.resetWith p).out = []) ∧
  State.reset = State.resetWith (defaultParams .wide) ∧
  fbBytes State.reset.params = 504 ∧ State.reset.params.width = 84 ∧ height State.reset.params = 48

/-! ### The pixel primitives -/

/-- HLINE writes the on-screen pixels of its run and nothing else (R142). -/
def Obligations.HlineWritesItsRun : Prop :=
  ∀ (p : Params) (x y len : Int) (v : Bool) (m : List Host.Cell), Memory.wf m = true →
    (∀ x' y' : Nat, x' < p.width → y' < height p →
      getPixel p (hline p x y len v m) x' y'
        = if (y' : Int) = y ∧ x ≤ x' ∧ (x' : Int) ≤ x + len - 1 then v else getPixel p m x' y') ∧
    (∀ a, fbBytes p ≤ a → readByte (hline p x y len v m) a = readByte m a) ∧
    (len ≤ 0 → hline p x y len v m = m)

/-- VLINE writes the on-screen pixels of its run and nothing else (R143). -/
def Obligations.VlineWritesItsRun : Prop :=
  ∀ (p : Params) (x y len : Int) (v : Bool) (m : List Host.Cell), Memory.wf m = true →
    (∀ x' y' : Nat, x' < p.width → y' < height p →
      getPixel p (vline p x y len v m) x' y'
        = if (x' : Int) = x ∧ y ≤ y' ∧ (y' : Int) ≤ y + len - 1 then v else getPixel p m x' y') ∧
    (∀ a, fbBytes p ≤ a → readByte (vline p x y len v m) a = readByte m a) ∧
    (len ≤ 0 → vline p x y len v m = m)

/-- FILL_RECT writes the on-screen pixels of its rectangle and nothing else (R144). -/
def Obligations.FillRectWritesItsRectangle : Prop :=
  ∀ (p : Params) (x y w h : Int) (v : Bool) (m : List Host.Cell), Memory.wf m = true →
    (∀ x' y' : Nat, x' < p.width → y' < height p →
      getPixel p (fillRect p x y w h v m) x' y'
        = if x ≤ x' ∧ (x' : Int) < x + w ∧ y ≤ y' ∧ (y' : Int) < y + h then v else getPixel p m x' y') ∧
    (∀ a, fbBytes p ≤ a → readByte (fillRect p x y w h v m) a = readByte m a) ∧
    ((w ≤ 0 ∨ h ≤ 0) → fillRect p x y w h v m = m)

/-- FILL leaves every byte of FB at 0xFF or 0x00, which is what FILL_RECT over the whole screen leaves (R145). -/
def Obligations.FillWritesWholeBuffer : Prop :=
  ∀ (p : Params) (v : Bool) (m : List Host.Cell), Memory.wf m = true →
    (∀ a, a < fbBytes p → readByte (fill p v m) a = if v then 0xFF else 0x00) ∧
    (∀ a, readByte (fill p v m) a = readByte (fillRect p 0 0 p.width (height p) v m) a)

/-- FILL, FILL_RECT, HLINE and VLINE cannot fail and never call the transport, and what they wrote is there for
the micro-operations that follow (R148). -/
def Obligations.DrawingNeverCallsTransport : Prop :=
  ∀ (o : MicroOp) (s : State), o ≠ .flush → (∀ ms, o ≠ .delay ms) →
    ∃ t : State, perform o s = .running t ∧ t = s.setFb (drawOn s.params o s.fb) ∧ t.out = s.out ∧
      t.xport = s.xport ∧ t.xportDraws = s.xportDraws ∧
      (s.resets = [] → ∀ os, runOps (o :: os) s = runOps os t) ∧
      (∀ ms, (perform (.delay ms) s).state.xport = s.xport)

/-! ### Glyphs -/

/-- Pixel `(x, y)` of the screen is bit `y mod 8` of byte `(y div 8) * W + x` of FB: SetPixel writes this bit and
no other, off the screen it writes nothing, and getPixel reads it (R51, R55, R57, R141). After DrawGlyph every
element pixel of the slot has its mask bit and every other pixel is as it was; a byte with no element pixel is
untouched (R163, R166, R176). Which end of a byte is the top row is the spec's decision D8 (log entry 10), where
the elements are its decision D10 (log entry 9), the clipping D9 (log entry 11). -/
def Obligations.GlyphShowsItsMask : Prop :=
  (∀ (p : Params) (x y : Nat) (v : Bool) (m : List Host.Cell), Memory.wf m = true →
    x < p.width → y < 8 * p.bands →
    getPixel p m x y = (readByte m (y / 8 * p.width + x)).getLsbD (y % 8) ∧
    (∀ k, k < 8 → (readByte (setPixel p x y v m) (y / 8 * p.width + x)).getLsbD k
      = if k = y % 8 then v else (readByte m (y / 8 * p.width + x)).getLsbD k) ∧
    (∀ a, a ≠ y / 8 * p.width + x → readByte (setPixel p x y v m) a = readByte m a)) ∧
  (∀ (p : Params) (x y : Int) (v : Bool) (m : List Host.Cell),
    (x < 0 ∨ (p.width : Int) ≤ x ∨ y < 0 ∨ 8 * (p.bands : Int) ≤ y) → setPixel p x y v m = m) ∧
  ∀ (p : Params) (mask : Byte) (n : Nat) (m : List Host.Cell), Memory.wf m = true →
    (∀ x y, x < p.width → y < height p →
      getPixel p (glyphFb p mask n m) x y
        = match elementAt n x y with | some k => mask.getLsbD k | none => getPixel p m x y) ∧
    (∀ a, (∀ x y, x < p.width → y < height p → elementAt n x y ≠ none → a ≠ pixelIndex p x y) →
      readByte (glyphFb p mask n m) a = readByte m a)

/-- The element sets of one slot, of different slots, and the colon squares are pairwise disjoint (R166; decisions
D10, D11, D12). -/
def Obligations.ElementSetsDisjoint : Prop :=
  (∀ (n n' k k' : Nat) (x y : Int), inElement k (x - slotX n) y = true →
    inElement k' (x - slotX n') y = true → n = n' ∧ k = k') ∧
  (∀ (n x y : Nat), inColon x y = true → elementAt n x y = none)

/-! ### WRITE -/

/-- WRITE with a legal position and every flush accepted: each mask drawn at the next slot with a frame after it,
CUR one past the last slot, Ok, nothing else changed (R167; the empty sequence is decision D16). -/
def Obligations.WriteCompletes : Prop :=
  ∀ (s : State) (pos : Byte) (masks : List Byte),
    pos.toNat ≤ 3 → masks.length ≤ 255 → s.resets = [] → TransportOk s masks.length →
    exec (.write pos masks) s = .next
      ((((usedXport s masks.length).setFb (writtenFb s.params pos.toNat masks s.fb)).setCur
        (BitVec.ofNat 16 (pos.toNat + masks.length))).ended
        (writtenFrames s.params pos.toNat masks s.fb) [0x00])

/-- What drawing masks from a cursor value on leaves: each pixel has the bit of the last mask whose glyph has it,
or is as it was; a byte with no such pixel is untouched (R163, R167, R169; coordinates: decision D10). -/
def Obligations.WrittenPixels : Prop :=
  ∀ (p : Params) (n : Nat) (masks : List Byte) (m : List Host.Cell), Memory.wf m = true →
    (∀ x y, x < p.width → y < height p →
      getPixel p (writtenFb p n masks m) x y = shownPixel x y n masks (getPixel p m x y)) ∧
    (∀ a, (∀ j x y, j < masks.length → x < p.width → y < height p → elementAt (n + j) x y ≠ none →
        a ≠ pixelIndex p x y) → readByte (writtenFb p n masks m) a = readByte m a)

/-- Frame j of drawing masks is the whole buffer as the first j + 1 masks left it (R62, R66, R167). -/
def Obligations.WrittenFramesAreSnapshots : Prop :=
  ∀ (p : Params) (n : Nat) (masks : List Byte) (m : List Host.Cell),
    writtenFrames p n masks m = (List.range masks.length).map fun j =>
      .frame ((List.range (fbBytes p)).map (readByte (writtenFb p n (masks.take (j + 1)) m)))

/-- PositionOutOfRange comes from WRITE, exactly when its position is above 3, and leaves everything else as it
was (R221). -/
def Obligations.PositionOutOfRangeExactly : Prop :=
  ∀ (i : Instr) (s t : State), s.resets = [] → exec i s = .next t →
    ((∃ pos masks, i = .write pos masks ∧ 3 < pos.toNat) ↔ ∃ os, t.out = s.out ++ os ++ [.response [0x01]]
      ∧ responsesOf os = []) ∧
    (∀ pos masks, i = .write pos masks → 3 < pos.toNat → t = s.ended [] [0x01])

/-- WRITE whose flush after mask i fails: that mask is drawn, the later ones are not, CUR is at pos + i, the last
new frame is the one that failed, IoError(e) (R175; decision D20). -/
def Obligations.WriteStopsAtFailingFlush : Prop :=
  ∀ (s : State) (pos : Byte) (masks : List Byte) (i : Nat) (e : Byte),
    pos.toNat ≤ 3 → masks.length ≤ 255 → s.resets = [] → i < masks.length → TransportFails s i e →
    exec (.write pos masks) s = .next
      ((((usedXport s (i + 1)).setFb (writtenFb s.params pos.toNat (masks.take (i + 1)) s.fb)).setCur
        (BitVec.ofNat 16 (pos.toNat + i))).ended
        (writtenFrames s.params pos.toNat (masks.take (i + 1)) s.fb) [0x03, e])

/-- WRITE may run past slot 3: it does not fail, flushes once per mask, and on a screen no wider than 86 columns
the masks past slot 3 change nothing (R165, R168). That slot 4 begins at column 86 is the spec's decision D12 on
R160 (log entry 9), and that pixels off the screen are dropped is its decision D9 (log entry 11). -/
def Obligations.WritePastSlotThree : Prop :=
  ∀ (s : State) (pos : Byte) (masks : List Byte),
    pos.toNat ≤ 3 → masks.length ≤ 255 → s.resets = [] → TransportOk s masks.length → s.params.width ≤ 86 →
    ∃ t, exec (.write pos masks) s = .next t ∧
      t.fb = writtenFb s.params pos.toNat (masks.take (4 - pos.toNat)) s.fb ∧
      t.out = s.out ++ writtenFrames s.params pos.toNat masks s.fb ++ [.response [0x00]] ∧
      (framesOf t.out).length = (framesOf s.out).length + masks.length

/-- WRITE changes only pixels of the slots it draws and never the colon; no command but CLEAR changes a pixel
outside all element sets and the colon squares (R169). -/
def Obligations.WriteLeavesOtherPixels : Prop :=
  (∀ (s t : State) (pos : Byte) (masks : List Byte), s.resets = [] → Memory.wf s.fb = true →
    masks.length ≤ 255 → exec (.write pos masks) s = .next t →
    ∀ x y, x < s.params.width → y < height s.params →
      ((∀ j, j < masks.length → elementAt (pos.toNat + j) x y = none) ∨ inColon x y = true) →
      getPixel s.params t.fb x y = getPixel s.params s.fb x y) ∧
  (∀ (i : Instr) (s t : State), s.resets = [] → Memory.wf s.fb = true → i.wellFormed = true →
    (∀ v, i ≠ .clear v) → exec i s = .next t →
    ∀ x y, x < s.params.width → y < height s.params → inColon x y = false → (∀ n, elementAt n x y = none) →
      getPixel s.params t.fb x y = getPixel s.params s.fb x y)

/-! ### COLON and CLEAR -/

/-- COLON: both squares written, one frame, then Ok, or IoError(e) if its flush fails, and nothing else changed
(R171). -/
def Obligations.ColonCompletes : Prop :=
  ∀ (s : State) (on : Bool), s.resets = [] →
    (xportAt s 0 = .ok → exec (.colon on) s = .next
      (((usedXport s 1).setFb (colonFb s.params on s.fb)).ended
        [.frame (frameOf s.params (colonFb s.params on s.fb))] [0x00])) ∧
    (∀ e, xportAt s 0 = .ioError e → exec (.colon on) s = .next
      (((usedXport s 1).setFb (colonFb s.params on s.fb)).ended
        [.frame (frameOf s.params (colonFb s.params on s.fb))] [0x03, e]))

/-- COLON writes the eight pixels of its two squares and no other; a byte with none of them is untouched (R170,
decision D11). -/
def Obligations.ColonPixels : Prop :=
  ∀ (p : Params) (on : Bool) (m : List Host.Cell), Memory.wf m = true →
    (∀ x y, x < p.width → y < height p →
      getPixel p (colonFb p on m) x y = if inColon x y then on else getPixel p m x y) ∧
    (∀ a, (∀ x y, x < p.width → y < height p → inColon x y = true → a ≠ pixelIndex p x y) →
      readByte (colonFb p on m) a = readByte m a)

/-- CLEAR: every byte of FB at 0xFF or 0x00, one frame of these bytes, then Ok, or IoError(e) if its flush fails,
and nothing else changed (R172). -/
def Obligations.ClearCompletes : Prop :=
  ∀ (s : State) (color : Bool), s.resets = [] → Memory.wf s.fb = true →
    ∃ m : List Host.Cell,
      (∀ a, readByte m a = if a < fbBytes s.params then (if color then 0xFF else 0x00) else readByte s.fb a) ∧
      (xportAt s 0 = .ok → exec (.clear color) s = .next (((usedXport s 1).setFb m).ended
        [.frame (List.replicate (fbBytes s.params) (if color then 0xFF else 0x00))] [0x00])) ∧
      (∀ e, xportAt s 0 = .ioError e → exec (.clear color) s = .next (((usedXport s 1).setFb m).ended
        [.frame (List.replicate (fbBytes s.params) (if color then 0xFF else 0x00))] [0x03, e]))

/-! ### The table and the encode commands -/

/-- The default table in index order in both variants, with the dot bit clear in every entry, and that `TABLE[i]`
of a hexadecimal digit is the entry at that place in either variant and in any table (R120 to R123, R131). All but five of the values are the spec's default from general knowledge (decision D15, log entry 8). -/
def Obligations.TableContents : Prop :=
  tableMasks (defaultParams .wide) =
    [0x3F, 0x06, 0x5B, 0x4F, 0x66, 0x6D, 0x7D, 0x07, 0x7F, 0x6F, 0x77, 0x7C, 0x39, 0x5E, 0x79, 0x71, 0x3D, 0x76,
     0x06, 0x1E, 0x76, 0x38, 0x55, 0x54, 0x3F, 0x73, 0x67, 0x50, 0x6D, 0x78, 0x3E, 0x1C, 0x2A, 0x76, 0x6E, 0x5B,
     0x00, 0x40, 0x63] ∧
  tableMasks (defaultParams .narrow) =
    [0x3F, 0x06, 0x5B, 0x4F, 0x66, 0x6D, 0x7D, 0x07, 0x7F, 0x6F, 0x77, 0x7C, 0x39, 0x5E, 0x79, 0x71, 0x00, 0x40] ∧
  dotClear (defaultParams .wide) = true ∧ dotClear (defaultParams .narrow) = true ∧
  ∀ (p : Params) (i : Nat), i < 16 → (tableMasks p)[i]? = some (tableMask p i)

/-- Which characters are supported and the table index of each: digits from 0, letters from 10 in either case,
then space, dash and star; and that a character's mask is the table's entry at its index (R83, R123, R124; the
code numbers are decision D6, the index numbers D15). -/
def Obligations.SupportedCharacters : Prop :=
  (∀ c : Byte, supported .wide c = true ↔
    (0x30 ≤ c.toNat ∧ c.toNat ≤ 0x39) ∨ (0x61 ≤ c.toNat ∧ c.toNat ≤ 0x7A) ∨ (0x41 ≤ c.toNat ∧ c.toNat ≤ 0x5A) ∨
      c = 0x20 ∨ c = 0x2D ∨ c = 0x2A) ∧
  (∀ c : Byte, supported .narrow c = true ↔
    (0x30 ≤ c.toNat ∧ c.toNat ≤ 0x39) ∨ (0x61 ≤ c.toNat ∧ c.toNat ≤ 0x66) ∨ (0x41 ≤ c.toNat ∧ c.toNat ≤ 0x46) ∨
      c = 0x20 ∨ c = 0x2D) ∧
  (∀ (v : Variant) (c : Byte), 0x41 ≤ c.toNat → c.toNat ≤ 0x5A → charIndex v c = charIndex v (c + 0x20)) ∧
  (∀ (v : Variant) (c : Byte), 0x30 ≤ c.toNat → c.toNat ≤ 0x39 → charIndex v c = some (c.toNat - 0x30)) ∧
  (∀ c : Byte, 0x61 ≤ c.toNat → c.toNat ≤ 0x7A → charIndex .wide c = some (c.toNat - 0x61 + 10)) ∧
  (∀ c : Byte, 0x41 ≤ c.toNat → c.toNat ≤ 0x5A → charIndex .wide c = some (c.toNat - 0x41 + 10)) ∧
  (∀ c : Byte, 0x61 ≤ c.toNat → c.toNat ≤ 0x66 → charIndex .narrow c = some (c.toNat - 0x61 + 10)) ∧
  (∀ c : Byte, 0x41 ≤ c.toNat → c.toNat ≤ 0x46 → charIndex .narrow c = some (c.toNat - 0x41 + 10)) ∧
  charIndex .wide 0x20 = some 36 ∧ charIndex .wide 0x2D = some 37 ∧ charIndex .wide 0x2A = some 38 ∧
  charIndex .narrow 0x20 = some 16 ∧ charIndex .narrow 0x2D = some 17 ∧
  (∀ (p : Params) (c : Byte) (i : Nat), charIndex p.variant c = some i →
    (tableMasks p)[i]? = some (maskOf p c))

/-- ENCD answers the mask of its low nibble and changes nothing else (R125; decision D36 for the ignored bits). -/
def Obligations.EncdCompletes : Prop :=
  ∀ (s : State) (n : Byte), s.resets = [] →
    exec (.encd n) s = .next (s.ended [] [0x00, tableMask s.params (n.toNat % 16)])

/-- ENCC answers the mask of a supported character, or CharacterOutOfRange with the character, and changes nothing
else (R126). -/
def Obligations.EnccCompletes : Prop :=
  ∀ (s : State) (c : Byte), s.resets = [] →
    (supported s.params.variant c = true → exec (.encc c) s = .next (s.ended [] [0x00, maskOf s.params c])) ∧
    (supported s.params.variant c = false → exec (.encc c) s = .next (s.ended [] [0x02, c]))

/-- ENCS in WIDE: as many masks as characters, or the first unsupported character (R127; decisions D17, D18). -/
def Obligations.EncsWideCompletes : Prop :=
  ∀ (s : State) (cs : List Byte), s.params.variant = .wide → s.resets = [] →
    ((∀ c ∈ cs, supported .wide c = true) → exec (.encs cs) s = .next
      (s.ended [] (0x00 :: BitVec.ofNat 8 cs.length :: cs.map (maskOf s.params)))) ∧
    (∀ before c after, cs = before ++ c :: after → (∀ b ∈ before, supported .wide b = true) →
      supported .wide c = false → exec (.encs cs) s = .next (s.ended [] [0x02, c]))

/-- ENCS in NARROW: four masks whatever the length, the missing ones 0x00, the characters from the fifth on
neither read nor checked; or the first unsupported one of the first four (R128; decisions D17, D18). -/
def Obligations.EncsNarrowCompletes : Prop :=
  ∀ (s : State) (cs : List Byte), s.params.variant = .narrow → s.resets = [] →
    ((∀ c ∈ cs.take 4, supported .narrow c = true) → exec (.encs cs) s = .next
      (s.ended [] (0x00 :: 0x04 :: ((cs.take 4).map (maskOf s.params) ++ List.replicate (4 - cs.length) 0x00)))) ∧
    (∀ before c after, cs = before ++ c :: after → before.length < 4 →
      (∀ b ∈ before, supported .narrow b = true) → supported .narrow c = false →
      exec (.encs cs) s = .next (s.ended [] [0x02, c]))

/-- The encode commands are pure lookups: their answer depends on VARIANT and TABLE alone, is never IoError,
nothing but the response changes, and a later command does what it would have done without them (R130). -/
def Obligations.EncodeCommandsArePure : Prop :=
  ∀ (i : Instr) (s : State), isLookup i = true → s.resets = [] →
    ∃ r : Packet, exec i s = .next (s.ended [] r) ∧ (∀ e, r ≠ [0x03, e]) ∧
      (∀ s' : State, s'.resets = [] → s'.params.variant = s.params.variant → s'.params.table = s.params.table →
        exec i s' = .next (s'.ended [] r)) ∧
      (∀ (j : Instr) (u : State), exec j s = .next u →
        ∃ (u' : State) (os : List Output), exec j (s.ended [] r) = .next u' ∧ u'.fb = u.fb ∧ u'.cur = u.cur ∧
          u'.params = u.params ∧ u'.seq = u.seq ∧ u.out = s.out ++ os ∧ u'.out = s.out ++ [.response r] ++ os)

/-! ### The helpers -/

/-- HEX writes the masks of its four nibbles, most significant first, at slots 0 to 3 (R193; decision D29). -/
def Obligations.HexCompletes : Prop :=
  ∀ (s : State) (v : Half), s.resets = [] → TransportOk s 4 →
    exec (.hex v) s = .next
      ((((usedXport s 4).setFb (writtenFb s.params 0
          [tableMask s.params (v.toNat / 4096), tableMask s.params (v.toNat / 256 % 16),
           tableMask s.params (v.toNat / 16 % 16), tableMask s.params (v.toNat % 16)] s.fb)).setCur 4).ended
        (writtenFrames s.params 0
          [tableMask s.params (v.toNat / 4096), tableMask s.params (v.toNat / 256 % 16),
           tableMask s.params (v.toNat / 16 % 16), tableMask s.params (v.toNat % 16)] s.fb) [0x00])

/-- `Dec(u)` for `0 <= u <= 9999` by the spec's recursion (R192). -/
def Obligations.DecimalDigits : Prop :=
  ∀ u : Nat, u ≤ 9999 →
    dec u = if u < 10 then [BitVec.ofNat 8 (0x30 + u)] else dec (u / 10) ++ [BitVec.ofNat 8 (0x30 + u % 10)]

/-- The string of NUMBER: four characters, clamped at -999 and 9999, right aligned with spaces, the sign next to
the digits, all of them supported in both variants (R191, R192, R194; padding and sign are decision D25). -/
def Obligations.NumberStringValue : Prop :=
  ∀ v : Int, (numberString v).length = 4 ∧
    (v ≤ -999 → numberString v = [0x2D, 0x39, 0x39, 0x39]) ∧
    (9999 ≤ v → numberString v = [0x39, 0x39, 0x39, 0x39]) ∧
    (-999 ≤ v → v < 0 → numberString v
      = List.replicate (3 - (dec (-v).toNat).length) 0x20 ++ 0x2D :: dec (-v).toNat) ∧
    (0 ≤ v → v ≤ 9999 → numberString v = List.replicate (4 - (dec v.toNat).length) 0x20 ++ dec v.toNat) ∧
    ∀ c ∈ numberString v, supported .narrow c = true ∧ supported .wide c = true

/-- NUMBER writes the masks of its string at slots 0 to 3 (R194; decision D25). -/
def Obligations.NumberCompletes : Prop :=
  ∀ (s : State) (v : Word), s.resets = [] → TransportOk s 4 →
    exec (.number v) s = .next
      ((((usedXport s 4).setFb (writtenFb s.params 0 ((numberString v.toInt).map (maskOf s.params)) s.fb)).setCur
        4).ended (writtenFrames s.params 0 ((numberString v.toInt).map (maskOf s.params)) s.fb) [0x00])

/-- The two-character fields of NUMBERS and TEMP (R195, R196; decisions D26, D27). -/
def Obligations.TwoCharacterFields : Prop :=
  (∀ a b : Int, numbersString a b = (numbersString a 0).take 2 ++ (numbersString 0 b).drop 2) ∧
  (∀ v w : Int, (numbersString v w).take 2 = (numbersString w v).drop 2 ∧
    (numbersString v w).take 2 =
      if v < 0 then [0x2D, BitVec.ofNat 8 (0x30 + (min (-v) 9).toNat)]
      else [BitVec.ofNat 8 (0x30 + (min v 99).toNat / 10), BitVec.ofNat 8 (0x30 + (min v 99).toNat % 10)]) ∧
  (∀ v : Int, tempString v =
    if v < -9 then [0x6C, 0x6F] else if v > 99 then [0x68, 0x69]
    else if v < 0 then [0x2D, BitVec.ofNat 8 (0x30 + (-v).toNat)]
    else if v < 10 then [0x20, BitVec.ofNat 8 (0x30 + v.toNat)]
    else [BitVec.ofNat 8 (0x30 + v.toNat / 10), BitVec.ofNat 8 (0x30 + v.toNat % 10)])

/-- NUMBERS writes its four characters at slots 0 to 3, then the colon: five frames (R195; decision D26). -/
def Obligations.NumbersCompletes : Prop :=
  ∀ (s : State) (a b : Word) (colon : Bool) (ms : List Byte), s.resets = [] → TransportOk s 5 →
    ms = (numbersString a.toInt b.toInt).map (maskOf s.params) →
    exec (.numbers a b colon) s = .next
      ((((usedXport s 5).setFb (colonFb s.params colon (writtenFb s.params 0 ms s.fb))).setCur 4).ended
        (writtenFrames s.params 0 ms s.fb
          ++ [.frame (frameOf s.params (colonFb s.params colon (writtenFb s.params 0 ms s.fb)))]) [0x00])

/-- TEMP in WIDE, or in NARROW from -9 to 99: the string's masks from slot 0 (two in WIDE, four in NARROW), then
0x63 and 0x39 at slots 2 and 3 (R196, R202; decisions D27, D30). -/
def Obligations.TempCompletes : Prop :=
  ∀ (s : State) (v : Word) (ms : List Byte), s.resets = [] → TransportOk s (ms.length + 2) →
    ((s.params.variant = .wide ∧ ms = (tempString v.toInt).map (maskOf s.params)) ∨
     (s.params.variant = .narrow ∧ -9 ≤ v.toInt ∧ v.toInt ≤ 99 ∧
       ms = (tempString v.toInt).map (maskOf s.params) ++ [0x00, 0x00])) →
    exec (.temp v) s = .next
      ((((usedXport s (ms.length + 2)).setFb
        (writtenFb s.params 2 [0x63, 0x39] (writtenFb s.params 0 ms s.fb))).setCur 4).ended
        (writtenFrames s.params 0 ms s.fb
          ++ writtenFrames s.params 2 [0x63, 0x39] (writtenFb s.params 0 ms s.fb)) [0x00])

/-- TEMP in NARROW below -9 or above 99 fails on 'l' or 'h' before anything is drawn (R202; decision D30). -/
def Obligations.TempFailsInNarrow : Prop :=
  ∀ (s : State) (v : Word), s.params.variant = .narrow → s.resets = [] →
    (v.toInt < -9 → exec (.temp v) s = .next (s.ended [] [0x02, 0x6C])) ∧
    (99 < v.toInt → exec (.temp v) s = .next (s.ended [] [0x02, 0x68]))

/-- The windows of SCROLL: len + 5 of them, window i showing at place j the mask i + j - 4, or a blank outside the
text (R197; the padding is decision D28). -/
def Obligations.ScrollWindowContents : Prop :=
  ∀ ms : List Byte, (scrollWindows ms).length = ms.length + 5 ∧
    ∀ i, i < ms.length + 5 → (scrollWindows ms)[i]? = some ((List.range 4).map fun j =>
      if 4 ≤ i + j ∧ i + j < 4 + ms.length then ms.getD (i + j - 4) 0x00 else 0x00)

/-- SCROLL of a text that encodes: every window written at slot 0, a delay request after each (R197; decision
D28). -/
def Obligations.ScrollCompletes : Prop :=
  ∀ (s : State) (delayMs : Half) (str ms : List Byte), encodeString s.params str = .ok ms → s.resets = [] →
    TransportOk s (4 * (ms.length + 5)) → DelayOk s (ms.length + 5) →
    exec (.scroll delayMs str) s = .next
      ((((usedDly (usedXport s (4 * (ms.length + 5))) (ms.length + 5)).setFb
        (scrolled s.params delayMs (scrollWindows ms) s.fb).1).setCur 4).ended
        (scrolled s.params delayMs (scrollWindows ms) s.fb).2 [0x00])

/-- The outputs of SCROLL before its response: four frames and a delay request per window, each request of the
operand's value (R198). -/
def Obligations.ScrollOutputOrder : Prop :=
  ∀ (p : Params) (delayMs : Half) (ms : List Byte) (m : List Host.Cell),
    (scrolled p delayMs (scrollWindows ms) m).2.map isFrame
      = (List.replicate (ms.length + 5) [true, true, true, true, false]).flatten ∧
    delaysOf (scrolled p delayMs (scrollWindows ms) m).2 = List.replicate (ms.length + 5) delayMs ∧
    responsesOf (scrolled p delayMs (scrollWindows ms) m).2 = []

/-- CharacterOutOfRange comes from ENCC, ENCS, TEMP and SCROLL only, and leaves everything but the response as it
was; SCROLL and ENCS of a string that does not encode answer it (R222, R200). -/
def Obligations.CharacterErrorsBeforeDrawing : Prop :=
  (∀ (i : Instr) (s t : State) (os : List Output) (c : Byte), s.resets = [] → exec i s = .next t →
    t.out = s.out ++ os ++ [.response [0x02, c]] → responsesOf os = [] →
    t = s.ended [] [0x02, c] ∧ supported s.params.variant c = false ∧
      ((∃ d, i = .encc d) ∨ (∃ cs, i = .encs cs) ∨ (∃ v, i = .temp v) ∨ ∃ d cs, i = .scroll d cs)) ∧
  (∀ (s : State) (delayMs : Half) (cs : List Byte) (c : Byte), s.resets = [] →
    encodeString s.params cs = .error c →
    exec (.scroll delayMs cs) s = .next (s.ended [] [0x02, c]) ∧
    exec (.encs cs) s = .next (s.ended [] [0x02, c]))

/-! ### Counting frames -/

/-- Flushes per command when none fails: CLEAR 1, COLON 1, WRITE one per mask (R173). -/
def Obligations.FlushCounts : Prop :=
  ∀ s : State, s.resets = [] →
    (∀ color, TransportOk s 1 → ∃ t, exec (.clear color) s = .next t ∧
      (framesOf t.out).length = (framesOf s.out).length + 1) ∧
    (∀ on, TransportOk s 1 → ∃ t, exec (.colon on) s = .next t ∧
      (framesOf t.out).length = (framesOf s.out).length + 1) ∧
    (∀ (pos : Byte) (masks : List Byte), pos.toNat ≤ 3 → masks.length ≤ 255 → TransportOk s masks.length →
      ∃ t, exec (.write pos masks) s = .next t ∧
        (framesOf t.out).length = (framesOf s.out).length + masks.length)

/-- Flushes per helper when none fails: HEX 4, NUMBER 4, NUMBERS 5, TEMP 4 in WIDE and 6 in NARROW,
SCROLL 4 * (len + 5) (R201; decisions D28, D30). -/
def Obligations.HelperFlushCounts : Prop :=
  ∀ s : State, s.resets = [] →
    (∀ v, TransportOk s 4 → ∃ t, exec (.hex v) s = .next t ∧
      (framesOf t.out).length = (framesOf s.out).length + 4) ∧
    (∀ v, TransportOk s 4 → ∃ t, exec (.number v) s = .next t ∧
      (framesOf t.out).length = (framesOf s.out).length + 4) ∧
    (∀ a b c, TransportOk s 5 → ∃ t, exec (.numbers a b c) s = .next t ∧
      (framesOf t.out).length = (framesOf s.out).length + 5) ∧
    (∀ v : Word, s.params.variant = .wide → TransportOk s 4 → ∃ t, exec (.temp v) s = .next t ∧
      (framesOf t.out).length = (framesOf s.out).length + 4) ∧
    (∀ v : Word, s.params.variant = .narrow → -9 ≤ v.toInt → v.toInt ≤ 99 → TransportOk s 6 →
      ∃ t, exec (.temp v) s = .next t ∧ (framesOf t.out).length = (framesOf s.out).length + 6) ∧
    (∀ d str ms, encodeString s.params str = .ok ms → TransportOk s (4 * (ms.length + 5)) →
      DelayOk s (ms.length + 5) → ∃ t, exec (.scroll d str) s = .next t ∧
      (framesOf t.out).length = (framesOf s.out).length + 4 * (ms.length + 5) ∧
      ms.length = match s.params.variant with | .wide => str.length | .narrow => 4)

/-! ### Rules over all commands -/

/-- A command either ends with BadCommand, PositionOutOfRange or CharacterOutOfRange and has changed nothing, or
it ends with Ok or IoError, or, where the outside never answers, it does not end (R225, 93 U8). -/
def Obligations.ValidateBeforeMutate : Prop :=
  (∀ (i : Instr) (s t : State), s.resets = [] → exec i s = .next t →
    t = s.ended [] [0x01] ∨ (∃ c, t = s.ended [] [0x02, c]) ∨
    (∃ os payload, responsesOf os = [] ∧ t.out = s.out ++ os ++ [.response (0x00 :: payload)] ∧ t.seq = .idle) ∨
    (∃ os e, responsesOf os = [] ∧ t.out = s.out ++ os ++ [.response [0x03, e]] ∧ t.seq = .idle) ∨
    (∃ os, responsesOf os = [] ∧ t.out = s.out ++ os ∧ t.seq = .busy)) ∧
  (∀ (s : State) (p : Packet) (rest : List Packet) (why : DecodeError), s.seq = .idle → s.resets = [] →
    s.cmd = p :: rest → decode p = .error why → step s = .next ((s.accept rest).ended [] [0xFF]))

/-- If the flush after n accepted ones fails, the command makes at most n + 1 flushes, and if it makes the failing
one it ends there: the frame that failed, which is FB as it stays, then IoError(e). No flush is made again
(R223, R229; decision D20). -/
def Obligations.IoErrorEndsCommand : Prop :=
  ∀ (i : Instr) (s t : State) (n : Nat) (e : Byte), s.resets = [] → TransportFails s n e → exec i s = .next t →
    ∃ os, t.out = s.out ++ os ∧ (framesOf os).length ≤ n + 1 ∧
      ((framesOf os).length = n + 1 → ∃ before, os = before ++ [.frame (frameOf t.params t.fb), .response [0x03, e]]) ∧
      ((framesOf os).length ≤ n → ∀ e', Output.response [0x03, e'] ∉ os)

/-- Every command, RESETs or not: it sends exactly one response, its last output and one that R94 gives the
command, and is idle; or a RESET abandoned it, with no response, FB all 0x00 and CUR 0, the outputs kept; or it
waits for ever, busy, with no response (R94, R227, R250; decision D41, 93 U8; log entry 5). And a RESET does
abandon it: one that comes at the boundary before micro-operation `k`, or before the response where `k` is the
number of micro-operations, leaves FB all 0x00, CUR 0, idle, no response, the frames and delay requests of the
first `k` micro-operations, and the later RESETs (R250, decision D41; where the boundaries are is log entry 6). -/
def Obligations.EveryCommandEndsOneWay : Prop :=
  (∀ (i : Instr) (s t : State), exec i s = .next t →
    ∃ os, responsesOf os = [] ∧
      ((∃ r, (i.wellFormed = true → responseFits i r = true) ∧ t.out = s.out ++ os ++ [.response r] ∧
        t.seq = .idle) ∨
       (t.out = s.out ++ os ∧ t.seq = .idle ∧ t.fb = [] ∧ t.cur = 0 ∧ t.resets.length < s.resets.length) ∨
       (t.out = s.out ++ os ∧ t.seq = .busy))) ∧
  (∀ (i : Instr) (s : State) (k : Nat) (r : List Nat) (done : List MicroOp), i.wellFormed = true →
    s.resets = k :: r → k ≤ (script s.params i).length → done = (script s.params i).take k →
    TransportOk s (flushCount done) → DelayOk s (delayCount done) →
    exec i s = .next { usedDly (usedXport s (flushCount done)) (delayCount done) with
      fb := [], cur := 0, seq := .idle, resets := r, out := s.out ++ outputsOf s.params done s.fb })

/-- The invariant holds at power-on with any parameters, State.reset among them (R30). -/
def Obligations.InvariantAtReset : Prop :=
  (∀ p : Params, Inv (State.resetWith p)) ∧ Inv State.reset

/-- Every step keeps the invariant: FB canonical and inside its bounds, CUR at most 258, every frame a whole
buffer, every response of a form R94 lists (R20, R21, R57, R94, R146). -/
def Obligations.InvariantKept : Prop :=
  ∀ s t : State, Inv s → step s = .next t → Inv t

/-- No step changes VARIANT, W, H or TABLE, and no step takes an output back (R22, R23, R30, R34). That a RESET
takes none back either is decision D41 for a command in progress, and otherwise the model's choice (log
entry 17). -/
def Obligations.ParamsAndOutputsKept : Prop :=
  ∀ s t : State, step s = .next t → t.params = s.params ∧ ∃ os, t.out = s.out ++ os

/-- No step faults or refuses, in any state: the errors of a command are responses (R91, R220). That a step with
nothing to do is a next state, and that a block whose outside never answers (93 U8, stuck) waits in a next state
and does not stop, are the model's choices (log entries 2 and 5); so is the step that takes a RESET (log entry
6). -/
def Obligations.StepNeverStops : Prop :=
  ∀ s : State, ∃ t, step s = .next t

/-- What a command does depends on FB, the parameters and what the outside does, and on nothing else an earlier
command left: not on CUR, not on an earlier error or output (R21, R26, R228). -/
def Obligations.EarlierCommandsLeaveOnlyFb : Prop :=
  ∀ (i : Instr) (s s' t t' : State), s.params = s'.params → s.fb = s'.fb → s.xport = s'.xport →
    s.xportDraws = s'.xportDraws → s.dly = s'.dly → s.dlyDraws = s'.dlyDraws → s.resets = s'.resets →
    exec i s = .next t → exec i s' = .next t' →
    t.fb = t'.fb ∧ t.seq = t'.seq ∧ (t.cur = t'.cur ∨ (t.cur = s.cur ∧ t'.cur = s'.cur)) ∧
    ∃ os, t.out = s.out ++ os ∧ t'.out = s'.out ++ os

/-- WRITE, COLON and CLEAR do the same with any variant and any table (R23, R178). -/
def Obligations.VariantDoesNotTouchCompositor : Prop :=
  ∀ (i : Instr) (s t : State) (v : Variant) (tb : Table),
    ((∃ c, i = .clear c) ∨ (∃ c, i = .colon c) ∨ ∃ pos masks, i = .write pos masks) →
    exec i s = .next t → exec i (s.withTable v tb) = .next (t.withTable v tb)

/-- What FB shows after any command that ended Ok is the picture of the last CLEAR, the last mask of each slot and
the last COLON since (R177), on a screen no wider than 86 columns, where nothing past slot 3 shows. The coordinates
are the spec's decisions D10, D11 and, for slot 4 at column 86, D12 (log entry 9). -/
def Obligations.PictureFollowsCommands : Prop :=
  ∀ (i : Instr) (s t : State) (q : Picture) (os : List Output) (payload : List Byte),
    i.wellFormed = true → s.resets = [] → Memory.wf s.fb = true → s.params.width ≤ 86 →
    exec i s = .next t → t.out = s.out ++ os ++ [.response (0x00 :: payload)] → responsesOf os = [] →
    Shows s.params s.fb q → Shows t.params t.fb (q.after s.params i)

/-- After a command that handed over frames, the last one is FB as it now is, whether its flush was accepted or
not (R62, R146, R252). -/
def Obligations.LastFrameShowsBuffer : Prop :=
  ∀ (i : Instr) (s t : State) (os : List Output), s.resets = [] → exec i s = .next t → t.out = s.out ++ os →
    framesOf os ≠ [] → (framesOf os).getLast? = some (frameOf t.params t.fb)

/-! ### Assembler text -/

/-- The assembler reads every command back from the pieces of its canonical line, and the default arguments are
those of R99 (R98, R99, R100; decisions D26, D37). -/
def Obligations.AssemblerReadsItsTokens : Prop :=
  (∀ i : Instr, i.wellFormed = true → parseTokens (toTokens i) = some i) ∧
  parseTokens [.word (nameOf .clear)] = some (.clear false) ∧
  (∀ ms : List Byte, ms.length ≤ 255 →
    parseTokens (.word (nameOf .write) :: .open :: (maskTokens ms ++ [.close])) = some (.write 0 ms)) ∧
  (∀ a b : Word, parseTokens [.word (nameOf .numbers), .int a.toInt, .comma, .int b.toInt]
    = some (.numbers a b true))
end

