-- ==== Sys2Proof/Laws/State.lean ====
section
/-! SUPPORT. One lemma per field per update of the state, so that no proof unfolds a record update. -/

namespace Sys2Proof.Machine

/-! ### State.setFb -/

@[simp] theorem State.setFb_params (s : State) (m : List Host.Cell) : (s.setFb m).params = s.params := rfl

@[simp] theorem State.setFb_fb (s : State) (m : List Host.Cell) : (s.setFb m).fb = m := rfl

@[simp] theorem State.setFb_cur (s : State) (m : List Host.Cell) : (s.setFb m).cur = s.cur := rfl

@[simp] theorem State.setFb_seq (s : State) (m : List Host.Cell) : (s.setFb m).seq = s.seq := rfl

@[simp] theorem State.setFb_cmd (s : State) (m : List Host.Cell) : (s.setFb m).cmd = s.cmd := rfl

@[simp] theorem State.setFb_out (s : State) (m : List Host.Cell) : (s.setFb m).out = s.out := rfl

@[simp] theorem State.setFb_xport (s : State) (m : List Host.Cell) : (s.setFb m).xport = s.xport := rfl

@[simp] theorem State.setFb_xportDraws (s : State) (m : List Host.Cell) : (s.setFb m).xportDraws = s.xportDraws := rfl

@[simp] theorem State.setFb_dly (s : State) (m : List Host.Cell) : (s.setFb m).dly = s.dly := rfl

@[simp] theorem State.setFb_dlyDraws (s : State) (m : List Host.Cell) : (s.setFb m).dlyDraws = s.dlyDraws := rfl

@[simp] theorem State.setFb_resets (s : State) (m : List Host.Cell) : (s.setFb m).resets = s.resets := rfl

/-! ### State.setCur -/

@[simp] theorem State.setCur_params (s : State) (c : Half) : (s.setCur c).params = s.params := rfl

@[simp] theorem State.setCur_fb (s : State) (c : Half) : (s.setCur c).fb = s.fb := rfl

@[simp] theorem State.setCur_cur (s : State) (c : Half) : (s.setCur c).cur = c := rfl

@[simp] theorem State.setCur_seq (s : State) (c : Half) : (s.setCur c).seq = s.seq := rfl

@[simp] theorem State.setCur_cmd (s : State) (c : Half) : (s.setCur c).cmd = s.cmd := rfl

@[simp] theorem State.setCur_out (s : State) (c : Half) : (s.setCur c).out = s.out := rfl

@[simp] theorem State.setCur_xport (s : State) (c : Half) : (s.setCur c).xport = s.xport := rfl

@[simp] theorem State.setCur_xportDraws (s : State) (c : Half) : (s.setCur c).xportDraws = s.xportDraws := rfl

@[simp] theorem State.setCur_dly (s : State) (c : Half) : (s.setCur c).dly = s.dly := rfl

@[simp] theorem State.setCur_dlyDraws (s : State) (c : Half) : (s.setCur c).dlyDraws = s.dlyDraws := rfl

@[simp] theorem State.setCur_resets (s : State) (c : Half) : (s.setCur c).resets = s.resets := rfl

/-! ### State.setSeq -/

@[simp] theorem State.setSeq_params (s : State) (q : Sequencer) : (s.setSeq q).params = s.params := rfl

@[simp] theorem State.setSeq_fb (s : State) (q : Sequencer) : (s.setSeq q).fb = s.fb := rfl

@[simp] theorem State.setSeq_cur (s : State) (q : Sequencer) : (s.setSeq q).cur = s.cur := rfl

@[simp] theorem State.setSeq_seq (s : State) (q : Sequencer) : (s.setSeq q).seq = q := rfl

@[simp] theorem State.setSeq_cmd (s : State) (q : Sequencer) : (s.setSeq q).cmd = s.cmd := rfl

@[simp] theorem State.setSeq_out (s : State) (q : Sequencer) : (s.setSeq q).out = s.out := rfl

@[simp] theorem State.setSeq_xport (s : State) (q : Sequencer) : (s.setSeq q).xport = s.xport := rfl

@[simp] theorem State.setSeq_xportDraws (s : State) (q : Sequencer) : (s.setSeq q).xportDraws = s.xportDraws := rfl

@[simp] theorem State.setSeq_dly (s : State) (q : Sequencer) : (s.setSeq q).dly = s.dly := rfl

@[simp] theorem State.setSeq_dlyDraws (s : State) (q : Sequencer) : (s.setSeq q).dlyDraws = s.dlyDraws := rfl

@[simp] theorem State.setSeq_resets (s : State) (q : Sequencer) : (s.setSeq q).resets = s.resets := rfl

/-! ### State.setResets -/

@[simp] theorem State.setResets_params (s : State) (r : List Nat) : (s.setResets r).params = s.params := rfl

@[simp] theorem State.setResets_fb (s : State) (r : List Nat) : (s.setResets r).fb = s.fb := rfl

@[simp] theorem State.setResets_cur (s : State) (r : List Nat) : (s.setResets r).cur = s.cur := rfl

@[simp] theorem State.setResets_seq (s : State) (r : List Nat) : (s.setResets r).seq = s.seq := rfl

@[simp] theorem State.setResets_cmd (s : State) (r : List Nat) : (s.setResets r).cmd = s.cmd := rfl

@[simp] theorem State.setResets_out (s : State) (r : List Nat) : (s.setResets r).out = s.out := rfl

@[simp] theorem State.setResets_xport (s : State) (r : List Nat) : (s.setResets r).xport = s.xport := rfl

@[simp] theorem State.setResets_xportDraws (s : State) (r : List Nat) : (s.setResets r).xportDraws = s.xportDraws := rfl

@[simp] theorem State.setResets_dly (s : State) (r : List Nat) : (s.setResets r).dly = s.dly := rfl

@[simp] theorem State.setResets_dlyDraws (s : State) (r : List Nat) : (s.setResets r).dlyDraws = s.dlyDraws := rfl

@[simp] theorem State.setResets_resets (s : State) (r : List Nat) : (s.setResets r).resets = r := rfl

/-! ### State.emit -/

@[simp] theorem State.emit_params (s : State) (o : Output) : (s.emit o).params = s.params := rfl

@[simp] theorem State.emit_fb (s : State) (o : Output) : (s.emit o).fb = s.fb := rfl

@[simp] theorem State.emit_cur (s : State) (o : Output) : (s.emit o).cur = s.cur := rfl

@[simp] theorem State.emit_seq (s : State) (o : Output) : (s.emit o).seq = s.seq := rfl

@[simp] theorem State.emit_cmd (s : State) (o : Output) : (s.emit o).cmd = s.cmd := rfl

@[simp] theorem State.emit_out (s : State) (o : Output) : (s.emit o).out = s.out ++ [o] := rfl

@[simp] theorem State.emit_xport (s : State) (o : Output) : (s.emit o).xport = s.xport := rfl

@[simp] theorem State.emit_xportDraws (s : State) (o : Output) : (s.emit o).xportDraws = s.xportDraws := rfl

@[simp] theorem State.emit_dly (s : State) (o : Output) : (s.emit o).dly = s.dly := rfl

@[simp] theorem State.emit_dlyDraws (s : State) (o : Output) : (s.emit o).dlyDraws = s.dlyDraws := rfl

@[simp] theorem State.emit_resets (s : State) (o : Output) : (s.emit o).resets = s.resets := rfl

/-! ### State.accept -/

@[simp] theorem State.accept_params (s : State) (r : List Packet) : (s.accept r).params = s.params := rfl

@[simp] theorem State.accept_fb (s : State) (r : List Packet) : (s.accept r).fb = s.fb := rfl

@[simp] theorem State.accept_cur (s : State) (r : List Packet) : (s.accept r).cur = s.cur := rfl

@[simp] theorem State.accept_seq (s : State) (r : List Packet) : (s.accept r).seq = .busy := rfl

@[simp] theorem State.accept_cmd (s : State) (r : List Packet) : (s.accept r).cmd = r := rfl

@[simp] theorem State.accept_out (s : State) (r : List Packet) : (s.accept r).out = s.out := rfl

@[simp] theorem State.accept_xport (s : State) (r : List Packet) : (s.accept r).xport = s.xport := rfl

@[simp] theorem State.accept_xportDraws (s : State) (r : List Packet) : (s.accept r).xportDraws = s.xportDraws := rfl

@[simp] theorem State.accept_dly (s : State) (r : List Packet) : (s.accept r).dly = s.dly := rfl

@[simp] theorem State.accept_dlyDraws (s : State) (r : List Packet) : (s.accept r).dlyDraws = s.dlyDraws := rfl

@[simp] theorem State.accept_resets (s : State) (r : List Packet) : (s.accept r).resets = passBoundary s.resets := rfl

@[simp] theorem passBoundary_nil : passBoundary [] = [] := rfl

@[simp] theorem passBoundary_succ (k : Nat) (r : List Nat) : passBoundary ((k + 1) :: r) = k :: r := rfl

/-! ### applyReset -/

@[simp] theorem applyReset_params (s : State) : (applyReset s).params = s.params := rfl

@[simp] theorem applyReset_fb (s : State) : (applyReset s).fb = [] := rfl

@[simp] theorem applyReset_cur (s : State) : (applyReset s).cur = 0 := rfl

@[simp] theorem applyReset_seq (s : State) : (applyReset s).seq = .idle := rfl

@[simp] theorem applyReset_cmd (s : State) : (applyReset s).cmd = s.cmd := rfl

@[simp] theorem applyReset_out (s : State) : (applyReset s).out = s.out := rfl

@[simp] theorem applyReset_xport (s : State) : (applyReset s).xport = s.xport := rfl

@[simp] theorem applyReset_xportDraws (s : State) : (applyReset s).xportDraws = s.xportDraws := rfl

@[simp] theorem applyReset_dly (s : State) : (applyReset s).dly = s.dly := rfl

@[simp] theorem applyReset_dlyDraws (s : State) : (applyReset s).dlyDraws = s.dlyDraws := rfl

@[simp] theorem applyReset_resets (s : State) : (applyReset s).resets = s.resets := rfl

/-! ### State.xportNext -/

@[simp] theorem State.xportNext_params (s : State) : s.xportNext.params = s.params := by
  unfold State.xportNext; split <;> rfl

@[simp] theorem State.xportNext_fb (s : State) : s.xportNext.fb = s.fb := by
  unfold State.xportNext; split <;> rfl

@[simp] theorem State.xportNext_cur (s : State) : s.xportNext.cur = s.cur := by
  unfold State.xportNext; split <;> rfl

@[simp] theorem State.xportNext_seq (s : State) : s.xportNext.seq = s.seq := by
  unfold State.xportNext; split <;> rfl

@[simp] theorem State.xportNext_cmd (s : State) : s.xportNext.cmd = s.cmd := by
  unfold State.xportNext; split <;> rfl

@[simp] theorem State.xportNext_out (s : State) : s.xportNext.out = s.out := by
  unfold State.xportNext; split <;> rfl

@[simp] theorem State.xportNext_dly (s : State) : s.xportNext.dly = s.dly := by
  unfold State.xportNext; split <;> rfl

@[simp] theorem State.xportNext_dlyDraws (s : State) : s.xportNext.dlyDraws = s.dlyDraws := by
  unfold State.xportNext; split <;> rfl

@[simp] theorem State.xportNext_resets (s : State) : s.xportNext.resets = s.resets := by
  unfold State.xportNext; split <;> rfl

/-! ### State.dlyNext -/

@[simp] theorem State.dlyNext_params (s : State) : s.dlyNext.params = s.params := by
  unfold State.dlyNext; split <;> rfl

@[simp] theorem State.dlyNext_fb (s : State) : s.dlyNext.fb = s.fb := by
  unfold State.dlyNext; split <;> rfl

@[simp] theorem State.dlyNext_cur (s : State) : s.dlyNext.cur = s.cur := by
  unfold State.dlyNext; split <;> rfl

@[simp] theorem State.dlyNext_seq (s : State) : s.dlyNext.seq = s.seq := by
  unfold State.dlyNext; split <;> rfl

@[simp] theorem State.dlyNext_cmd (s : State) : s.dlyNext.cmd = s.cmd := by
  unfold State.dlyNext; split <;> rfl

@[simp] theorem State.dlyNext_out (s : State) : s.dlyNext.out = s.out := by
  unfold State.dlyNext; split <;> rfl

@[simp] theorem State.dlyNext_xport (s : State) : s.dlyNext.xport = s.xport := by
  unfold State.dlyNext; split <;> rfl

@[simp] theorem State.dlyNext_xportDraws (s : State) : s.dlyNext.xportDraws = s.xportDraws := by
  unfold State.dlyNext; split <;> rfl

@[simp] theorem State.dlyNext_resets (s : State) : s.dlyNext.resets = s.resets := by
  unfold State.dlyNext; split <;> rfl

/-! ### usedXport -/

@[simp] theorem usedXport_params (s : State) (n : Nat) : (usedXport s n).params = s.params := rfl

@[simp] theorem usedXport_fb (s : State) (n : Nat) : (usedXport s n).fb = s.fb := rfl

@[simp] theorem usedXport_cur (s : State) (n : Nat) : (usedXport s n).cur = s.cur := rfl

@[simp] theorem usedXport_seq (s : State) (n : Nat) : (usedXport s n).seq = s.seq := rfl

@[simp] theorem usedXport_cmd (s : State) (n : Nat) : (usedXport s n).cmd = s.cmd := rfl

@[simp] theorem usedXport_out (s : State) (n : Nat) : (usedXport s n).out = s.out := rfl

@[simp] theorem usedXport_xport (s : State) (n : Nat) : (usedXport s n).xport = s.xport.drop n := rfl

@[simp] theorem usedXport_xportDraws (s : State) (n : Nat) : (usedXport s n).xportDraws = s.xportDraws + (n - s.xport.length) := rfl

@[simp] theorem usedXport_dly (s : State) (n : Nat) : (usedXport s n).dly = s.dly := rfl

@[simp] theorem usedXport_dlyDraws (s : State) (n : Nat) : (usedXport s n).dlyDraws = s.dlyDraws := rfl

@[simp] theorem usedXport_resets (s : State) (n : Nat) : (usedXport s n).resets = s.resets := rfl

/-! ### usedDly -/

@[simp] theorem usedDly_params (s : State) (n : Nat) : (usedDly s n).params = s.params := rfl

@[simp] theorem usedDly_fb (s : State) (n : Nat) : (usedDly s n).fb = s.fb := rfl

@[simp] theorem usedDly_cur (s : State) (n : Nat) : (usedDly s n).cur = s.cur := rfl

@[simp] theorem usedDly_seq (s : State) (n : Nat) : (usedDly s n).seq = s.seq := rfl

@[simp] theorem usedDly_cmd (s : State) (n : Nat) : (usedDly s n).cmd = s.cmd := rfl

@[simp] theorem usedDly_out (s : State) (n : Nat) : (usedDly s n).out = s.out := rfl

@[simp] theorem usedDly_xport (s : State) (n : Nat) : (usedDly s n).xport = s.xport := rfl

@[simp] theorem usedDly_xportDraws (s : State) (n : Nat) : (usedDly s n).xportDraws = s.xportDraws := rfl

@[simp] theorem usedDly_dly (s : State) (n : Nat) : (usedDly s n).dly = s.dly.drop n := rfl

@[simp] theorem usedDly_dlyDraws (s : State) (n : Nat) : (usedDly s n).dlyDraws = s.dlyDraws + (n - s.dly.length) := rfl

@[simp] theorem usedDly_resets (s : State) (n : Nat) : (usedDly s n).resets = s.resets := rfl

/-! ### State.emits -/

@[simp] theorem State.emits_params (s : State) (os : List Output) : (s.emits os).params = s.params := rfl

@[simp] theorem State.emits_fb (s : State) (os : List Output) : (s.emits os).fb = s.fb := rfl

@[simp] theorem State.emits_cur (s : State) (os : List Output) : (s.emits os).cur = s.cur := rfl

@[simp] theorem State.emits_seq (s : State) (os : List Output) : (s.emits os).seq = s.seq := rfl

@[simp] theorem State.emits_cmd (s : State) (os : List Output) : (s.emits os).cmd = s.cmd := rfl

@[simp] theorem State.emits_out (s : State) (os : List Output) : (s.emits os).out = s.out ++ os := rfl

@[simp] theorem State.emits_xport (s : State) (os : List Output) : (s.emits os).xport = s.xport := rfl

@[simp] theorem State.emits_xportDraws (s : State) (os : List Output) : (s.emits os).xportDraws = s.xportDraws := rfl

@[simp] theorem State.emits_dly (s : State) (os : List Output) : (s.emits os).dly = s.dly := rfl

@[simp] theorem State.emits_dlyDraws (s : State) (os : List Output) : (s.emits os).dlyDraws = s.dlyDraws := rfl

@[simp] theorem State.emits_resets (s : State) (os : List Output) : (s.emits os).resets = s.resets := rfl

theorem State.emit_eq (s : State) (o : Output) : s.emit o = s.emits [o] := rfl

/-! ### State.ended -/

@[simp] theorem State.ended_params (s : State) (os : List Output) (r : Packet) : (s.ended os r).params = s.params := rfl

@[simp] theorem State.ended_fb (s : State) (os : List Output) (r : Packet) : (s.ended os r).fb = s.fb := rfl

@[simp] theorem State.ended_cur (s : State) (os : List Output) (r : Packet) : (s.ended os r).cur = s.cur := rfl

@[simp] theorem State.ended_seq (s : State) (os : List Output) (r : Packet) : (s.ended os r).seq = .idle := rfl

@[simp] theorem State.ended_cmd (s : State) (os : List Output) (r : Packet) : (s.ended os r).cmd = s.cmd := rfl

@[simp] theorem State.ended_out (s : State) (os : List Output) (r : Packet) : (s.ended os r).out = s.out ++ (os ++ [.response r]) := rfl

@[simp] theorem State.ended_xport (s : State) (os : List Output) (r : Packet) : (s.ended os r).xport = s.xport := rfl

@[simp] theorem State.ended_xportDraws (s : State) (os : List Output) (r : Packet) : (s.ended os r).xportDraws = s.xportDraws := rfl

@[simp] theorem State.ended_dly (s : State) (os : List Output) (r : Packet) : (s.ended os r).dly = s.dly := rfl

@[simp] theorem State.ended_dlyDraws (s : State) (os : List Output) (r : Packet) : (s.ended os r).dlyDraws = s.dlyDraws := rfl

@[simp] theorem State.ended_resets (s : State) (os : List Output) (r : Packet) : (s.ended os r).resets = s.resets := rfl

/-! ### The state after reset -/

@[simp] theorem State.resetWith_params (p : Params) : (State.resetWith p).params = p := rfl

@[simp] theorem State.resetWith_fb (p : Params) : (State.resetWith p).fb = [] := rfl

@[simp] theorem State.resetWith_cur (p : Params) : (State.resetWith p).cur = 0 := rfl

@[simp] theorem State.resetWith_seq (p : Params) : (State.resetWith p).seq = .idle := rfl

@[simp] theorem State.resetWith_cmd (p : Params) : (State.resetWith p).cmd = [] := rfl

@[simp] theorem State.resetWith_out (p : Params) : (State.resetWith p).out = [] := rfl

@[simp] theorem State.resetWith_xport (p : Params) : (State.resetWith p).xport = [] := rfl

@[simp] theorem State.resetWith_xportDraws (p : Params) : (State.resetWith p).xportDraws = 0 := rfl

@[simp] theorem State.resetWith_dly (p : Params) : (State.resetWith p).dly = [] := rfl

@[simp] theorem State.resetWith_dlyDraws (p : Params) : (State.resetWith p).dlyDraws = 0 := rfl

@[simp] theorem State.resetWith_resets (p : Params) : (State.resetWith p).resets = [] := rfl

end Sys2Proof.Machine
end

