-- ==== Sys2Proof/Laws/Memory.lean ====
section
/-! SUPPORT. FB as memory: the canonical form is kept by every operation, a read sees the last write to its
byte, and a pixel primitive changes exactly its on-screen pixels (20_memory.md, 42_rasterizer.md R149). -/

namespace Sys2Proof.Machine

/-! ### Bytes -/

theorem canonicalAbove_mono {lo lo' : Nat} {m : List Host.Cell} (h : canonicalAbove lo m = true)
    (hle : lo' ≤ lo) : canonicalAbove lo' m = true := by
  cases m with
  | nil => rfl
  | cons c r => simp only [canonicalAbove, decide_eq_true_eq] at h ⊢; exact ⟨by omega, h.2⟩

theorem canonicalAbove_consCell {lo a : Nat} {b : Byte} {m : List Host.Cell}
    (h : canonicalAbove (a + 1) m = true) (hle : lo ≤ a) : canonicalAbove lo (consCell a b m) = true := by
  unfold consCell
  split
  · exact canonicalAbove_mono h (by omega)
  · simp only [canonicalAbove, decide_eq_true_eq]; exact ⟨hle, by assumption, h⟩

theorem canonicalAbove_writeByte {lo : Nat} {m : List Host.Cell} (a : Nat) (b : Byte)
    (h : canonicalAbove lo m = true) (hle : lo ≤ a) : canonicalAbove lo (writeByte m a b) = true := by
  induction m generalizing lo with
  | nil => exact canonicalAbove_consCell rfl hle
  | cons c r ih =>
    obtain ⟨k, d⟩ := c
    simp only [canonicalAbove, decide_eq_true_eq] at h
    simp only [writeByte]
    split
    · next e => subst e; exact canonicalAbove_consCell h.2.2 hle
    · split
      · refine canonicalAbove_consCell ?_ hle
        simp only [canonicalAbove, decide_eq_true_eq]; exact ⟨by omega, h.2⟩
      · simp only [canonicalAbove, decide_eq_true_eq]; exact ⟨h.1, h.2.1, ih h.2.2 (by omega)⟩

/-- Every byte write keeps the canonical form. -/
theorem writeByte_wf {m : List Host.Cell} (a : Nat) (b : Byte) (h : Memory.wf m = true) :
    Memory.wf (writeByte m a b) = true := canonicalAbove_writeByte a b h (Nat.zero_le _)

theorem readByte_of_canonicalAbove {lo a : Nat} {m : List Host.Cell} (h : canonicalAbove lo m = true)
    (hlt : a < lo) : readByte m a = unlisted := by
  cases m with
  | nil => rfl
  | cons c r =>
    simp only [canonicalAbove, decide_eq_true_eq] at h
    simp only [readByte]
    rw [if_neg (by omega), if_pos (by omega)]

theorem readByte_consCell {a : Nat} {b : Byte} {m : List Host.Cell} (h : canonicalAbove (a + 1) m = true)
    (x : Nat) : readByte (consCell a b m) x = if x = a then b else readByte m x := by
  unfold consCell
  split
  · next e =>
    split
    · next ex => rw [ex, readByte_of_canonicalAbove h (by omega), e]
    · rfl
  · simp only [readByte]
    split
    · rfl
    · split
      · exact (readByte_of_canonicalAbove h (by omega)).symm
      · rfl

/-- A read after a write: the written byte at its address, every other byte as before. -/
theorem readByte_writeByte {lo : Nat} {m : List Host.Cell} (h : canonicalAbove lo m = true)
    (a : Nat) (b : Byte) (x : Nat) :
    readByte (writeByte m a b) x = if x = a then b else readByte m x := by
  induction m generalizing lo with
  | nil => exact readByte_consCell rfl x
  | cons c r ih =>
    obtain ⟨k, d⟩ := c
    simp only [canonicalAbove, decide_eq_true_eq] at h
    simp only [writeByte]
    split
    · next e =>
      subst e
      rw [readByte_consCell h.2.2]
      split
      · rfl
      · simp only [readByte]
        rw [if_neg (by assumption)]
        split
        · exact readByte_of_canonicalAbove h.2.2 (by omega)
        · rfl
    · split
      · rw [readByte_consCell (by simp only [canonicalAbove, decide_eq_true_eq]; exact ⟨by omega, h.2⟩)]
      · simp only [readByte]
        rw [ih h.2.2]
        split <;> split <;> first | rfl | omega | (split <;> first | rfl | omega)

theorem mem_writeByte {m : List Host.Cell} {a : Nat} {b : Byte} {c : Host.Cell}
    (h : c ∈ writeByte m a b) : c.1 = a ∨ c ∈ m := by
  induction m with
  | nil =>
    simp only [writeByte, consCell] at h
    split at h
    · simp at h
    · simp at h; simp [h]
  | cons d r ih =>
    obtain ⟨k, e⟩ := d
    simp only [writeByte, consCell] at h
    split at h
    · split at h
      · right; simp [h]
      · rcases List.mem_cons.mp h with h | h
        · simp [h]
        · right; simp [h]
    · split at h
      · split at h
        · right; exact h
        · rcases List.mem_cons.mp h with h | h
          · simp [h]
          · right; exact h
      · rcases List.mem_cons.mp h with h | h
        · right; simp [h]
        · rcases ih h with h | h
          · exact .inl h
          · right; simp [h]

theorem inBounds_writeByte {p : Params} {m : List Host.Cell} (a : Nat) (b : Byte)
    (h : inBounds p m = true) (ha : a < fbBytes p) : inBounds p (writeByte m a b) = true := by
  simp only [inBounds, List.all_eq_true, decide_eq_true_eq] at h ⊢
  intro c hc
  rcases mem_writeByte hc with e | hc
  · omega
  · exact h c hc

/-! ### Pixels -/

theorem onScreen_iff {p : Params} {x y : Int} :
    onScreen p x y = true ↔ 0 ≤ x ∧ x < p.width ∧ 0 ≤ y ∧ y < height p := by
  simp [onScreen]

/-- No pixel on the screen has an index outside FB (20_memory.md R57). -/
theorem pixelIndex_lt {p : Params} {x y : Nat} (hx : x < p.width) (hy : y < height p) :
    pixelIndex p x y < fbBytes p := by
  unfold pixelIndex fbBytes
  unfold height at hy
  calc y / 8 * p.width + x < y / 8 * p.width + p.width := by omega
    _ = p.width * (y / 8 + 1) := by ring
    _ ≤ p.width * p.bands := Nat.mul_le_mul_left _ (by omega)

/-- Two pixels of the screen in one byte are in one column and one band. -/
theorem pixelIndex_inj {p : Params} {x y x' y' : Nat} (hx : x < p.width) (hx' : x' < p.width)
    (h : pixelIndex p x y = pixelIndex p x' y') : x = x' ∧ y / 8 = y' / 8 := by
  unfold pixelIndex at h
  have hw : 0 < p.width := by omega
  have h1 := congrArg (· % p.width) h
  simp only [Nat.mul_add_mod_of_lt hx, Nat.mul_add_mod_of_lt hx'] at h1
  refine ⟨h1, ?_⟩
  subst h1
  have := Nat.add_right_cancel h
  exact Nat.eq_of_mul_eq_mul_right hw this

theorem getLsbD_withBit (b : Byte) (k : Nat) (v : Bool) (j : Nat) (hk : k < 8) (hj : j < 8) :
    (withBit b k v).getLsbD j = if j = k then v else b.getLsbD j := by
  unfold withBit
  cases v <;> interval_cases k <;> interval_cases j <;> simp

theorem setPixel_wf {p : Params} (x y : Int) (v : Bool) {m : List Host.Cell} (h : Memory.wf m = true) :
    Memory.wf (setPixel p x y v m) = true := by
  unfold setPixel
  split
  · exact writeByte_wf _ _ h
  · exact h

theorem inBounds_setPixel {p : Params} (x y : Int) (v : Bool) {m : List Host.Cell}
    (h : inBounds p m = true) : inBounds p (setPixel p x y v m) = true := by
  unfold setPixel
  split
  · next hs =>
    rw [onScreen_iff] at hs
    exact inBounds_writeByte _ _ h (pixelIndex_lt (by omega) (by omega))
  · exact h

/-- A byte that holds no bit of an on-screen pixel of a primitive keeps its value; here for one pixel. -/
theorem readByte_setPixel_of_ne {p : Params} (x y : Int) (v : Bool) {m : List Host.Cell}
    (h : Memory.wf m = true) {a : Nat}
    (ha : onScreen p x y = true → a ≠ pixelIndex p x.toNat y.toNat) :
    readByte (setPixel p x y v m) a = readByte m a := by
  unfold setPixel
  split
  · next hs => dsimp only; rw [readByte_writeByte h, if_neg (ha hs)]
  · rfl

/-- SetPixel changes its own pixel and no other (42_rasterizer.md R141, 20_memory.md R58). -/
theorem getPixel_setPixel {p : Params} (x y : Int) (v : Bool) {m : List Host.Cell}
    (h : Memory.wf m = true) {x' y' : Nat} (hx : x' < p.width) (hy : y' < height p) :
    getPixel p (setPixel p x y v m) x' y' = if x = x' ∧ y = y' then v else getPixel p m x' y' := by
  unfold setPixel
  by_cases hs : onScreen p x y = true
  · rw [if_pos hs]
    rw [onScreen_iff] at hs
    dsimp only [getPixel]
    rw [readByte_writeByte h]
    by_cases hi : pixelIndex p x' y' = pixelIndex p x.toNat y.toNat
    · obtain ⟨hx', hy'⟩ := pixelIndex_inj hx (by omega) hi
      rw [if_pos hi, getLsbD_withBit _ _ _ _ (by simp [pixelBit]; omega) (by simp [pixelBit]; omega)]
      unfold pixelBit
      by_cases hb : y' % 8 = y.toNat % 8
      · rw [if_pos hb, if_pos (by omega)]
      · rw [if_neg hb, if_neg (by omega), hi]
    · rw [if_neg hi, if_neg]
      rintro ⟨rfl, rfl⟩
      exact hi (by simp)
  · rw [if_neg hs, if_neg]
    rintro ⟨rfl, rfl⟩
    apply hs
    rw [onScreen_iff]
    omega

theorem setPixels_wf {p : Params} (v : Bool) (pts : List (Int × Int)) {m : List Host.Cell}
    (h : Memory.wf m = true) : Memory.wf (setPixels p v pts m) = true := by
  induction pts generalizing m with
  | nil => exact h
  | cons q qs ih => exact ih (setPixel_wf _ _ _ h)

theorem inBounds_setPixels {p : Params} (v : Bool) (pts : List (Int × Int)) {m : List Host.Cell}
    (h : inBounds p m = true) : inBounds p (setPixels p v pts m) = true := by
  induction pts generalizing m with
  | nil => exact h
  | cons q qs ih => exact ih (inBounds_setPixel _ _ _ h)

/-- A primitive leaves its on-screen pixels at `v` and every other pixel as it was (R149 (c)). -/
theorem getPixel_setPixels {p : Params} (v : Bool) (pts : List (Int × Int)) {m : List Host.Cell}
    (h : Memory.wf m = true) {x y : Nat} (hx : x < p.width) (hy : y < height p) :
    getPixel p (setPixels p v pts m) x y
      = if ((x : Int), (y : Int)) ∈ pts then v else getPixel p m x y := by
  induction pts generalizing m with
  | nil => simp [setPixels]
  | cons q qs ih =>
    have := ih (m := setPixel p q.1 q.2 v m) (setPixel_wf _ _ _ h)
    change getPixel p (setPixels p v qs (setPixel p q.1 q.2 v m)) x y = _
    rw [this, getPixel_setPixel _ _ _ h hx hy]
    by_cases hq : q.1 = x ∧ q.2 = y
    · rw [if_pos hq, if_pos (show ((x : Int), (y : Int)) ∈ q :: qs from by
        rw [← hq.1, ← hq.2]; exact List.mem_cons_self)]
      split <;> rfl
    · rw [if_neg hq]
      have hne : ((x : Int), (y : Int)) ≠ q := fun e => hq (by rw [← e]; exact ⟨rfl, rfl⟩)
      simp only [List.mem_cons, hne, false_or]

/-- A byte none of whose bits is an on-screen pixel of the primitive is as it was. -/
theorem readByte_setPixels_of_ne {p : Params} (v : Bool) (pts : List (Int × Int)) {m : List Host.Cell}
    (h : Memory.wf m = true) {a : Nat}
    (ha : ∀ q ∈ pts, onScreen p q.1 q.2 = true → a ≠ pixelIndex p q.1.toNat q.2.toNat) :
    readByte (setPixels p v pts m) a = readByte m a := by
  induction pts generalizing m with
  | nil => rfl
  | cons q qs ih =>
    have h1 := ih (m := setPixel p q.1 q.2 v m) (setPixel_wf _ _ _ h)
      (fun r hr => ha r (List.mem_cons_of_mem _ hr))
    have h2 := readByte_setPixel_of_ne q.1 q.2 v h (a := a) (ha q List.mem_cons_self)
    exact h1.trans h2

@[simp] theorem mem_hlinePixels {x y len : Int} {q : Int × Int} :
    q ∈ hlinePixels x y len ↔ q.2 = y ∧ x ≤ q.1 ∧ q.1 < x + len := by
  simp only [hlinePixels, List.mem_map, List.mem_range, Prod.ext_iff]
  constructor
  · rintro ⟨i, hi, h1, h2⟩; omega
  · rintro ⟨rfl, h1, h2⟩; exact ⟨(q.1 - x).toNat, by omega, by omega, rfl⟩

@[simp] theorem mem_vlinePixels {x y len : Int} {q : Int × Int} :
    q ∈ vlinePixels x y len ↔ q.1 = x ∧ y ≤ q.2 ∧ q.2 < y + len := by
  simp only [vlinePixels, List.mem_map, List.mem_range, Prod.ext_iff]
  constructor
  · rintro ⟨i, hi, h1, h2⟩; omega
  · rintro ⟨rfl, h1, h2⟩; exact ⟨(q.2 - y).toNat, by omega, rfl, by omega⟩

@[simp] theorem mem_rectPixels {x y w h : Int} {q : Int × Int} :
    q ∈ rectPixels x y w h ↔ x ≤ q.1 ∧ q.1 < x + w ∧ y ≤ q.2 ∧ q.2 < y + h := by
  simp only [rectPixels, List.mem_flatMap, List.mem_map, List.mem_range, Prod.ext_iff]
  constructor
  · rintro ⟨j, hj, i, hi, h1, h2⟩; omega
  · rintro ⟨h1, h2, h3, h4⟩
    exact ⟨(q.2 - y).toNat, by omega, (q.1 - x).toNat, by omega, by omega, by omega⟩

/-! ### FILL -/

theorem canonicalAbove_filter {lo n : Nat} {m : List Host.Cell} (h : canonicalAbove lo m = true) :
    canonicalAbove (max lo n) (m.filter fun c => n ≤ c.1) = true := by
  induction m generalizing lo with
  | nil => rfl
  | cons c r ih =>
    obtain ⟨k, b⟩ := c
    simp only [canonicalAbove, decide_eq_true_eq] at h
    rw [List.filter_cons]
    have := ih h.2.2
    split
    · next hk =>
      simp only [decide_eq_true_eq] at hk
      simp only [canonicalAbove, decide_eq_true_eq]
      exact ⟨by omega, h.2.1, canonicalAbove_mono this (by omega)⟩
    · exact canonicalAbove_mono this (by omega)

theorem readByte_filter {lo n : Nat} {m : List Host.Cell} (h : canonicalAbove lo m = true) (a : Nat) :
    readByte (m.filter fun c => n ≤ c.1) a = if n ≤ a then readByte m a else unlisted := by
  induction m generalizing lo with
  | nil => simp [readByte]
  | cons c r ih =>
    obtain ⟨k, b⟩ := c
    simp only [canonicalAbove, decide_eq_true_eq] at h
    rw [List.filter_cons]
    split
    · next hk =>
      simp only [decide_eq_true_eq] at hk
      simp only [readByte]
      rw [ih h.2.2]
      split_ifs <;> first | rfl | omega
    · next hk =>
      simp only [decide_eq_true_eq] at hk
      rw [ih h.2.2]
      simp only [readByte]
      split_ifs <;> first | rfl | omega

theorem canonicalAbove_range' {b : Byte} (hb : b ≠ unlisted) (n : Nat) (lo : Nat) {rest : List Host.Cell}
    (h : canonicalAbove (lo + n) rest = true) :
    canonicalAbove lo ((List.range' lo n).map (fun i => (i, b)) ++ rest) = true := by
  induction n generalizing lo with
  | zero => simpa using h
  | succ n ih =>
    simp only [List.range'_succ, List.map_cons, List.cons_append, canonicalAbove, decide_eq_true_eq]
    exact ⟨Nat.le_refl _, hb, ih (lo + 1) (canonicalAbove_mono h (by omega))⟩

theorem readByte_range' {b : Byte} (n : Nat) (lo : Nat) (rest : List Host.Cell) (a : Nat) (ha : lo ≤ a) :
    readByte ((List.range' lo n).map (fun i => (i, b)) ++ rest) a
      = if a < lo + n then b else readByte rest a := by
  induction n generalizing lo with
  | zero => simp; omega
  | succ n ih =>
    simp only [List.range'_succ, List.map_cons, List.cons_append, readByte]
    by_cases h : a = lo
    · subst h; rw [if_pos rfl, if_pos (by omega)]
    · rw [if_neg h, if_neg (by omega), ih (lo + 1) (by omega)]
      split_ifs <;> first | rfl | omega

theorem fill_wf {p : Params} (v : Bool) {m : List Host.Cell} (h : Memory.wf m = true) :
    Memory.wf (fill p v m) = true := by
  have hr := canonicalAbove_filter (n := fbBytes p) h
  unfold fill Memory.wf
  dsimp only
  split
  · rw [List.range_eq_range']
    exact canonicalAbove_range' (by decide) _ _ (canonicalAbove_mono hr (by omega))
  · exact canonicalAbove_mono hr (by omega)

/-- FILL writes every byte of FB and nothing else (R145). -/
theorem readByte_fill {p : Params} (v : Bool) {m : List Host.Cell} (h : Memory.wf m = true) (a : Nat) :
    readByte (fill p v m) a = if a < fbBytes p then fillByte v else readByte m a := by
  have hf := readByte_filter (n := fbBytes p) h a
  unfold fill
  dsimp only
  split
  · next hv =>
    rw [List.range_eq_range', readByte_range' _ _ _ _ (Nat.zero_le a), hf, hv]
    split_ifs <;> first | rfl | omega
  · next hv =>
    rw [hf]
    simp only [Bool.not_eq_true] at hv
    subst hv
    split_ifs <;> first | rfl | omega

theorem inBounds_fill {p : Params} (v : Bool) {m : List Host.Cell} (h : inBounds p m = true) :
    inBounds p (fill p v m) = true := by
  simp only [inBounds, List.all_eq_true, decide_eq_true_eq] at h ⊢
  unfold fill
  intro c hc
  dsimp only at hc
  split at hc
  · rcases List.mem_append.mp hc with hc | hc
    · simp only [List.mem_map, List.mem_range] at hc
      obtain ⟨i, hi, rfl⟩ := hc; exact hi
    · exact h c (List.mem_filter.mp hc).1
  · exact h c (List.mem_filter.mp hc).1

theorem getLsbD_fillByte (v : Bool) (k : Nat) (hk : k < 8) : (fillByte v).getLsbD k = v := by
  cases v <;> interval_cases k <;> rfl

/-- After FILL every pixel of the screen reads `v` (R145). -/
theorem getPixel_fill {p : Params} (v : Bool) {m : List Host.Cell} (h : Memory.wf m = true) {x y : Nat}
    (hx : x < p.width) (hy : y < height p) : getPixel p (fill p v m) x y = v := by
  unfold getPixel
  rw [readByte_fill v h, if_pos (pixelIndex_lt hx hy)]
  exact getLsbD_fillByte v _ (by simp [pixelBit]; omega)

/-! ### A drawing micro-operation -/

theorem drawOn_wf {p : Params} (o : MicroOp) {m : List Host.Cell} (h : Memory.wf m = true) :
    Memory.wf (drawOn p o m) = true := by
  cases o with
  | hline x y len v => exact setPixels_wf _ _ h
  | vline x y len v => exact setPixels_wf _ _ h
  | fillRect x y w ht v => exact setPixels_wf _ _ h
  | fill v => exact fill_wf _ h
  | flush => exact h
  | delay ms => exact h

theorem inBounds_drawOn {p : Params} (o : MicroOp) {m : List Host.Cell} (h : inBounds p m = true) :
    inBounds p (drawOn p o m) = true := by
  cases o with
  | hline x y len v => exact inBounds_setPixels _ _ h
  | vline x y len v => exact inBounds_setPixels _ _ h
  | fillRect x y w ht v => exact inBounds_setPixels _ _ h
  | fill v => exact inBounds_fill _ h
  | flush => exact h
  | delay ms => exact h

theorem drawAll_wf {p : Params} (ops : List MicroOp) {m : List Host.Cell} (h : Memory.wf m = true) :
    Memory.wf (drawAll p ops m) = true := by
  induction ops generalizing m with
  | nil => exact h
  | cons o os ih => exact ih (drawOn_wf o h)

/-- FB after power-on is in canonical form. -/
theorem resetWith_wf (p : Params) : Memory.wf (State.resetWith p).fb = true := rfl

/-- FB after a RESET is in canonical form (R250). -/
theorem applyReset_wf (s : State) : Memory.wf (applyReset s).fb = true := rfl

@[simp] theorem length_frameOf (p : Params) (m : List Host.Cell) : (frameOf p m).length = fbBytes p := by
  simp [frameOf]

end Sys2Proof.Machine
end

