-- ==== Sys2Proof/Laws/Ops.lean ====
section
/-! SUPPORT. What each shared operation can do: the boundary before a micro-operation, the answers of the
outside, a run of micro-operations, drawing masks, ending a command; and the one induction over a command that
carries a property from before it to after it. -/

namespace Sys2Proof.Machine

/-! ### Sequencing -/

@[simp] theorem Progress.running_andThen (s : State) (f : State → Progress) :
    (Progress.running s).andThen f = f s := rfl

@[simp] theorem Progress.raised_andThen (e : Err) (s : State) (f : State → Progress) :
    (Progress.raised e s).andThen f = .raised e s := rfl

@[simp] theorem Progress.silent_andThen (s : State) (f : State → Progress) :
    (Progress.silent s).andThen f = .silent s := rfl

theorem Progress.andThen_assoc (r : Progress) (f g : State → Progress) :
    (r.andThen f).andThen g = r.andThen fun s => (f s).andThen g := by
  cases r <;> rfl

theorem runOps_append (os us : List MicroOp) (s : State) :
    runOps (os ++ us) s = (runOps os s).andThen (runOps us) := by
  induction os generalizing s with
  | nil => rfl
  | cons o os ih =>
    simp only [List.cons_append, runOps, Progress.andThen_assoc]
    cases runOp o s <;> simp [ih]

/-! ### Boundaries -/

/-- With no RESET to come a boundary does nothing. -/
theorem boundary_of_noReset {s : State} (h : s.resets = []) : boundary s = .running s := by
  unfold boundary; rw [h]

/-- A RESET that is due abandons the command (R250). -/
theorem boundary_of_due {s : State} {r : List Nat} (h : s.resets = 0 :: r) :
    boundary s = .silent (applyReset (s.setResets r)) := by
  unfold boundary; rw [h]

theorem runOp_of_noReset {s : State} (o : MicroOp) (h : s.resets = []) : runOp o s = perform o s := by
  unfold runOp; rw [boundary_of_noReset h]; rfl

theorem respond_of_noReset {s : State} (bytes : Packet) (h : s.resets = []) :
    respond bytes s = (s.emit (.response bytes)).setSeq .idle := by
  unfold respond; rw [boundary_of_noReset h]

/-! ### Answers -/

theorem xportAnswer_eq (s : State) : s.xportAnswer = xportAt s 0 := by
  unfold State.xportAnswer xportAt
  cases s.xport <;> simp

theorem xportNext_eq (s : State) : s.xportNext = usedXport s 1 := by
  unfold State.xportNext usedXport
  cases h : s.xport <;> simp

theorem dlyAnswer_eq (s : State) : s.dlyAnswer = dlyAt s 0 := by
  unfold State.dlyAnswer dlyAt
  cases s.dly <;> simp

theorem dlyNext_eq (s : State) : s.dlyNext = usedDly s 1 := by
  unfold State.dlyNext usedDly
  cases h : s.dly <;> simp

theorem xportAt_congr {s t : State} (h1 : s.xport = t.xport) (h2 : s.xportDraws = t.xportDraws) (k : Nat) :
    xportAt s k = xportAt t k := by
  unfold xportAt; rw [h1, h2]

theorem dlyAt_congr {s t : State} (h1 : s.dly = t.dly) (h2 : s.dlyDraws = t.dlyDraws) (k : Nat) :
    dlyAt s k = dlyAt t k := by
  unfold dlyAt; rw [h1, h2]

theorem xportAt_usedXport (s : State) (n k : Nat) : xportAt (usedXport s n) k = xportAt s (n + k) := by
  unfold xportAt usedXport
  simp only [List.getElem?_drop, List.length_drop]
  by_cases h : n + k < s.xport.length
  · rw [List.getElem?_eq_getElem h]; rfl
  · rw [List.getElem?_eq_none (by omega)]
    simp only [Option.getD_none]
    congr 1; omega

theorem dlyAt_usedDly (s : State) (n k : Nat) : dlyAt (usedDly s n) k = dlyAt s (n + k) := by
  unfold dlyAt usedDly
  simp only [List.getElem?_drop, List.length_drop]
  by_cases h : n + k < s.dly.length
  · rw [List.getElem?_eq_getElem h]; rfl
  · rw [List.getElem?_eq_none (by omega)]
    simp only [Option.getD_none]
    congr 1; omega

theorem usedXport_usedXport (s : State) (n k : Nat) : usedXport (usedXport s n) k = usedXport s (n + k) := by
  simp only [State.ext_iff, usedXport, List.drop_drop, List.length_drop, true_and, and_true]
  omega

theorem usedDly_usedDly (s : State) (n k : Nat) : usedDly (usedDly s n) k = usedDly s (n + k) := by
  simp only [State.ext_iff, usedDly, List.drop_drop, List.length_drop, true_and, and_true]
  omega

@[simp] theorem usedXport_zero (s : State) : usedXport s 0 = s := by
  simp [usedXport]

@[simp] theorem usedDly_zero (s : State) : usedDly s 0 = s := by
  simp [usedDly]

theorem TransportOk.mono {s : State} {n k : Nat} (h : TransportOk s n) (hk : k ≤ n) : TransportOk s k :=
  fun j hj => h j (by omega)

theorem TransportOk.later {s : State} {n k : Nat} (h : TransportOk s (n + k)) : TransportOk (usedXport s n) k :=
  fun j hj => by rw [xportAt_usedXport]; exact h _ (by omega)

/-! ### The flush and the delay -/

/-- A flush the transport accepts hands FB over and changes nothing else (R146). -/
theorem flush_of_ok {s : State} (h : xportAt s 0 = .ok) :
    flush s = .running ((usedXport s 1).emit (.frame (frameOf s.params s.fb))) := by
  have ha : (s.emit (.frame (frameOf s.params s.fb))).xportAnswer = .ok := by
    rw [xportAnswer_eq]; exact h
  unfold flush
  dsimp only
  rw [ha, xportNext_eq]
  rfl

/-- A failing flush has handed FB over all the same and raises IoError (R146, R223). -/
theorem flush_of_ioError {s : State} {e : Byte} (h : xportAt s 0 = .ioError e) :
    flush s = .raised (.ioError e) ((usedXport s 1).emit (.frame (frameOf s.params s.fb))) := by
  have ha : (s.emit (.frame (frameOf s.params s.fb))).xportAnswer = .ioError e := by
    rw [xportAnswer_eq]; exact h
  unfold flush
  dsimp only
  rw [ha, xportNext_eq]
  rfl

/-- A transport that never answers leaves the block busy (93 U8). -/
theorem flush_of_never {s : State} (h : xportAt s 0 = .never) :
    flush s = .silent (((usedXport s 1).emit (.frame (frameOf s.params s.fb))).setSeq .busy) := by
  have ha : (s.emit (.frame (frameOf s.params s.fb))).xportAnswer = .never := by
    rw [xportAnswer_eq]; exact h
  unfold flush
  dsimp only
  rw [ha, xportNext_eq]
  rfl

theorem delay_of_done {s : State} (ms : Half) (h : dlyAt s 0 = .done) :
    delay ms s = .running ((usedDly s 1).emit (.delay ms)) := by
  have ha : (s.emit (.delay ms)).dlyAnswer = .done := by rw [dlyAnswer_eq]; exact h
  unfold delay
  dsimp only
  rw [ha, dlyNext_eq]
  rfl

/-! ### Drawing -/

/-- A micro-operation that only draws. -/
def MicroOp.draws : MicroOp → Bool
  | .hline _ _ _ _ => true
  | .vline _ _ _ _ => true
  | .fillRect _ _ _ _ _ => true
  | .fill _ => true
  | .flush => false
  | .delay _ => false

theorem perform_of_draws {o : MicroOp} (s : State) (h : o.draws = true) : perform o s = draw o s := by
  cases o <;> first | rfl | cases h

/-- Drawing micro-operations, no RESET to come: only FB changes (R148). -/
theorem runOps_draws {os : List MicroOp} {s : State} (ho : ∀ o ∈ os, o.draws = true) (hr : s.resets = []) :
    runOps os s = .running (s.setFb (drawAll s.params os s.fb)) := by
  induction os generalizing s with
  | nil => rfl
  | cons o os ih =>
    simp only [runOps]
    rw [runOp_of_noReset o hr, perform_of_draws s (ho o List.mem_cons_self)]
    unfold draw
    rw [Progress.running_andThen, ih (fun q hq => ho q (List.mem_cons_of_mem _ hq)) (by simpa using hr)]
    rfl

/-- Drawing, then one flush. -/
theorem runOps_draws_flush {os : List MicroOp} {s : State} (ho : ∀ o ∈ os, o.draws = true)
    (hr : s.resets = []) :
    runOps (os ++ [.flush]) s = flush (s.setFb (drawAll s.params os s.fb)) := by
  rw [runOps_append, runOps_draws ho hr, Progress.running_andThen]
  simp only [runOps]
  rw [runOp_of_noReset _ (by simpa using hr)]
  change (flush _).andThen Progress.running = _
  cases flush _ <;> rfl

/-- The drawing part of `DrawGlyph`. -/
def glyphDraws (mask : Byte) (n : Nat) : List MicroOp := (glyphOps mask n).dropLast

theorem glyphOps_eq (mask : Byte) (n : Nat) : glyphOps mask n = glyphDraws mask n ++ [.flush] := rfl

theorem glyphDraws_draws (mask : Byte) (n : Nat) : ∀ o ∈ glyphDraws mask n, o.draws = true := by
  intro o ho
  simp [glyphDraws, glyphOps, horizontalSegment, verticalSegment] at ho
  rcases ho with h | h | h | h | h | h | h | h | h | h | h | h | h | h | h | h | h | h | h | h | h | h <;>
    (rw [h]; rfl)

theorem drawAll_append (p : Params) (os us : List MicroOp) (m : List Host.Cell) :
    drawAll p (os ++ us) m = drawAll p us (drawAll p os m) := by
  simp [drawAll]

theorem glyphFb_eq (p : Params) (mask : Byte) (n : Nat) (m : List Host.Cell) :
    glyphFb p mask n m = drawAll p (glyphDraws mask n) m := by
  unfold glyphFb; rw [glyphOps_eq, drawAll_append]; rfl

/-- One glyph, no RESET to come: the 22 primitives, then the flush of what they left (R165). -/
theorem runOps_glyph {s : State} (mask : Byte) (n : Nat) (hr : s.resets = []) :
    runOps (glyphOps mask n) s = flush (s.setFb (glyphFb s.params mask n s.fb)) := by
  rw [glyphOps_eq, runOps_draws_flush (glyphDraws_draws mask n) hr, glyphFb_eq]

/-- COLON's micro-operations, no RESET to come (R171). -/
theorem runOps_colon {s : State} (on : Bool) (hr : s.resets = []) :
    runOps (colonOps on) s = flush (s.setFb (colonFb s.params on s.fb)) :=
  runOps_draws_flush (os := [.fillRect 42 12 2 2 on, .fillRect 42 33 2 2 on])
    (by intro o ho; simp at ho; rcases ho with h | h <;> (rw [h]; rfl)) hr

/-- CLEAR's micro-operations, no RESET to come (R172). -/
theorem runOps_clear {s : State} (color : Bool) (hr : s.resets = []) :
    runOps (clearOps color) s = flush (s.setFb (fill s.params color s.fb)) :=
  runOps_draws_flush (os := [.fill color]) (by intro o ho; simp at ho; rw [ho]; rfl) hr

/-- One mask of WRITE whose flush is accepted (R167). -/
theorem drawNext_of_ok {s : State} (mask : Byte) (hr : s.resets = []) (hx : xportAt s 0 = .ok) :
    drawNext mask s = .running ((((usedXport s 1).setFb (glyphFb s.params mask s.cur.toNat s.fb)).setCur
      (s.cur + 1)).emits [.frame (frameOf s.params (glyphFb s.params mask s.cur.toNat s.fb))]) := by
  unfold drawNext
  rw [runOps_glyph mask _ hr, flush_of_ok (s := s.setFb (glyphFb s.params mask s.cur.toNat s.fb)) hx]
  rfl

/-- One mask of WRITE whose flush fails: the glyph is drawn, CUR stays (R175). -/
theorem drawNext_of_ioError {s : State} {e : Byte} (mask : Byte) (hr : s.resets = [])
    (hx : xportAt s 0 = .ioError e) :
    drawNext mask s = .raised (.ioError e) (((usedXport s 1).setFb (glyphFb s.params mask s.cur.toNat s.fb)).emits
      [.frame (frameOf s.params (glyphFb s.params mask s.cur.toNat s.fb))]) := by
  unfold drawNext
  rw [runOps_glyph mask _ hr,
    flush_of_ioError (s := s.setFb (glyphFb s.params mask s.cur.toNat s.fb)) hx]
  rfl

/-- The masks of WRITE, every flush accepted (R167, R168). -/
theorem drawMasks_of_ok (masks : List Byte) {s : State} (hr : s.resets = [])
    (hx : TransportOk s masks.length) (hc : s.cur.toNat + masks.length < 2 ^ 16) :
    drawMasks masks s = .running ((((usedXport s masks.length).setFb
      (writtenFb s.params s.cur.toNat masks s.fb)).setCur (BitVec.ofNat 16 (s.cur.toNat + masks.length))).emits
      (writtenFrames s.params s.cur.toNat masks s.fb)) := by
  induction masks generalizing s with
  | nil => simp [drawMasks, writtenFb, writtenFrames, State.setFb, State.setCur, State.emits]
  | cons m ms ih =>
    simp only [List.length_cons] at hx hc
    have h0 : xportAt s 0 = .ok := hx 0 (by omega)
    have hcur : (s.cur + 1).toNat = s.cur.toNat + 1 := by
      rw [BitVec.toNat_add]; simp; omega
    simp only [drawMasks]
    rw [drawNext_of_ok m hr h0, Progress.running_andThen, ih]
    · simp only [Progress.running.injEq, State.ext_iff, State.emits_params, State.emits_fb, State.emits_cur,
        State.emits_seq, State.emits_cmd, State.emits_out, State.emits_xport, State.emits_xportDraws,
        State.emits_dly, State.emits_dlyDraws, State.emits_resets, State.setCur_params, State.setCur_fb,
        State.setCur_cur, State.setCur_seq, State.setCur_cmd, State.setCur_out, State.setCur_xport,
        State.setCur_xportDraws, State.setCur_dly, State.setCur_dlyDraws, State.setCur_resets,
        State.setFb_params, State.setFb_fb, State.setFb_seq, State.setFb_cmd, State.setFb_out,
        State.setFb_xport, State.setFb_xportDraws, State.setFb_dly, State.setFb_dlyDraws, State.setFb_resets,
        usedXport_params, usedXport_seq, usedXport_cmd, usedXport_out, usedXport_xport,
        usedXport_xportDraws, usedXport_dly, usedXport_dlyDraws, usedXport_resets, hcur, List.length_cons,
        writtenFb, writtenFrames, List.append_assoc, List.singleton_append, List.drop_drop, List.length_drop,
        true_and, and_true]
      refine ⟨by congr 1; omega, by congr 1; omega, by omega⟩
    · exact hr
    · intro k hk
      have := hx (1 + k) (by omega)
      rw [← xportAt_usedXport] at this
      exact this
    · simp only [State.emits_cur, State.setCur_cur, hcur]; omega

/-- `WRITE(pos, masks)` with a legal position, every flush accepted (R167). -/
theorem writeMasks_of_ok (pos : Byte) (masks : List Byte) {s : State} (hp : pos.toNat ≤ 3)
    (hr : s.resets = []) (hx : TransportOk s masks.length) (hl : masks.length ≤ maxLen) :
    writeMasks pos masks s = .running ((((usedXport s masks.length).setFb
      (writtenFb s.params pos.toNat masks s.fb)).setCur (BitVec.ofNat 16 (pos.toNat + masks.length))).emits
      (writtenFrames s.params pos.toNat masks s.fb)) := by
  unfold maxLen at hl
  have hc : (pos.setWidth 16 : Half).toNat = pos.toNat := by simp; omega
  unfold writeMasks
  rw [if_neg (by omega), drawMasks_of_ok masks (s := s.setCur (pos.setWidth 16)) hr hx
    (by simp only [State.setCur_cur, hc]; omega)]
  simp only [State.setCur_cur, hc]
  rfl

/-- `COLON(on)`, its flush accepted (R171). -/
theorem drawColon_of_ok (on : Bool) {s : State} (hr : s.resets = []) (hx : xportAt s 0 = .ok) :
    drawColon on s = .running (((usedXport s 1).setFb (colonFb s.params on s.fb)).emits
      [.frame (frameOf s.params (colonFb s.params on s.fb))]) := by
  unfold drawColon
  rw [runOps_colon on hr, flush_of_ok (s := s.setFb (colonFb s.params on s.fb)) hx]
  rfl

/-! ### The list of a command's micro-operations -/

@[simp] theorem outputsOf_nil (p : Params) (m : List Host.Cell) : outputsOf p [] m = [] := rfl

@[simp] theorem flushCount_nil : flushCount [] = 0 := rfl

@[simp] theorem delayCount_nil : delayCount [] = 0 := rfl

theorem outputsOf_append (p : Params) (os us : List MicroOp) (m : List Host.Cell) :
    outputsOf p (os ++ us) m = outputsOf p os m ++ outputsOf p us (drawAll p os m) := by
  induction os generalizing m with
  | nil => rfl
  | cons o os ih => cases o <;> simp only [List.cons_append, outputsOf, ih] <;> rfl

theorem flushCount_append (os us : List MicroOp) : flushCount (os ++ us) = flushCount os + flushCount us := by
  simp [flushCount]

theorem delayCount_append (os us : List MicroOp) : delayCount (os ++ us) = delayCount os + delayCount us := by
  simp [delayCount]

/-- The answers used are the outputs made: one frame per flush. -/
theorem length_framesOf_outputsOf (p : Params) (os : List MicroOp) (m : List Host.Cell) :
    (framesOf (outputsOf p os m)).length = flushCount os := by
  induction os generalizing m with
  | nil => rfl
  | cons o os ih =>
    cases o <;> simp only [outputsOf, framesOf, flushCount, List.filterMap_cons, List.filter_cons, if_true,
      List.length_cons] at ih ⊢ <;> simp [ih]

/-- One delay request per delay. -/
theorem length_delaysOf_outputsOf (p : Params) (os : List MicroOp) (m : List Host.Cell) :
    (delaysOf (outputsOf p os m)).length = delayCount os := by
  induction os generalizing m with
  | nil => rfl
  | cons o os ih =>
    cases o <;> simp only [outputsOf, delaysOf, delayCount, List.filterMap_cons, List.filter_cons, if_true,
      List.length_cons] at ih ⊢ <;> simp [ih]

/-- Micro-operations send no response. -/
theorem responsesOf_outputsOf (p : Params) (os : List MicroOp) (m : List Host.Cell) :
    responsesOf (outputsOf p os m) = [] := by
  induction os generalizing m with
  | nil => rfl
  | cons o os ih =>
    cases o <;> simp only [outputsOf, responsesOf, List.filterMap_cons] at ih ⊢ <;> simp [ih]

/-! ### One induction for every command -/

/-- A property of states that every part of a command keeps. -/
structure Kept (P : State → Prop) : Prop where
  tick : ∀ s r, P s → P (s.setResets r)
  reset : ∀ s, P s → P (applyReset s)
  op : ∀ s o, P s → P (perform o s).state
  cursor : ∀ s c, P s → P (s.setCur c)
  response : ∀ s bytes, P s → P ((s.emit (.response bytes)).setSeq .idle)

theorem boundary_keeps {P : State → Prop} (k : Kept P) {s : State} (h : P s) : P (boundary s).state := by
  unfold boundary
  split
  · exact h
  · exact k.reset _ (k.tick _ _ h)
  · exact k.tick _ _ h

theorem andThen_keeps {P : State → Prop} {r : Progress} {f : State → Progress} (h : P r.state)
    (hf : ∀ s, P s → P (f s).state) : P (r.andThen f).state := by
  cases r with
  | running s => exact hf s h
  | raised e s => exact h
  | silent s => exact h

theorem runOp_keeps {P : State → Prop} (k : Kept P) (o : MicroOp) {s : State} (h : P s) :
    P (runOp o s).state :=
  andThen_keeps (boundary_keeps k h) fun t ht => k.op t o ht

theorem runOps_keeps {P : State → Prop} (k : Kept P) (os : List MicroOp) {s : State} (h : P s) :
    P (runOps os s).state := by
  induction os generalizing s with
  | nil => exact h
  | cons o os ih => exact andThen_keeps (runOp_keeps k o h) fun t ht => ih ht

theorem drawMasks_keeps {P : State → Prop} (k : Kept P) (ms : List Byte) {s : State} (h : P s) :
    P (drawMasks ms s).state := by
  induction ms generalizing s with
  | nil => exact h
  | cons m ms ih =>
    exact andThen_keeps (andThen_keeps (runOps_keeps k _ h) fun t ht => k.cursor _ _ ht) fun t ht => ih ht

theorem writeMasks_keeps {P : State → Prop} (k : Kept P) (pos : Byte) (ms : List Byte) {s : State}
    (h : P s) : P (writeMasks pos ms s).state := by
  unfold writeMasks
  split
  · exact h
  · exact drawMasks_keeps k ms (k.cursor _ _ h)

theorem scrollLoop_keeps {P : State → Prop} (k : Kept P) (ms : Half) (ws : List (List Byte)) {s : State}
    (h : P s) : P (scrollLoop ms ws s).state := by
  induction ws generalizing s with
  | nil => exact h
  | cons w ws ih =>
    exact andThen_keeps (andThen_keeps (writeMasks_keeps k 0 w h) fun t ht => runOp_keeps k _ ht)
      fun t ht => ih ht

theorem encodeThen_keeps {P : State → Prop} {f : List Byte → State → Progress} (str : List Byte) {s : State}
    (h : P s) (hf : ∀ ms, P (f ms s).state) : P (encodeThen str f s).state := by
  unfold encodeThen
  split
  · exact h
  · exact hf _

theorem respond_keeps {P : State → Prop} (k : Kept P) (bytes : Packet) {s : State} (h : P s) :
    P (respond bytes s) := by
  have hb := boundary_keeps k h
  unfold respond
  split
  · next e => rw [e] at hb; exact k.response _ _ hb
  · next e => rw [e] at hb; exact hb
  · next e => rw [e] at hb; exact hb

theorem finish_keeps {P : State → Prop} (k : Kept P) (payload : List Byte) {r : Progress} (h : P r.state) :
    P (finish payload r) := by
  cases r with
  | running s => exact respond_keeps k _ h
  | raised e s => exact respond_keeps k _ h
  | silent s => exact h

/-- No command has another outcome than a next state, and what its parts keep it keeps. -/
theorem exec_keeps {P : State → Prop} (k : Kept P) (i : Instr) {s : State} (h : P s) :
    ∃ t, exec i s = .next t ∧ P t := by
  cases i with
  | clear c => exact ⟨_, rfl, finish_keeps k _ (runOps_keeps k _ h)⟩
  | colon c => exact ⟨_, rfl, finish_keeps k _ (runOps_keeps k _ h)⟩
  | write p ms => exact ⟨_, rfl, finish_keeps k _ (writeMasks_keeps k _ _ h)⟩
  | encd n => exact ⟨_, rfl, finish_keeps k _ (r := .running s) h⟩
  | encc c =>
    simp only [exec, execEncc]
    split
    · exact ⟨_, rfl, finish_keeps k _ (r := .raised _ s) h⟩
    · exact ⟨_, rfl, finish_keeps k _ (r := .running s) h⟩
  | encs c =>
    simp only [exec, execEncs]
    split
    · exact ⟨_, rfl, finish_keeps k _ (r := .raised _ s) h⟩
    · exact ⟨_, rfl, finish_keeps k _ (r := .running s) h⟩
  | hex v => exact ⟨_, rfl, finish_keeps k _ (writeMasks_keeps k _ _ h)⟩
  | number v => exact ⟨_, rfl, finish_keeps k _ (encodeThen_keeps _ h fun ms => writeMasks_keeps k _ _ h)⟩
  | numbers a b c =>
    exact ⟨_, rfl, finish_keeps k _ (encodeThen_keeps _ h fun ms =>
      andThen_keeps (writeMasks_keeps k _ _ h) fun t ht => runOps_keeps k _ ht)⟩
  | temp v =>
    exact ⟨_, rfl, finish_keeps k _ (encodeThen_keeps _ h fun ms =>
      andThen_keeps (writeMasks_keeps k _ _ h) fun t ht => writeMasks_keeps k _ _ ht)⟩
  | scroll d str => exact ⟨_, rfl, finish_keeps k _ (encodeThen_keeps _ h fun ms => scrollLoop_keeps k _ _ h)⟩

end Sys2Proof.Machine
end

