-- ==== Sys2Proof/Laws/PerInstr.lean ====
section
/-! SUPPORT. One statement per constructor of Instr: the canonical packet of a command a packet can carry has
2 to 259 bytes (30_encoding.md R85). -/

namespace Sys2Proof.Laws.PacketLength

def Statement (i : Instr) : Prop :=
  i.wellFormed = true → 2 ≤ (encode i).length ∧ (encode i).length ≤ longestPacket

theorem clear (color : Bool) : Statement (.clear color) := by simp [Statement, encode, longestPacket]

theorem colon (on : Bool) : Statement (.colon on) := by simp [Statement, encode, longestPacket]

theorem write (pos : Byte) (masks : List Byte) : Statement (.write pos masks) := by
  intro h
  simp only [Instr.wellFormed, decide_eq_true_eq] at h
  simp [encode, longestPacket, maxLen] at h ⊢; omega

theorem encd (n : Byte) : Statement (.encd n) := by simp [Statement, encode, longestPacket]

theorem encc (c : Byte) : Statement (.encc c) := by simp [Statement, encode, longestPacket]

theorem encs (s : List Byte) : Statement (.encs s) := by
  intro h
  simp only [Instr.wellFormed, decide_eq_true_eq] at h
  simp [encode, longestPacket, maxLen] at h ⊢; omega

theorem hex (v : Half) : Statement (.hex v) := by simp [Statement, encode, longestPacket, halfBytes]

theorem number (v : Word) : Statement (.number v) := by simp [Statement, encode, longestPacket, wordBytes]

theorem numbers (a b : Word) (colon : Bool) : Statement (.numbers a b colon) := by
  simp [Statement, encode, longestPacket, wordBytes]

theorem temp (v : Word) : Statement (.temp v) := by simp [Statement, encode, longestPacket, wordBytes]

theorem scroll (delayMs : Half) (s : List Byte) : Statement (.scroll delayMs s) := by
  intro h
  simp only [Instr.wellFormed, decide_eq_true_eq] at h
  simp [encode, longestPacket, maxLen, halfBytes] at h ⊢; omega

end Sys2Proof.Laws.PacketLength
end

