-- ==== Sys2Proof/Laws/Table.lean ====
section
/-! SUPPORT. The segment table: its lengths, and that no character is looked up outside it
(41_segment_table.md R123, R124; 10_state.md R35). -/

namespace Sys2Proof.Machine

/-- The number of entries of TABLE in a variant (R123). -/
def tableLength : Variant → Nat
  | .wide => 39
  | .narrow => 18

@[simp] theorem length_tableMasks (p : Params) : (tableMasks p).length = tableLength p.variant := by
  unfold tableMasks
  cases p.variant <;> simp [tableLength]

/-- CharIndex stays inside the table of its variant. -/
theorem charIndex_lt_length {v : Variant} {c : Byte} {i : Nat} (h : charIndex v c = some i) :
    i < tableLength v := by
  unfold charIndex at h
  cases v <;> dsimp only [tableLength] at h ⊢ <;> split_ifs at h <;> simp at h <;> omega

/-- The entries of the hexadecimal digits are the same in both variants (R123). -/
theorem tableMask_hex (p : Params) (i : Fin 16) : tableMask p i = p.table.hex[i] := by
  have hi : i.val < p.table.hex.toList.length := by simp
  unfold tableMask tableMasks
  cases p.variant <;> simp only [List.append_assoc, List.getD_eq_getElem?_getD] <;>
    rw [List.getElem?_append_left hi, List.getElem?_eq_getElem hi] <;> simp

theorem encodeChar_of_index {p : Params} {c : Byte} {i : Nat} (h : charIndex p.variant c = some i) :
    encodeChar p c = .ok (tableMask p i) := by
  unfold encodeChar; rw [h]

/-- EncodeChar raises exactly where CharIndex gives nothing, with the character itself (R129). -/
theorem encodeChar_of_none {p : Params} {c : Byte} (h : charIndex p.variant c = none) :
    encodeChar p c = .error c := by
  unfold encodeChar; rw [h]

theorem encodeAll_length {p : Params} {cs ms : List Byte} (h : encodeAll p cs = .ok ms) :
    ms.length = cs.length := by
  induction cs generalizing ms with
  | nil => cases h; rfl
  | cons c cs ih =>
    unfold encodeAll at h
    split at h
    · cases h
    · split at h
      · cases h
      · next hr => cases h; simp [ih hr]

/-- The variant fixes the number of masks EncodeString answers (R129). -/
theorem encodeString_length {p : Params} {cs ms : List Byte} (h : encodeString p cs = .ok ms) :
    ms.length = match p.variant with | .wide => cs.length | .narrow => 4 := by
  unfold encodeString at h
  cases hv : p.variant with
  | wide =>
    rw [hv] at h
    exact encodeAll_length h
  | narrow =>
    rw [hv] at h
    dsimp only at h ⊢
    split at h
    · cases h
    · next hr =>
      have hl := encodeAll_length hr
      cases h
      simp only [List.length_take] at hl
      simp only [List.length_append, List.length_replicate]
      omega

end Sys2Proof.Machine
end

