-- ==== Sys2Proof/Tests/Slice0.lean ====
section
/-! SUPPORT. Tests against the vectors of 95_test_vectors.md and its examples, and for every obligation with
hypotheses a witness that they can be met together. -/

namespace Sys2Proof.Machine.Tests

/-! ### Small states -/

/-- A block of a variant after power-on, whose transport and delay unit answer well `n` times. -/
def ready (v : Variant) (n : Nat) : State :=
  { State.resetWith (defaultParams v) with xport := List.replicate n .ok, dly := List.replicate n .done }

/-- The same with a screen one byte wide and one band high, where drawing is cheap. -/
def tiny (v : Variant) (n : Nat) : State :=
  { State.resetWith { defaultParams v with width := 1, bands := 1 } with
    xport := List.replicate n .ok, dly := List.replicate n .done }

/-- The block whose transport accepts `n` flushes and fails the next with 0x5A (V-E3). -/
def failing (n : Nat) : State :=
  { State.resetWith { defaultParams .wide with width := 1, bands := 1 } with
    xport := List.replicate n .ok ++ [.ioError 0x5A] }

/-- What a check of the next state says; false where there is none. -/
def next? (o : Host.Outcome State Fault Refusal) (f : State → Bool) : Bool :=
  match o with
  | .next t => f t
  | .fault _ => false
  | .refused _ => false

/-- The responses after a command. -/
def answers (s : State) (i : Instr) (r : Packet) : Bool :=
  next? (exec i s) fun t => responsesOf t.out = [r] ∧ t.seq = .idle

/-- The number of pixels lit in FB. -/
def lit (s : State) : Nat :=
  (s.fb.map fun c => ((List.range 8).filter fun k => c.2.getLsbD k).length).sum

/-! ### Well-formedness: one ill-formed term for each check -/

theorem test_wf_write : (Instr.write 0 (List.replicate 255 0)).wellFormed = true ∧
    (Instr.write 0 (List.replicate 256 0)).wellFormed = false := by decide +kernel

theorem test_wf_encs : (Instr.encs (List.replicate 255 0)).wellFormed = true ∧
    (Instr.encs (List.replicate 256 0)).wellFormed = false := by decide +kernel

theorem test_wf_scroll : (Instr.scroll 0 (List.replicate 255 0)).wellFormed = true ∧
    (Instr.scroll 0 (List.replicate 256 0)).wellFormed = false := by decide +kernel

/-! ### Decoding: packets written out from 30_encoding.md R86 and R87 -/

theorem test_decode_clear : decode [0x01, 0x05] = .ok (.clear true) := by decide

theorem test_decode_colon : decode [0x02, 0x80] = .ok (.colon true) := by decide

theorem test_decode_write : decode [0x03, 0x09, 0x02, 0x06, 0x5B] = .ok (.write 9 [0x06, 0x5B]) := by decide

theorem test_decode_encd : decode [0x10, 0xFF] = .ok (.encd 0xFF) := by decide

theorem test_decode_encc : decode [0x11, 0x46] = .ok (.encc 0x46) := by decide

theorem test_decode_encs : decode [0x12, 0x00] = .ok (.encs []) := by decide

theorem test_decode_hex : decode [0x20, 0x34, 0x12] = .ok (.hex 0x1234) := by decide

/-- -1000 (V-F1). -/
theorem test_decode_number : decode [0x21, 0x18, 0xFC, 0xFF, 0xFF] = .ok (.number (BitVec.ofInt 32 (-1000))) := by
  decide

/-- 100, -10, on (V-F2). -/
theorem test_decode_numbers :
    decode [0x22, 0x64, 0x00, 0x00, 0x00, 0xF6, 0xFF, 0xFF, 0xFF, 0x01]
      = .ok (.numbers 100 (BitVec.ofInt 32 (-10)) true) := by decide

theorem test_decode_temp : decode [0x23, 0xF7, 0xFF, 0xFF, 0xFF] = .ok (.temp (BitVec.ofInt 32 (-9))) := by
  decide

theorem test_decode_scroll : decode [0x24, 0xFA, 0x00, 0x02, 0x61, 0x62] = .ok (.scroll 250 [0x61, 0x62]) := by
  decide

/-- V-E4: every packet listed there. -/
theorem test_decode_rejects :
    ([[], [0x00], [0x00, 0x00], [0x04, 0x00], [0x30, 0x00], [0xFF], [0x01], [0x01, 0x00, 0x00], [0x03, 0x00],
      [0x03, 0x00, 0x01], [0x03, 0x00, 0x01, 0x06, 0x5B], [0x12], [0x12, 0x02, 0x31], [0x20, 0xFF],
      [0x21, 0x00, 0x00, 0x00], [0x22, 0x00, 0x00, 0x00, 0x00, 0x00, 0x00, 0x00, 0x00], [0x24, 0xFA, 0x00],
      [0x24, 0xFA, 0x00, 0x02, 0x61], [0x03, 0x09, 0x01], [0x12, 0x02, 0x3F]] : List Packet).all
      (fun p => match decode p with | .ok _ => false | .error _ => true) = true := by decide

/-- A row of the table with no bits for its operands. -/
theorem test_table_words : decodeTableWord 8 0x20 = some (.hex 0) ∧ decodeTableWord 24 0x123420 = some (.hex 0x1234)
    ∧ decodeTableWord 8 0x04 = none := by decide

/-! ### The rasterizer (V-R1, V-R2, V-R3) -/

def dark : Params := defaultParams .wide

theorem test_setPixel : setPixel dark 0 0 true [] = [(0, 0x01)] ∧ setPixel dark 5 9 true [] = [(89, 0x02)] ∧
    setPixel dark 83 47 true [] = [(503, 0x80)] ∧ setPixel dark 84 0 true [] = [] ∧
    setPixel dark 0 48 true [] = [] ∧ setPixel dark (-1) 0 true [] = [] ∧ setPixel dark 0 (-1) true [] = [] := by
  decide

theorem test_hline : hline dark 80 7 10 true [] = [(80, 0x80), (81, 0x80), (82, 0x80), (83, 0x80)] ∧
    hline dark (-2) 8 4 true [] = [(84, 0x01), (85, 0x01)] ∧ hline dark 0 0 0 true [] = [] := by decide

theorem test_vline : vline dark 10 5 6 true [] = [(10, 0xE0), (94, 0x07)] ∧
    vline dark 10 44 10 true [] = [(430, 0xF0)] := by decide

theorem test_fillRect : fillRect dark 1 7 2 2 true [] = [(1, 0x80), (2, 0x80), (85, 0x01), (86, 0x01)] ∧
    fillRect dark 82 46 4 4 true [] = [(502, 0xC0), (503, 0xC0)] ∧ fillRect dark 0 0 0 5 true [] = [] := by
  decide

/-- V-R3: FILL(1), on one band of four columns; FILL(0) after it. -/
theorem test_fill : fill { dark with width := 4, bands := 1 } true [(2, 0x10)]
      = [(0, 0xFF), (1, 0xFF), (2, 0xFF), (3, 0xFF)] ∧ fill dark false [(0, 0xFF), (503, 0x01)] = [] := by decide

/-! ### Commands -/

/-- V-C4: `CLEAR 1` writes 0xFF to all 504 bytes and makes one frame. -/
theorem test_clear : next? (exec (.clear true) (ready .wide 1))
    (fun t => t.fb.length = 504 ∧ (t.fb.all fun c => c.2 = 0xFF) ∧ t.cur = 0 ∧ (framesOf t.out).length = 1 ∧ responsesOf t.out = [[0x00]]) = true := by
  decide +kernel

/-- V-E3: `CLEAR 1` with a failing flush. -/
theorem test_clear_fails : next? (exec (.clear true) (failing 0))
    (fun t => t.fb = [(0, 0xFF)] ∧ t.out = [.frame [0xFF], .response [0x03, 0x5A]]) = true := by decide +kernel

/-- V-S8: columns 42 and 43, rows 12, 13, 33 and 34. -/
theorem test_colon : next? (exec (.colon true) (ready .wide 1))
    (fun t => t.fb = [(126, 0x30), (127, 0x30), (378, 0x06), (379, 0x06)] ∧ responsesOf t.out = [[0x00]]) = true := by
  decide +kernel

/-- V-C2, V-C3: all elements at slot 3, 322 pixels, the dot at columns 82 and 83. -/
theorem test_write : next? (exec (.write 3 [0xFF]) (ready .wide 1))
    (fun t => lit t = 322 ∧ t.cur = 4 ∧ readByte t.fb 502 = 0x60 ∧ readByte t.fb 503 = 0x60
      ∧ readByte t.fb 65 = 0xF8) = true := by decide +kernel

/-- V-E3: the second of two flushes fails; the cursor stays at the mask whose flush failed. -/
theorem test_write_fails : next? (exec (.write 3 [0xFF, 0xFF]) (failing 1))
    (fun t => t.cur = 4 ∧ (framesOf t.out).length = 2 ∧ responsesOf t.out = [[0x03, 0x5A]]) = true := by
  decide +kernel

/-- V-E1. -/
theorem test_write_position : answers (ready .wide 0) (.write 4 [0xFF]) [0x01] = true := by decide +kernel

/-- V-S1, V-T1. -/
theorem test_encd : answers (ready .wide 0) (.encd 0x00) [0x00, 0x3F] = true ∧
    answers (ready .narrow 0) (.encd 0xF8) [0x00, 0x7F] = true := by decide +kernel

/-- V-S2, V-S3. -/
theorem test_encc : answers (ready .narrow 0) (.encc 0x46) [0x00, 0x71] = true ∧
    answers (ready .narrow 0) (.encc 0x67) [0x02, 0x67] = true := by decide +kernel

/-- V-S4 in both variants. -/
theorem test_encs :
    answers (ready .wide 0) (.encs [0x31, 0x32, 0x33, 0x34, 0x35]) [0x00, 0x05, 0x06, 0x5B, 0x4F, 0x66, 0x6D] = true ∧
    answers (ready .narrow 0) (.encs [0x31, 0x32, 0x33, 0x34, 0x3F]) [0x00, 0x04, 0x06, 0x5B, 0x4F, 0x66] = true :=
  by decide +kernel

/-- V-F4: the masks of 0xBEEF. -/
theorem test_hex_masks : hexMasks dark 0xBEEF = [0x7C, 0x79, 0x79, 0x71] := by decide

/-- V-F4: four frames, the cursor after slot 3. -/
theorem test_hex : next? (exec (.hex 0xBEEF) (tiny .wide 4))
    (fun t => t.cur = 4 ∧ (framesOf t.out).length = 4 ∧ responsesOf t.out = [[0x00]]) = true := by decide +kernel

/-- V-F1. -/
theorem test_number_string : numberString 100 = [0x20, 0x31, 0x30, 0x30] ∧ numberString (-5) = [0x20, 0x20, 0x2D, 0x35]
    ∧ numberString (-1000) = [0x2D, 0x39, 0x39, 0x39] ∧ numberString 10000 = [0x39, 0x39, 0x39, 0x39] := by decide

theorem test_number : next? (exec (.number 42) (tiny .narrow 4))
    (fun t => t.cur = 4 ∧ (framesOf t.out).length = 4 ∧ responsesOf t.out = [[0x00]]) = true := by decide +kernel

/-- V-F2. -/
theorem test_numbers_string : numbersString (-5) 11 = [0x2D, 0x35, 0x31, 0x31] ∧
    numbersString 100 (-10) = [0x39, 0x39, 0x2D, 0x39] ∧ numbersString 5 7 = [0x30, 0x35, 0x30, 0x37] := by decide

/-- V-E3: the third flush of NUMBERS fails. -/
theorem test_numbers_fails : next? (exec (.numbers 1 2 true) (failing 2))
    (fun t => (framesOf t.out).length = 3 ∧ responsesOf t.out = [[0x03, 0x5A]]) = true := by decide +kernel

/-- V-F3. -/
theorem test_temp_string : tempString 5 = [0x20, 0x35] ∧ tempString (-9) = [0x2D, 0x39] ∧
    tempString (-10) = [0x6C, 0x6F] ∧ tempString 100 = [0x68, 0x69] := by decide

/-- V-F3: six frames in NARROW, and the failure on 'l'. -/
theorem test_temp_narrow : next? (exec (.temp 25) (tiny .narrow 6))
    (fun t => t.cur = 4 ∧ (framesOf t.out).length = 6 ∧ responsesOf t.out = [[0x00]]) = true ∧
    answers (tiny .narrow 0) (.temp (BitVec.ofInt 32 (-10))) [0x02, 0x6C] = true := by decide +kernel

/-- V-F5: the windows of "ab". -/
theorem test_scroll_windows : scrollWindows [0x77, 0x7C] =
    [[0x00, 0x00, 0x00, 0x00], [0x00, 0x00, 0x00, 0x77], [0x00, 0x00, 0x77, 0x7C], [0x00, 0x77, 0x7C, 0x00],
      [0x77, 0x7C, 0x00, 0x00], [0x7C, 0x00, 0x00, 0x00], [0x00, 0x00, 0x00, 0x00]] := by decide

/-- V-E3: SCROLL with flush 6 failing: six frames, one delay request. -/
theorem test_scroll_fails : next? (exec (.scroll 250 [0x61, 0x62]) { failing 5 with dly := [.done] })
    (fun t => (framesOf t.out).length = 6 ∧ delaysOf t.out = [250] ∧ responsesOf t.out = [[0x03, 0x5A]]) = true := by
  decide +kernel

/-! ### Steps -/

/-- A row placed after reset is the very next command. -/
theorem test_step_first : next? (step (State.reset.withFetchWord 16 0x0710))
    (fun t => responsesOf t.out = [[0x00, 0x07]] ∧ t.cmd = []) = true := by decide +kernel

/-- V-E4: a reserved opcode is answered 0xFF. -/
theorem test_step_badCommand : next? (step (State.reset.withFetchWord 8 0x30))
    (fun t => t.out = [.response [0xFF]]) = true := by decide +kernel

/-- R250: a RESET after three boundaries of `CLEAR 1` (its acceptance, FILL, FLUSH) comes before the response; the
frame stays. -/
theorem test_step_reset : next? (step { ready .wide 1 with cmd := [[0x01, 0x01]], resets := [3] })
    (fun t => t.fb = [] ∧ t.seq = .idle ∧ t.resets = [] ∧ responsesOf t.out = [] ∧ (framesOf t.out).length = 1)
      = true := by decide +kernel

/-- R250: a command without a micro-operation is abandoned after its acceptance. -/
theorem test_step_reset_lookup : next? (step { ready .wide 0 with cmd := [[0x10, 0x07]], resets := [1] })
    (fun t => t.cmd = [] ∧ t.seq = .idle ∧ t.resets = [] ∧ t.out = []) = true := by decide +kernel

/-! ### Assembler text (30_encoding.md R98 to R100) -/

theorem test_assemble : assemblePacket "WRITE 1, [0x06, 0xDB]".toList = some [0x03, 0x01, 0x02, 0x06, 0xDB] := by
  decide +kernel

theorem test_assemble_default : assemblePacket "NUMBERS -5, 11".toList
    = some [0x22, 0xFB, 0xFF, 0xFF, 0xFF, 0x0B, 0x00, 0x00, 0x00, 0x01] := by decide +kernel

/-- Log entry 14: a single quote as a character piece, both ways; no double quote in a string. -/
theorem test_assemble_quote : assemblePacket ['E', 'N', 'C', 'C', ' ', '\'', '\'', '\''] = some [0x11, 0x27] ∧
    disassemblePacket [0x11, 0x27] = some ['E', 'N', 'C', 'C', ' ', '\'', '\'', '\''] ∧
    disassemblePacket [0x12, 0x01, 0x22] = none := by decide +kernel

theorem test_disassemble : disassemblePacket [0x24, 0xFA, 0x00, 0x02, 0x61, 0x62]
    = some ['S', 'C', 'R', 'O', 'L', 'L', ' ', '2', '5', '0', ',', ' ', '"', 'a', 'b', '"'] := by decide +kernel

/-! ### Witnesses: the hypotheses of each statement can be met together -/

theorem witness_DecodeEncodeRoundTrip : (Instr.write 3 (List.replicate 255 0xFF)).wellFormed = true := by
  decide +kernel

theorem witness_DecodedPacketIsCanonicalButForTruth : decode [0x03, 0x00, 0x01, 0x06] = .ok (.write 0 [0x06]) ∧
    (∀ v, Instr.write 0 [0x06] ≠ .clear v) ∧ (∀ v, Instr.write 0 [0x06] ≠ .colon v) ∧
    (∀ a b v, Instr.write 0 [0x06] ≠ .numbers a b v) ∧ decode [0x01, 0x05] = .ok (.clear true) ∧
    decode [0x02, 0x80] = .ok (.colon true) ∧
    decode [0x22, 0x05, 0x00, 0x00, 0x00, 0x07, 0x00, 0x00, 0x00, 0xFF] = .ok (.numbers 5 7 true) :=
  ⟨by decide, nofun, nofun, nofun, by decide, by decide, by decide⟩

theorem witness_WrongLengthRejected : opcodeOf 0x03 = some .write ∧
    requiredLength Opcode.write.format [0x03, 0x00, 0x01] ≠ some 3 ∧
    requiredLength Opcode.write.format [0x03, 0x00] ≠ some 2 := by decide

theorem witness_ReservedOpcodesRejected :
    (0x00 : Byte).toNat ∉ [0x01, 0x02, 0x03, 0x10, 0x11, 0x12, 0x20, 0x21, 0x22, 0x23, 0x24] ∧
    (0x25 : Byte).toNat ∉ [0x01, 0x02, 0x03, 0x10, 0x11, 0x12, 0x20, 0x21, 0x22, 0x23, 0x24] := by decide

/-- An idle block with one packet waiting and a RESET after one boundary. -/
def waiting (p : Packet) : State := { State.reset with cmd := [p], resets := [1] }

theorem witness_StepRunsDecodedCommand : (waiting [0x10, 0x07]).seq = .idle ∧
    (waiting [0x10, 0x07]).cmd = [0x10, 0x07] :: [] ∧ decode [0x10, 0x07] = .ok (.encd 0x07) ∧
    (waiting [0x10, 0x07]).resets = (0 + 1) :: [] ∧ ((waiting [0x10, 0x07]).setResets []).resets = [] := by decide

theorem witness_StepAnswersBadCommand : (waiting [0x30]).seq = .idle ∧ (waiting [0x30]).cmd = [0x30] :: [] ∧
    decode [0x30] = .error (.reservedOpcode 0x30) ∧ (waiting [0x30]).resets = 1 :: [] ∧
    ((waiting [0x30]).setResets []).resets = [] ∧ ((waiting [0x30]).setResets [2]).resets = (0 + 2) :: [] := by
  decide

theorem witness_StepWaits : State.reset.resets = [] ∧ State.reset.cmd = [] ∧
    (State.reset.setSeq .busy).resets = [] ∧ (State.reset.setSeq .busy).seq = .busy := by decide

theorem witness_StepTakesReset : (State.reset.setResets [0]).resets = 0 :: [] := by decide

theorem witness_HlineWritesItsRun : Memory.wf [(0, 0x01), (503, 0x80)] = true ∧ 83 < dark.width ∧
    47 < height dark ∧ fbBytes dark ≤ 504 ∧ (0 : Int) ≤ 0 := by decide

theorem witness_VlineWritesItsRun : Memory.wf [(0, 0x01), (504, 0x80)] = true ∧ 0 < dark.width ∧
    0 < height dark ∧ fbBytes dark ≤ 504 ∧ (-1 : Int) ≤ 0 := by decide

theorem witness_FillRectWritesItsRectangle : Memory.wf [(0, 0x01), (503, 0x80)] = true ∧ 83 < dark.width ∧
    47 < height dark ∧ fbBytes dark ≤ 504 ∧ ((0 : Int) ≤ 0 ∨ (1 : Int) ≤ 0) := by decide

theorem witness_FillWritesWholeBuffer : Memory.wf [(0, 0x01), (504, 0x80)] = true ∧ 503 < fbBytes dark := by
  decide

theorem witness_DrawingNeverCallsTransport : MicroOp.fill true ≠ .flush ∧
    (∀ ms, MicroOp.fill true ≠ .delay ms) ∧ State.reset.resets = [] := ⟨nofun, nofun, rfl⟩

/-- Byte 504 is no byte of a pixel. -/
theorem outside_screen {x y : Nat} (hx : x < dark.width) (hy : y < height dark) : 504 ≠ pixelIndex dark x y :=
  Nat.ne_of_gt (pixelIndex_lt hx hy)

theorem witness_GlyphShowsItsMask : Memory.wf [(0, 0x01)] = true ∧ 83 < dark.width ∧ 47 < 8 * dark.bands ∧
    7 < 8 ∧ 502 ≠ 47 / 8 * dark.width + 83 ∧ (dark.width : Int) ≤ 84 ∧ 46 < height dark ∧
    elementAt 3 82 46 = some 7 ∧ elementAt 3 83 47 = none ∧
    (∀ x y, x < dark.width → y < height dark → elementAt 3 x y ≠ none → 504 ≠ pixelIndex dark x y) :=
  ⟨by decide, by decide, by decide, by decide, by decide, by decide, by decide, by decide, by decide,
    fun _ _ hx hy _ => outside_screen hx hy⟩

theorem witness_ElementSetsDisjoint : inElement 7 ((82 : Nat) - slotX 3) (45 : Nat) = true ∧
    inElement 0 ((3 : Nat) - slotX 0) (0 : Nat) = true ∧ inColon 42 12 = true ∧ inColon 43 34 = true := by decide

theorem witness_WriteCompletes : (3 : Byte).toNat ≤ 3 ∧ [(0xFF : Byte), 0x06].length ≤ 255 ∧
    (ready .wide 2).resets = [] ∧ TransportOk (ready .wide 2) 2 := by unfold TransportOk; decide

theorem witness_WrittenPixels : Memory.wf [(0, 0x01)] = true ∧ 83 < dark.width ∧ 47 < height dark ∧
    (∀ j x y, j < [(0xFF : Byte)].length → x < dark.width → y < height dark → elementAt (3 + j) x y ≠ none →
      504 ≠ pixelIndex dark x y) :=
  ⟨by decide, by decide, by decide, fun _ _ _ _ hx hy _ => outside_screen hx hy⟩

theorem witness_PositionOutOfRangeExactly : (ready .wide 0).resets = [] ∧
    exec (.write 4 []) (ready .wide 0) = .next (finish [] (writeMasks 4 [] (ready .wide 0))) ∧
    3 < (4 : Byte).toNat := ⟨by decide, rfl, by decide⟩

theorem witness_WriteStopsAtFailingFlush : (3 : Byte).toNat ≤ 3 ∧ [(0xFF : Byte), 0x06].length ≤ 255 ∧
    (failing 1).resets = [] ∧ 1 < [(0xFF : Byte), 0x06].length ∧ TransportFails (failing 1) 1 0x5A := by
  unfold TransportFails TransportOk; decide

theorem witness_WritePastSlotThree : (3 : Byte).toNat ≤ 3 ∧ [(0xFF : Byte), 0xFF].length ≤ 255 ∧
    (ready .wide 2).resets = [] ∧ TransportOk (ready .wide 2) 2 ∧ (ready .wide 2).params.width ≤ 86 := by
  unfold TransportOk; decide

theorem witness_WriteLeavesOtherPixels : (ready .wide 1).resets = [] ∧ Memory.wf (ready .wide 1).fb = true ∧
    [(0xFF : Byte)].length ≤ 255 ∧
    exec (.write 3 [0xFF]) (ready .wide 1) = .next (finish [] (writeMasks 3 [0xFF] (ready .wide 1))) ∧
    40 < (ready .wide 1).params.width ∧ 0 < height (ready .wide 1).params ∧
    (∀ j, j < [(0xFF : Byte)].length → elementAt ((3 : Byte).toNat + j) 40 0 = none) ∧ inColon 42 12 = true ∧
    (∀ v, Instr.write 3 [0xFF] ≠ .clear v) ∧ inColon 40 47 = false ∧ (∀ n, elementAt n 40 47 = none) :=
  ⟨by decide, by decide, by decide, rfl, by decide, by decide, by decide, by decide, nofun, by decide, fun n => by
    simp [elementAt, List.range_succ, inElement]⟩

theorem witness_ColonCompletes : (tiny .wide 1).resets = [] ∧ xportAt (tiny .wide 1) 0 = .ok ∧
    (failing 0).resets = [] ∧ xportAt (failing 0) 0 = .ioError 0x5A := by decide

theorem witness_ColonPixels : Memory.wf [(0, 0x01)] = true ∧ 43 < dark.width ∧ 34 < height dark ∧
    inColon 43 34 = true ∧ inColon 43 35 = false ∧
    (∀ x y, x < dark.width → y < height dark → inColon x y = true → 504 ≠ pixelIndex dark x y) :=
  ⟨by decide, by decide, by decide, by decide, by decide, fun _ _ hx hy _ => outside_screen hx hy⟩

theorem witness_ClearCompletes : (tiny .wide 1).resets = [] ∧ Memory.wf (tiny .wide 1).fb = true ∧
    xportAt (tiny .wide 1) 0 = .ok ∧ (failing 0).resets = [] ∧ Memory.wf (failing 0).fb = true ∧
    xportAt (failing 0) 0 = .ioError 0x5A := by decide

theorem witness_TableContents : 15 < 16 := by decide

theorem witness_SupportedCharacters : 0x41 ≤ (0x5A : Byte).toNat ∧ (0x5A : Byte).toNat ≤ 0x5A ∧
    0x30 ≤ (0x39 : Byte).toNat ∧ (0x39 : Byte).toNat ≤ 0x39 ∧ 0x61 ≤ (0x7A : Byte).toNat ∧
    (0x7A : Byte).toNat ≤ 0x7A ∧ 0x61 ≤ (0x66 : Byte).toNat ∧ (0x66 : Byte).toNat ≤ 0x66 ∧
    0x41 ≤ (0x46 : Byte).toNat ∧ (0x46 : Byte).toNat ≤ 0x46 ∧ charIndex dark.variant 0x2A = some 38 := by decide

theorem witness_EncdCompletes : (ready .narrow 0).resets = [] := by decide

theorem witness_EnccCompletes : (ready .narrow 0).resets = [] ∧
    supported (ready .narrow 0).params.variant 0x46 = true ∧
    supported (ready .narrow 0).params.variant 0x47 = false := by decide

theorem witness_EncsWideCompletes : (ready .wide 0).params.variant = .wide ∧ (ready .wide 0).resets = [] ∧
    (∀ c ∈ [(0x7A : Byte), 0x2A], supported .wide c = true) ∧
    [(0x7A : Byte), 0x3F] = [0x7A] ++ 0x3F :: [] ∧ (∀ b ∈ [(0x7A : Byte)], supported .wide b = true) ∧
    supported .wide 0x3F = false := by decide

theorem witness_EncsNarrowCompletes : (ready .narrow 0).params.variant = .narrow ∧
    (ready .narrow 0).resets = [] ∧
    (∀ c ∈ [(0x31 : Byte), 0x32, 0x33, 0x34, 0x3F].take 4, supported .narrow c = true) ∧
    [(0x31 : Byte), 0x32, 0x33, 0x3F] = [0x31, 0x32, 0x33] ++ 0x3F :: [] ∧
    [(0x31 : Byte), 0x32, 0x33].length < 4 ∧ (∀ b ∈ [(0x31 : Byte), 0x32, 0x33], supported .narrow b = true) ∧
    supported .narrow 0x3F = false := by decide

theorem witness_EncodeCommandsArePure : isLookup (.encc 0x3F) = true ∧ (ready .wide 0).resets = [] ∧
    (tiny .wide 3).resets = [] ∧ (tiny .wide 3).params.variant = (ready .wide 0).params.variant ∧
    (tiny .wide 3).params.table = (ready .wide 0).params.table ∧
    exec (.write 4 []) (ready .wide 0) = .next (finish [] (writeMasks 4 [] (ready .wide 0))) :=
  ⟨by decide, by decide, by decide, by decide, by decide, rfl⟩

theorem witness_HexCompletes : (ready .narrow 4).resets = [] ∧ TransportOk (ready .narrow 4) 4 := by
  unfold TransportOk; decide

theorem witness_DecimalDigits : 9999 ≤ 9999 := by decide

theorem witness_NumberStringValue : (-999 : Int) ≤ -999 ∧ (9999 : Int) ≤ 9999 ∧ (-999 : Int) ≤ -1 ∧
    (-1 : Int) < 0 ∧ (0 : Int) ≤ 0 ∧ (0 : Int) ≤ 9999 := by decide

theorem witness_NumberCompletes : (ready .wide 4).resets = [] ∧ TransportOk (ready .wide 4) 4 := by
  unfold TransportOk; decide

theorem witness_NumbersCompletes : (ready .wide 5).resets = [] ∧ TransportOk (ready .wide 5) 5 ∧
    [(0x40 : Byte), 0x6D, 0x06, 0x06]
      = (numbersString (BitVec.ofInt 32 (-5)).toInt (11 : Word).toInt).map (maskOf (ready .wide 5).params) := by
  unfold TransportOk; decide

theorem witness_TempCompletes : (ready .wide 4).resets = [] ∧
    TransportOk (ready .wide 4) ([(0x38 : Byte), 0x3F].length + 2) ∧ (ready .wide 4).params.variant = .wide ∧
    [(0x38 : Byte), 0x3F] = (tempString (BitVec.ofInt 32 (-10)).toInt).map (maskOf (ready .wide 4).params) ∧
    (ready .narrow 6).resets = [] ∧
    TransportOk (ready .narrow 6) ([(0x40 : Byte), 0x6F, 0x00, 0x00].length + 2) ∧
    (ready .narrow 6).params.variant = .narrow ∧ -9 ≤ (BitVec.ofInt 32 (-9)).toInt ∧
    (BitVec.ofInt 32 (-9)).toInt ≤ 99 ∧ [(0x40 : Byte), 0x6F, 0x00, 0x00]
      = (tempString (BitVec.ofInt 32 (-9)).toInt).map (maskOf (ready .narrow 6).params) ++ [0x00, 0x00] := by
  unfold TransportOk; decide

theorem witness_TempFailsInNarrow : (ready .narrow 0).params.variant = .narrow ∧ (ready .narrow 0).resets = [] ∧
    (BitVec.ofInt 32 (-10)).toInt < -9 ∧ 99 < (100 : Word).toInt := by decide

theorem witness_ScrollWindowContents : 6 < [(0x77 : Byte), 0x7C].length + 5 := by decide

theorem witness_ScrollCompletes : encodeString (ready .wide 28).params [0x61, 0x62] = .ok [0x77, 0x7C] ∧
    (ready .wide 28).resets = [] ∧ TransportOk (ready .wide 28) 28 ∧ DelayOk (ready .wide 28) 7 := by
  unfold TransportOk DelayOk; decide

theorem witness_CharacterErrorsBeforeDrawing : (ready .wide 0).resets = [] ∧
    exec (.encc 0x3F) (ready .wide 0) = .next ((ready .wide 0).ended [] [0x02, 0x3F]) ∧
    ((ready .wide 0).ended [] [0x02, 0x3F]).out = (ready .wide 0).out ++ [] ++ [.response [0x02, 0x3F]] ∧
    responsesOf [] = [] ∧ encodeString (ready .wide 0).params [0x61, 0x3F] = .error 0x3F :=
  ⟨by decide, rfl, by decide, rfl, by decide⟩

theorem witness_FlushCounts : (ready .wide 2).resets = [] ∧ TransportOk (ready .wide 2) 1 ∧
    (3 : Byte).toNat ≤ 3 ∧ [(0xFF : Byte), 0xFF].length ≤ 255 ∧ TransportOk (ready .wide 2) 2 := by
  unfold TransportOk; decide

theorem witness_HelperFlushCounts : (ready .wide 28).resets = [] ∧ TransportOk (ready .wide 28) 28 ∧
    DelayOk (ready .wide 28) 7 ∧ (ready .wide 28).params.variant = .wide ∧ (ready .narrow 6).resets = [] ∧
    TransportOk (ready .narrow 6) 6 ∧ (ready .narrow 6).params.variant = .narrow ∧
    -9 ≤ (99 : Word).toInt ∧ (99 : Word).toInt ≤ 99 ∧
    encodeString (ready .wide 28).params [0x61, 0x62] = .ok [0x77, 0x7C] := by
  unfold TransportOk DelayOk; decide

theorem witness_ValidateBeforeMutate : (ready .wide 1).resets = [] ∧
    exec (.write 0 [0xFF]) (ready .wide 1) = .next (finish [] (writeMasks 0 [0xFF] (ready .wide 1))) ∧
    (State.reset.withFetchWord 8 0x30).seq = .idle ∧ (State.reset.withFetchWord 8 0x30).resets = [] ∧
    (State.reset.withFetchWord 8 0x30).cmd = [0x30] :: [] ∧ decode [0x30] = .error (.reservedOpcode 0x30) :=
  ⟨by decide, rfl, by decide, by decide, by decide, by decide⟩

theorem witness_IoErrorEndsCommand : (failing 1).resets = [] ∧ TransportFails (failing 1) 1 0x5A ∧
    exec (.write 0 [0xFF, 0x06]) (failing 1) = .next (finish [] (writeMasks 0 [0xFF, 0x06] (failing 1))) :=
  ⟨by decide, by unfold TransportFails TransportOk; decide, rfl⟩

/-- A block that a RESET reaches after 23 boundaries, and another one right after it. -/
def resetSoon : State := { tiny .wide 1 with resets := [23, 0] }

/-- The RESET comes before the response, after all 23 micro-operations and the one flush. -/
theorem witness_EveryCommandEndsOneWay : (Instr.write 0 [0xFF]).wellFormed = true ∧ resetSoon.resets = 23 :: [0] ∧
    23 ≤ (script resetSoon.params (.write 0 [0xFF])).length ∧
    flushCount ((script resetSoon.params (.write 0 [0xFF])).take 23) = 1 ∧
    delayCount ((script resetSoon.params (.write 0 [0xFF])).take 23) = 0 ∧ TransportOk resetSoon 1 ∧
    DelayOk resetSoon 0 ∧
    exec (.write 0 [0xFF]) resetSoon = .next (finish [] (writeMasks 0 [0xFF] resetSoon)) :=
  ⟨by decide, by decide, by decide, by decide, by decide, by unfold TransportOk; decide,
    by unfold DelayOk; decide, rfl⟩

theorem reset_inv : Inv State.reset where
  canonical := rfl
  bounded := rfl
  cursor := by decide
  frames := by decide
  responses := by decide

/-- A state with outputs and pixels that meets the invariant, and a step from it. -/
def drawn : State := { tiny .wide 1 with
  fb := [(0, 0x01)], cur := 258, out := [.frame [0x01], .response [0x00]], cmd := [[0x01, 0x01]] }

theorem witness_InvariantKept : Inv drawn ∧ step drawn = exec (.clear true) (drawn.accept []) :=
  ⟨{ canonical := by decide, bounded := by decide, cursor := by decide, frames := by decide,
     responses := by decide }, rfl⟩

theorem witness_ParamsAndOutputsKept : step drawn = exec (.clear true) (drawn.accept []) ∧
    exec (.clear true) (drawn.accept []) = .next (finish [] (runOps (clearOps true) (drawn.accept []))) :=
  ⟨rfl, rfl⟩

theorem witness_EarlierCommandsLeaveOnlyFb : drawn.params = (drawn.setCur 0).params ∧
    drawn.fb = (drawn.setCur 0).fb ∧ drawn.xport = (drawn.setCur 0).xport ∧
    drawn.xportDraws = (drawn.setCur 0).xportDraws ∧ drawn.dly = (drawn.setCur 0).dly ∧
    drawn.dlyDraws = (drawn.setCur 0).dlyDraws ∧ drawn.resets = (drawn.setCur 0).resets ∧
    exec (.encd 7) drawn = .next (drawn.ended [] [0x00, 0x07]) ∧
    exec (.encd 7) (drawn.setCur 0) = .next ((drawn.setCur 0).ended [] [0x00, 0x07]) :=
  ⟨rfl, rfl, rfl, rfl, rfl, rfl, rfl, rfl, rfl⟩

theorem witness_VariantDoesNotTouchCompositor :
    ((∃ c, Instr.colon true = .clear c) ∨ (∃ c, Instr.colon true = .colon c) ∨
      ∃ pos masks, Instr.colon true = .write pos masks) ∧
    exec (.colon true) (ready .wide 1) = .next (finish [] (drawColon true (ready .wide 1))) :=
  ⟨.inr (.inl ⟨true, rfl⟩), rfl⟩

/-- The picture of a dark screen. -/
def darkPicture : Picture := { background := false, slots := Vector.replicate 4 none, colon := none }

theorem dark_shows : Shows dark [] darkPicture := by
  intro x y _ _
  have hs : ∀ k : Fin 4, darkPicture.slots[k.val] = none := by intro k; simp [darkPicture]
  have hp : getPixel dark [] x y = false := by simp [getPixel, readByte, unlisted]
  rw [hp]
  unfold Picture.pixel
  split
  · rfl
  · split
    · rfl
    · next n _ => rw [hs n]; rfl

theorem witness_PictureFollowsCommands : (Instr.encd 7).wellFormed = true ∧ (ready .wide 0).resets = [] ∧
    Memory.wf (ready .wide 0).fb = true ∧ (ready .wide 0).params.width ≤ 86 ∧
    exec (.encd 7) (ready .wide 0) = .next ((ready .wide 0).ended [] [0x00, 0x07]) ∧
    ((ready .wide 0).ended [] [0x00, 0x07]).out = (ready .wide 0).out ++ [] ++ [.response (0x00 :: [0x07])] ∧
    responsesOf [] = [] ∧ Shows (ready .wide 0).params (ready .wide 0).fb darkPicture :=
  ⟨rfl, rfl, rfl, by decide, rfl, rfl, rfl, dark_shows⟩

theorem witness_LastFrameShowsBuffer : (failing 0).resets = [] ∧
    exec (.clear true) (failing 0) = .next (finish [] (runOps (clearOps true) (failing 0))) ∧
    (finish [] (runOps (clearOps true) (failing 0))).out
      = (failing 0).out ++ [.frame [0xFF], .response [0x03, 0x5A]] ∧
    framesOf [.frame [0xFF], .response [0x03, 0x5A]] ≠ [] := ⟨rfl, rfl, by decide +kernel, by decide⟩

theorem witness_AssemblerReadsItsTokens : (Instr.write 0 [0x06]).wellFormed = true ∧
    [(0x06 : Byte)].length ≤ 255 := by decide

end Sys2Proof.Machine.Tests
end

section
/-! The encode commands only look masks up (41_segment_table.md R130). No command reads the outputs already made or
the sequencer, so one that follows a lookup takes the course it would have taken without it. -/

namespace Sys2Proof.Machine

/-! ### Other outputs before a command -/

/-- `s` with the outputs `pre` made before its own. -/
def State.preceded (pre : List Output) (s : State) : State := { s with out := pre ++ s.out }

/-- `s` with the outputs `pre` made before its own, and the sequencer at `q`. -/
def State.rebased (pre : List Output) (q : Sequencer) (s : State) : State := (s.preceded pre).setSeq q

/-- A command's progress when it started with other outputs and another sequencer value. A command that has gone
silent has set the sequencer itself. -/
def Progress.rebased (pre : List Output) (q : Sequencer) : Progress → Progress
  | .running s => .running (s.rebased pre q)
  | .raised e s => .raised e (s.rebased pre q)
  | .silent s => .silent (s.preceded pre)

theorem State.preceded_emit (pre : List Output) (s : State) (o : Output) :
    (s.preceded pre).emit o = (s.emit o).preceded pre := by
  simp [State.preceded, State.emit]

theorem State.rebased_emit (pre : List Output) (q : Sequencer) (s : State) (o : Output) :
    (s.rebased pre q).emit o = (s.emit o).rebased pre q :=
  congrArg (State.setSeq · q) (s.preceded_emit pre o)

theorem andThen_rebased {pre : List Output} {q : Sequencer} {f : State → Progress}
    (hf : ∀ s, f (s.rebased pre q) = (f s).rebased pre q) (r : Progress) :
    (r.rebased pre q).andThen f = (r.andThen f).rebased pre q := by
  cases r with
  | running s => exact hf s
  | raised e s => rfl
  | silent s => rfl

/-- A due RESET sets the sequencer itself; no other boundary looks at more than the RESETs to come. -/
theorem boundary_rebased (pre : List Output) (q : Sequencer) (s : State) :
    boundary (s.rebased pre q) = (boundary s).rebased pre q := by
  obtain ⟨_, _, _, _, _, _, _, _, _, _, resets⟩ := s
  match resets with
  | [] => rfl
  | 0 :: _ => rfl
  | (_ + 1) :: _ => rfl

theorem boundary_ne_raised (s : State) (e : Err) (t : State) : boundary s ≠ .raised e t := by
  unfold boundary
  split <;> nofun

theorem delay_of_never {s : State} (ms : Half) (h : dlyAt s 0 = .never) :
    delay ms s = .silent (((usedDly s 1).emit (.delay ms)).setSeq .busy) := by
  have ha : (s.emit (.delay ms)).dlyAnswer = .never := by rw [dlyAnswer_eq]; exact h
  unfold delay
  dsimp only
  rw [ha, dlyNext_eq]
  rfl

theorem flush_rebased (pre : List Output) (q : Sequencer) (s : State) :
    flush (s.rebased pre q) = (flush s).rebased pre q := by
  have hemit := (usedXport s 1).rebased_emit pre q (.frame (frameOf s.params s.fb))
  cases h : xportAt s 0 with
  | ok =>
    rw [flush_of_ok h, flush_of_ok (s := s.rebased pre q) h]
    exact congrArg Progress.running hemit
  | ioError e =>
    rw [flush_of_ioError h, flush_of_ioError (s := s.rebased pre q) h]
    exact congrArg (Progress.raised (.ioError e)) hemit
  | never =>
    rw [flush_of_never h, flush_of_never (s := s.rebased pre q) h]
    exact congrArg (fun t => Progress.silent (t.setSeq .busy)) hemit

theorem delay_rebased (ms : Half) (pre : List Output) (q : Sequencer) (s : State) :
    delay ms (s.rebased pre q) = (delay ms s).rebased pre q := by
  have hemit := (usedDly s 1).rebased_emit pre q (.delay ms)
  cases h : dlyAt s 0 with
  | done =>
    rw [delay_of_done ms h, delay_of_done (s := s.rebased pre q) ms h]
    exact congrArg Progress.running hemit
  | never =>
    rw [delay_of_never ms h, delay_of_never (s := s.rebased pre q) ms h]
    exact congrArg (fun t => Progress.silent (t.setSeq .busy)) hemit

theorem perform_rebased (o : MicroOp) (pre : List Output) (q : Sequencer) (s : State) :
    perform o (s.rebased pre q) = (perform o s).rebased pre q := by
  cases o with
  | hline => rfl
  | vline => rfl
  | fillRect => rfl
  | fill => rfl
  | flush => exact flush_rebased pre q s
  | delay ms => exact delay_rebased ms pre q s

theorem runOp_rebased (o : MicroOp) (pre : List Output) (q : Sequencer) (s : State) :
    runOp o (s.rebased pre q) = (runOp o s).rebased pre q := by
  unfold runOp
  rw [boundary_rebased]
  exact andThen_rebased (perform_rebased o pre q) _

theorem runOps_rebased (os : List MicroOp) (pre : List Output) (q : Sequencer) (s : State) :
    runOps os (s.rebased pre q) = (runOps os s).rebased pre q := by
  induction os generalizing s with
  | nil => rfl
  | cons o os ih =>
    unfold runOps
    rw [runOp_rebased]
    exact andThen_rebased ih _

theorem drawMasks_rebased (ms : List Byte) (pre : List Output) (q : Sequencer) (s : State) :
    drawMasks ms (s.rebased pre q) = (drawMasks ms s).rebased pre q := by
  induction ms generalizing s with
  | nil => rfl
  | cons m ms ih =>
    have hnext : drawNext m (s.rebased pre q) = (drawNext m s).rebased pre q := by
      unfold drawNext
      rw [runOps_rebased]
      exact andThen_rebased (fun _ => rfl) _
    unfold drawMasks
    rw [hnext]
    exact andThen_rebased ih _

theorem writeMasks_rebased (pos : Byte) (ms : List Byte) (pre : List Output) (q : Sequencer) (s : State) :
    writeMasks pos ms (s.rebased pre q) = (writeMasks pos ms s).rebased pre q := by
  unfold writeMasks
  split
  · rfl
  · exact drawMasks_rebased ms pre q (s.setCur (pos.setWidth 16))

theorem scrollLoop_rebased (ms : Half) (ws : List (List Byte)) (pre : List Output) (q : Sequencer) (s : State) :
    scrollLoop ms ws (s.rebased pre q) = (scrollLoop ms ws s).rebased pre q := by
  induction ws generalizing s with
  | nil => rfl
  | cons w ws ih =>
    unfold scrollLoop
    rw [writeMasks_rebased, andThen_rebased (runOp_rebased _ pre q)]
    exact andThen_rebased ih _

theorem encodeThen_of_ok {str ms : List Byte} {s : State} (f : List Byte → State → Progress)
    (h : encodeString s.params str = .ok ms) : encodeThen str f s = f ms s := by
  unfold encodeThen; rw [h]

theorem encodeThen_of_error {str : List Byte} {c : Byte} {s : State} (f : List Byte → State → Progress)
    (h : encodeString s.params str = .error c) : encodeThen str f s = .raised (.characterOutOfRange c) s := by
  unfold encodeThen; rw [h]

theorem encodeThen_rebased {f : List Byte → State → Progress} (str : List Byte) {pre : List Output}
    {q : Sequencer} (hf : ∀ ms s, f ms (s.rebased pre q) = (f ms s).rebased pre q) (s : State) :
    encodeThen str f (s.rebased pre q) = (encodeThen str f s).rebased pre q := by
  cases h : encodeString s.params str with
  | error c =>
    rw [encodeThen_of_error f h, encodeThen_of_error (s := s.rebased pre q) f h]
    rfl
  | ok ms =>
    rw [encodeThen_of_ok f h, encodeThen_of_ok (s := s.rebased pre q) f h]
    exact hf ms s

/-! ### Other outputs before a whole command -/

/-- The response sets the sequencer, and so does a RESET before it: only the outputs tell the two ends apart. -/
theorem respond_rebased (bytes : Packet) (pre : List Output) (q : Sequencer) (s : State) :
    respond bytes (s.rebased pre q) = (respond bytes s).preceded pre := by
  have hemit (t : State) : ((t.rebased pre q).emit (.response bytes)).setSeq .idle
      = ((t.emit (.response bytes)).setSeq .idle).preceded pre :=
    congrArg (State.setSeq · .idle) (t.rebased_emit pre q (.response bytes))
  unfold respond
  rw [boundary_rebased]
  cases h : boundary s with
  | running t => exact hemit t
  | raised e t => exact absurd h (boundary_ne_raised s e t)
  | silent t => rfl

theorem finish_rebased (payload : List Byte) (pre : List Output) (q : Sequencer) (r : Progress) :
    finish payload (r.rebased pre q) = (finish payload r).preceded pre := by
  cases r with
  | running s => exact respond_rebased (okResponse payload) pre q s
  | raised e s => exact respond_rebased (errResponse e) pre q s
  | silent s => rfl

theorem next_finish_rebased (payload : List Byte) {pre : List Output} {q : Sequencer} {r r' : Progress}
    (h : r' = r.rebased pre q) :
    Host.Outcome.next (φ := Fault) (ρ := Refusal) (finish payload r') = .next ((finish payload r).preceded pre) := by
  rw [h, finish_rebased]

/-! ### Lookups -/

theorem isLookup_iff {i : Instr} :
    isLookup i = true ↔ (∃ n, i = .encd n) ∨ (∃ c, i = .encc c) ∨ ∃ cs, i = .encs cs := by
  cases i <;> simp [isLookup]

/-- The payload of a lookup, or the first unsupported character (R125 to R128); no other command has one. -/
def lookupResult (p : Params) : Instr → Except Byte (List Byte)
  | .encd n => .ok [tableMask p (lowNibble n)]
  | .encc c => (encodeChar p c).map fun m => [m]
  | .encs cs => (encodeString p cs).map fun ms => BitVec.ofNat 8 ms.length :: ms
  | _ => .ok []

/-- The response of a lookup (R94). -/
def lookupResponse (p : Params) (i : Instr) : Packet :=
  match lookupResult p i with
  | .ok payload => okResponse payload
  | .error c => errResponse (.characterOutOfRange c)

/-- A lookup is its response and nothing else, with RESETs to come or without (R130). -/
theorem exec_of_isLookup {i : Instr} (h : isLookup i = true) (s : State) :
    exec i s = .next (respond (lookupResponse s.params i) s) := by
  obtain ⟨n, rfl⟩ | ⟨c, rfl⟩ | ⟨cs, rfl⟩ := isLookup_iff.mp h
  · rfl
  · simp only [exec, execEncc, lookupResponse, lookupResult]
    cases encodeChar s.params c <;> rfl
  · simp only [exec, execEncs, lookupResponse, lookupResult]
    cases encodeString s.params cs <;> rfl

theorem exec_of_isLookup_noReset {i : Instr} (h : isLookup i = true) {s : State} (hr : s.resets = []) :
    exec i s = .next (s.ended [] (lookupResponse s.params i)) := by
  rw [exec_of_isLookup h, respond_of_noReset _ hr]
  rfl

/-- A lookup calls no transport, so its status byte is never that of IoError. -/
theorem lookupResponse_ne_ioError (p : Params) (i : Instr) (e : Byte) : lookupResponse p i ≠ [0x03, e] := by
  unfold lookupResponse
  cases lookupResult p i <;> simp [okResponse, errResponse]

section SameTable

variable {p p' : Params} (hv : p.variant = p'.variant) (ht : p.table = p'.table)

include hv ht

theorem tableMask_congr (k : Nat) : tableMask p k = tableMask p' k := by
  unfold tableMask tableMasks
  rw [hv, ht]

theorem encodeChar_congr (c : Byte) : encodeChar p c = encodeChar p' c := by
  unfold encodeChar
  simp only [hv, tableMask_congr hv ht]

theorem encodeAll_congr (cs : List Byte) : encodeAll p cs = encodeAll p' cs := by
  induction cs with
  | nil => rfl
  | cons c cs ih =>
    unfold encodeAll
    rw [encodeChar_congr hv ht, ih]

theorem encodeString_congr (cs : List Byte) : encodeString p cs = encodeString p' cs := by
  unfold encodeString
  simp only [hv, encodeAll_congr hv ht]

/-- Of the parameters a lookup reads VARIANT and TABLE alone (R130). -/
theorem lookupResponse_congr (i : Instr) : lookupResponse p i = lookupResponse p' i := by
  have hresult : lookupResult p i = lookupResult p' i := by
    unfold lookupResult
    simp only [tableMask_congr hv ht, encodeChar_congr hv ht, encodeString_congr hv ht]
  unfold lookupResponse
  rw [hresult]

end SameTable

/-! ### Every command reads neither the outputs before it nor the sequencer -/

theorem exec_lookup_rebased {i : Instr} (h : isLookup i = true) (pre : List Output) (q : Sequencer) (s : State) :
    ∃ u, exec i s = .next u ∧ exec i (s.rebased pre q) = .next (u.preceded pre) :=
  ⟨_, exec_of_isLookup h s, by rw [exec_of_isLookup h, respond_rebased]; rfl⟩

theorem exec_rebased (i : Instr) (pre : List Output) (q : Sequencer) (s : State) :
    ∃ u, exec i s = .next u ∧ exec i (s.rebased pre q) = .next (u.preceded pre) := by
  cases i with
  | clear color => exact ⟨_, rfl, next_finish_rebased [] (runOps_rebased (clearOps color) pre q s)⟩
  | colon on => exact ⟨_, rfl, next_finish_rebased [] (runOps_rebased (colonOps on) pre q s)⟩
  | write pos masks => exact ⟨_, rfl, next_finish_rebased [] (writeMasks_rebased pos masks pre q s)⟩
  | encd n => exact exec_lookup_rebased rfl pre q s
  | encc c => exact exec_lookup_rebased rfl pre q s
  | encs cs => exact exec_lookup_rebased rfl pre q s
  | hex v => exact ⟨_, rfl, next_finish_rebased [] (writeMasks_rebased 0 (hexMasks s.params v) pre q s)⟩
  | number v =>
    exact ⟨_, rfl, next_finish_rebased []
      (encodeThen_rebased _ (fun ms t => writeMasks_rebased 0 ms pre q t) s)⟩
  | numbers a b colon =>
    have hdraw (ms : List Byte) (t : State) :
        (writeMasks 0 ms (t.rebased pre q)).andThen (drawColon colon)
          = ((writeMasks 0 ms t).andThen (drawColon colon)).rebased pre q := by
      rw [writeMasks_rebased]
      exact andThen_rebased (runOps_rebased (colonOps colon) pre q) _
    exact ⟨_, rfl, next_finish_rebased [] (encodeThen_rebased _ hdraw s)⟩
  | temp v =>
    have hdraw (ms : List Byte) (t : State) :
        (writeMasks 0 ms (t.rebased pre q)).andThen (writeMasks 2 degreeC)
          = ((writeMasks 0 ms t).andThen (writeMasks 2 degreeC)).rebased pre q := by
      rw [writeMasks_rebased]
      exact andThen_rebased (writeMasks_rebased 2 degreeC pre q) _
    exact ⟨_, rfl, next_finish_rebased [] (encodeThen_rebased _ hdraw s)⟩
  | scroll delayMs str =>
    exact ⟨_, rfl, next_finish_rebased []
      (encodeThen_rebased str (fun ms t => scrollLoop_rebased delayMs (scrollWindows ms) pre q t) s)⟩

/-- Two runs of a command from states that differ in their outputs and sequencer only: both add the same outputs
and agree in all else. -/
theorem exec_of_other_outputs {i : Instr} {s u : State} (h : exec i s = .next u) (pre : List Output)
    (q : Sequencer) :
    ∃ os, u.out = s.out ++ os ∧ exec i { s with out := pre, seq := q } = .next { u with out := pre ++ os } := by
  have hs (before : List Output) (q' : Sequencer) :
      State.rebased before q' { s with out := [] } = { s with out := before, seq := q' } := by
    simp [State.rebased, State.preceded, State.setSeq]
  obtain ⟨v, hv, hsame⟩ := exec_rebased i s.out s.seq { s with out := [] }
  obtain ⟨w, hw, hother⟩ := exec_rebased i pre q { s with out := [] }
  rw [hs] at hsame hother
  cases hv.symm.trans hw
  cases h.symm.trans hsame
  exact ⟨v.out, rfl, hother⟩

/-- Settles O34: a lookup is its response alone, and what follows it reads neither that response nor the
sequencer. -/
theorem encodeCommandsArePure : Obligations.EncodeCommandsArePure := by
  intro i s hi hr
  refine ⟨lookupResponse s.params i, exec_of_isLookup_noReset hi hr, lookupResponse_ne_ioError s.params i, ?_, ?_⟩
  · intro s' hr' hv ht
    rw [exec_of_isLookup_noReset hi hr', lookupResponse_congr hv ht]
  · intro j u hu
    obtain ⟨os, hout, hafter⟩ := exec_of_other_outputs hu (s.out ++ [.response (lookupResponse s.params i)]) .idle
    exact ⟨_, os, hafter, rfl, rfl, rfl, rfl, hout, rfl⟩

end Sys2Proof.Machine
end

section
/-! The drawing primitives HLINE, VLINE, FILL_RECT and FILL (42_rasterizer.md R142 to R145, R148). Each of the first
three is SetPixel over its pixel set, so it writes that set on the screen and no byte outside FB. FILL writes bytes;
it is compared with FILL_RECT by pixels, because every byte of FB is eight pixels of the screen. -/

namespace Sys2Proof.Machine

/-! ### Bytes of FB and pixels of the screen -/

/-- Every bit of every byte of FB is a pixel of the screen (20_memory.md R51). -/
theorem exists_pixel_of_bit {p : Params} {a k : Nat} (ha : a < fbBytes p) (hk : k < 8) :
    ∃ x y, x < p.width ∧ y < height p ∧ pixelIndex p x y = a ∧ pixelBit y = k := by
  have hw : 0 < p.width := Nat.pos_of_mul_pos_right (Nat.zero_lt_of_lt ha)
  have hband : a / p.width < p.bands := Nat.div_lt_of_lt_mul ha
  refine ⟨a % p.width, 8 * (a / p.width) + k, Nat.mod_lt a hw, ?_, ?_, ?_⟩
  · unfold height
    omega
  · rw [pixelIndex, Nat.mul_add_div (by decide), Nat.div_eq_of_lt hk, Nat.add_zero, Nat.div_add_mod']
  · rw [pixelBit, Nat.mul_add_mod, Nat.mod_eq_of_lt hk]

/-- Buffers with the same pixels on the screen have the same bytes of FB. -/
theorem readByte_eq_of_getPixel_eq {p : Params} {m m' : List Host.Cell}
    (h : ∀ x y, x < p.width → y < height p → getPixel p m x y = getPixel p m' x y) {a : Nat} (ha : a < fbBytes p) :
    readByte m a = readByte m' a := by
  refine BitVec.eq_of_getLsbD_eq fun k hk => ?_
  obtain ⟨x, y, hx, hy, rfl, rfl⟩ := exists_pixel_of_bit ha hk
  exact h x y hx hy

/-- SetPixel over any pixels writes no byte outside FB (20_memory.md R57). -/
theorem readByte_setPixels_outside {p : Params} (v : Bool) (pts : List (Int × Int)) {m : List Host.Cell}
    (h : Memory.wf m = true) {a : Nat} (ha : fbBytes p ≤ a) : readByte (setPixels p v pts m) a = readByte m a := by
  refine readByte_setPixels_of_ne v pts h fun q _ hq => ?_
  rw [onScreen_iff] at hq
  have hlt : pixelIndex p q.1.toNat q.2.toNat < fbBytes p := pixelIndex_lt (by omega) (by omega)
  omega

/-! ### HLINE, VLINE, FILL_RECT -/

theorem getPixel_hline {p : Params} (x y len : Int) (v : Bool) {m : List Host.Cell} (h : Memory.wf m = true)
    {x' y' : Nat} (hx : x' < p.width) (hy : y' < height p) :
    getPixel p (hline p x y len v m) x' y'
      = if (y' : Int) = y ∧ x ≤ x' ∧ (x' : Int) < x + len then v else getPixel p m x' y' := by
  simp only [hline, getPixel_setPixels v _ h hx hy, mem_hlinePixels]

theorem getPixel_vline {p : Params} (x y len : Int) (v : Bool) {m : List Host.Cell} (h : Memory.wf m = true)
    {x' y' : Nat} (hx : x' < p.width) (hy : y' < height p) :
    getPixel p (vline p x y len v m) x' y'
      = if (x' : Int) = x ∧ y ≤ y' ∧ (y' : Int) < y + len then v else getPixel p m x' y' := by
  simp only [vline, getPixel_setPixels v _ h hx hy, mem_vlinePixels]

theorem getPixel_fillRect {p : Params} (x y w ht : Int) (v : Bool) {m : List Host.Cell} (h : Memory.wf m = true)
    {x' y' : Nat} (hx : x' < p.width) (hy : y' < height p) :
    getPixel p (fillRect p x y w ht v m) x' y'
      = if x ≤ x' ∧ (x' : Int) < x + w ∧ y ≤ y' ∧ (y' : Int) < y + ht then v else getPixel p m x' y' := by
  simp only [fillRect, getPixel_setPixels v _ h hx hy, mem_rectPixels]

theorem hlinePixels_of_nonpos {x y len : Int} (h : len ≤ 0) : hlinePixels x y len = [] := by
  refine List.eq_nil_iff_forall_not_mem.mpr fun q hq => ?_
  rw [mem_hlinePixels] at hq
  omega

theorem vlinePixels_of_nonpos {x y len : Int} (h : len ≤ 0) : vlinePixels x y len = [] := by
  refine List.eq_nil_iff_forall_not_mem.mpr fun q hq => ?_
  rw [mem_vlinePixels] at hq
  omega

theorem rectPixels_of_nonpos {x y w ht : Int} (h : w ≤ 0 ∨ ht ≤ 0) : rectPixels x y w ht = [] := by
  refine List.eq_nil_iff_forall_not_mem.mpr fun q hq => ?_
  rw [mem_rectPixels] at hq
  omega

/-- Settles O11: HLINE is SetPixel over its run. -/
theorem hlineWritesItsRun : Obligations.HlineWritesItsRun := by
  intro p x y len v m h
  refine ⟨fun x' y' hx hy => ?_, fun a ha => readByte_setPixels_outside v _ h ha, fun hlen => ?_⟩
  · rw [getPixel_hline x y len v h hx hy]
    simp only [Int.le_sub_one_iff]
  · rw [hline, hlinePixels_of_nonpos hlen]
    rfl

/-- Settles O12: VLINE is SetPixel over its run. -/
theorem vlineWritesItsRun : Obligations.VlineWritesItsRun := by
  intro p x y len v m h
  refine ⟨fun x' y' hx hy => ?_, fun a ha => readByte_setPixels_outside v _ h ha, fun hlen => ?_⟩
  · rw [getPixel_vline x y len v h hx hy]
    simp only [Int.le_sub_one_iff]
  · rw [vline, vlinePixels_of_nonpos hlen]
    rfl

/-- Settles O13: FILL_RECT is SetPixel over its rectangle. -/
theorem fillRectWritesItsRectangle : Obligations.FillRectWritesItsRectangle := by
  intro p x y w ht v m h
  refine ⟨fun x' y' hx hy => getPixel_fillRect x y w ht v h hx hy,
    fun a ha => readByte_setPixels_outside v _ h ha, fun hempty => ?_⟩
  rw [fillRect, rectPixels_of_nonpos hempty]
  rfl

/-! ### FILL -/

/-- The whole screen as a rectangle, which is what R145 compares FILL with. -/
theorem getPixel_fillRect_screen {p : Params} (v : Bool) {m : List Host.Cell} (h : Memory.wf m = true) {x y : Nat}
    (hx : x < p.width) (hy : y < height p) :
    getPixel p (fillRect p 0 0 p.width (height p) v m) x y = v := by
  rw [getPixel_fillRect _ _ _ _ v h hx hy, if_pos (by omega)]

/-- Settles O14: inside FB the pixels of the two buffers agree, outside it both are as before. -/
theorem fillWritesWholeBuffer : Obligations.FillWritesWholeBuffer := by
  intro p v m h
  refine ⟨fun a ha => ?_, fun a => ?_⟩
  · rw [readByte_fill v h, if_pos ha, fillByte]
  · by_cases ha : a < fbBytes p
    · refine readByte_eq_of_getPixel_eq (fun x y hx hy => ?_) ha
      rw [getPixel_fill v h hx hy, getPixel_fillRect_screen v h hx hy]
    · rw [readByte_fill v h, if_neg ha]
      exact (readByte_setPixels_outside v _ h (Nat.le_of_not_lt ha)).symm

/-! ### Drawing and the transport -/

/-- Only the flush and the delay request are no drawing micro-operations (R140, R148). -/
theorem draws_of_ne {o : MicroOp} (hf : o ≠ .flush) (hd : ∀ ms, o ≠ .delay ms) : o.draws = true := by
  cases o with
  | hline x y len v => rfl
  | vline x y len v => rfl
  | fillRect x y w ht v => rfl
  | fill v => rfl
  | flush => exact absurd rfl hf
  | delay ms => exact absurd rfl (hd ms)

/-- The first micro-operation of a list where no RESET is to come and it goes on. -/
theorem runOps_cons_of_running {o : MicroOp} {s t : State} (os : List MicroOp) (hr : s.resets = [])
    (h : perform o s = .running t) : runOps (o :: os) s = runOps os t := by
  rw [runOps, runOp_of_noReset o hr, h, Progress.running_andThen]

/-- A delay request uses no answer of the transport, whether the delay unit answers or not (44_format.md R199). -/
theorem delay_keeps_xport (ms : Half) (s : State) :
    (delay ms s).state.xport = s.xport ∧ (delay ms s).state.xportDraws = s.xportDraws := by
  cases h : dlyAt s 0 with
  | done =>
    rw [delay_of_done ms h]
    exact ⟨rfl, rfl⟩
  | never =>
    rw [delay_of_never ms h]
    exact ⟨rfl, rfl⟩

/-- Settles O15: drawing is one update of FB, and the micro-operations that follow start from its result. -/
theorem drawingNeverCallsTransport : Obligations.DrawingNeverCallsTransport := by
  intro o s hf hd
  have hrun : perform o s = .running (s.setFb (drawOn s.params o s.fb)) := perform_of_draws s (draws_of_ne hf hd)
  exact ⟨_, hrun, rfl, rfl, rfl, rfl, fun hr os => runOps_cons_of_running os hr hrun,
    fun ms => (delay_keeps_xport ms s).1⟩

end Sys2Proof.Machine
end

section
/-! How many frames the compositor commands hand over (43_composer.md R173). Each of the three, with its flushes
accepted, ends with Ok after the frames it made; the response is no frame, so the frame list has grown by those. -/

namespace Sys2Proof.Machine

/-! ### The compositor commands with their flushes accepted -/

/-- The end of a command that went through, with the outputs it made (30_encoding.md R94). -/
theorem finish_running_emits {s : State} (payload : List Byte) (os : List Output) (hr : s.resets = []) :
    finish payload (.running (s.emits os)) = s.ended os (okResponse payload) := by
  change respond (okResponse payload) (s.emits os) = _
  rw [respond_of_noReset _ (s := s.emits os) hr]
  simp [State.ended, State.emits, State.emit]

/-- CLEAR, its flush accepted (R172). -/
theorem exec_clear_of_ok {s : State} (color : Bool) (hr : s.resets = []) (hx : xportAt s 0 = .ok) :
    exec (.clear color) s = .next (((usedXport s 1).setFb (fill s.params color s.fb)).ended
      [.frame (frameOf s.params (fill s.params color s.fb))] (okResponse [])) := by
  change Host.Outcome.next (finish [] (runOps (clearOps color) s)) = _
  rw [runOps_clear color hr, flush_of_ok (s := s.setFb (fill s.params color s.fb)) hx, State.emit_eq,
    finish_running_emits]
  · rfl
  · exact hr

/-- COLON, its flush accepted (R171). -/
theorem exec_colon_of_ok {s : State} (on : Bool) (hr : s.resets = []) (hx : xportAt s 0 = .ok) :
    exec (.colon on) s = .next (((usedXport s 1).setFb (colonFb s.params on s.fb)).ended
      [.frame (frameOf s.params (colonFb s.params on s.fb))] (okResponse [])) := by
  change Host.Outcome.next (finish [] (drawColon on s)) = _
  rw [drawColon_of_ok on hr hx, finish_running_emits]
  exact hr

/-- WRITE with a legal position, every flush accepted (R167). -/
theorem exec_write_of_ok {s : State} (pos : Byte) (masks : List Byte) (hp : pos.toNat ≤ 3) (hr : s.resets = [])
    (hx : TransportOk s masks.length) (hl : masks.length ≤ maxLen) :
    exec (.write pos masks) s = .next ((((usedXport s masks.length).setFb
      (writtenFb s.params pos.toNat masks s.fb)).setCur (BitVec.ofNat 16 (pos.toNat + masks.length))).ended
      (writtenFrames s.params pos.toNat masks s.fb) (okResponse [])) := by
  change Host.Outcome.next (finish [] (writeMasks pos masks s)) = _
  rw [writeMasks_of_ok pos masks hp hr hx hl, finish_running_emits]
  exact hr

/-! ### Counting frames -/

theorem framesOf_append (os us : List Output) : framesOf (os ++ us) = framesOf os ++ framesOf us :=
  List.filterMap_append

/-- A command's response is no frame (R34). -/
theorem length_framesOf_ended (s : State) (os : List Output) (r : Packet) :
    (framesOf (s.ended os r).out).length = (framesOf s.out).length + (framesOf os).length := by
  have hresponse : framesOf [.response r] = [] := rfl
  rw [State.ended_out, framesOf_append, framesOf_append, hresponse, List.append_nil, List.length_append]

/-- One frame per mask drawn (R167). -/
theorem length_framesOf_writtenFrames (p : Params) (n : Nat) (masks : List Byte) (m : List Host.Cell) :
    (framesOf (writtenFrames p n masks m)).length = masks.length := by
  induction masks generalizing n m with
  | nil => rfl
  | cons k ks ih => exact congrArg (· + 1) (ih (n + 1) (glyphFb p k n m))

/-- Settles O47: the frames of each command counted at its end. -/
theorem flushCounts : Obligations.FlushCounts := by
  intro s hr
  refine ⟨fun color hx => ?_, fun on hx => ?_, fun pos masks hp hl hx => ?_⟩
  · exact ⟨_, exec_clear_of_ok color hr (hx 0 Nat.zero_lt_one), length_framesOf_ended _ _ _⟩
  · exact ⟨_, exec_colon_of_ok on hr (hx 0 Nat.zero_lt_one), length_framesOf_ended _ _ _⟩
  · refine ⟨_, exec_write_of_ok pos masks hp hr hx hl, ?_⟩
    rw [length_framesOf_ended, length_framesOf_writtenFrames]
    rfl

end Sys2Proof.Machine
end

section
/-! How a command can end (60_exceptions.md R221, R225). A position above 3 and an unsupported character are found
before anything is drawn. What runs after these checks draws, flushes and delays, so with no RESET to come it can
only go on, raise IoError, or wait for an answer that never comes. -/

namespace Sys2Proof.Machine

/-! ### What runs after the checks -/

/-- `t` is reached from `s` with no RESET to come, and no response was sent on the way. -/
def State.NoResponseTo (s t : State) : Prop :=
  t.resets = [] ∧ ∃ os, responsesOf os = [] ∧ t.out = s.out ++ os

theorem State.NoResponseTo.of_same_out {s t : State} (hr : t.resets = []) (ho : t.out = s.out) :
    s.NoResponseTo t :=
  ⟨hr, [], rfl, by rw [ho, List.append_nil]⟩

theorem State.NoResponseTo.of_output {s t : State} {o : Output} (hr : t.resets = []) (ho : t.out = s.out ++ [o])
    (hresponse : responsesOf [o] = []) : s.NoResponseTo t :=
  ⟨hr, [o], hresponse, ho⟩

theorem responsesOf_append (os us : List Output) : responsesOf (os ++ us) = responsesOf os ++ responsesOf us :=
  List.filterMap_append

theorem State.NoResponseTo.trans {s t u : State} (hst : s.NoResponseTo t) (htu : t.NoResponseTo u) :
    s.NoResponseTo u := by
  obtain ⟨-, os, hos, hout⟩ := hst
  obtain ⟨hr, us, hus, hout'⟩ := htu
  refine ⟨hr, os ++ us, ?_, ?_⟩
  · rw [responsesOf_append, hos, hus]
    rfl
  · rw [hout', hout, List.append_assoc]

/-- How far a command has come that has passed its checks in `s`: no error but IoError, and silent only while it
waits (R225 (b), 93 U8). -/
inductive PastChecks (s : State) : Progress → Prop where
  | running {t : State} (h : s.NoResponseTo t) : PastChecks s (.running t)
  | ioError {t : State} (e : Byte) (h : s.NoResponseTo t) : PastChecks s (.raised (.ioError e) t)
  | waiting {t : State} (h : s.NoResponseTo t) (hbusy : t.seq = .busy) : PastChecks s (.silent t)

theorem PastChecks.of_later {s t : State} {r : Progress} (hst : s.NoResponseTo t) (h : PastChecks t r) :
    PastChecks s r := by
  cases h with
  | running htu => exact .running (hst.trans htu)
  | ioError e htu => exact .ioError e (hst.trans htu)
  | waiting htu hbusy => exact .waiting (hst.trans htu) hbusy

theorem PastChecks.andThen {s : State} {r : Progress} {f : State → Progress} (h : PastChecks s r)
    (hf : ∀ t, t.resets = [] → PastChecks t (f t)) : PastChecks s (r.andThen f) := by
  cases h with
  | @running t h => exact .of_later h (hf t h.1)
  | ioError e h => exact .ioError e h
  | waiting h hbusy => exact .waiting h hbusy

theorem pastChecks_draw (o : MicroOp) {s : State} (hr : s.resets = []) : PastChecks s (draw o s) :=
  .running (.of_same_out hr rfl)

theorem pastChecks_flush {s : State} (hr : s.resets = []) : PastChecks s (flush s) := by
  cases h : xportAt s 0 with
  | ok =>
    rw [flush_of_ok h]
    exact .running (.of_output hr rfl rfl)
  | ioError e =>
    rw [flush_of_ioError h]
    exact .ioError e (.of_output hr rfl rfl)
  | never =>
    rw [flush_of_never h]
    exact .waiting (.of_output hr rfl rfl) rfl

theorem pastChecks_delay (ms : Half) {s : State} (hr : s.resets = []) : PastChecks s (delay ms s) := by
  cases h : dlyAt s 0 with
  | done =>
    rw [delay_of_done ms h]
    exact .running (.of_output hr rfl rfl)
  | never =>
    rw [delay_of_never ms h]
    exact .waiting (.of_output hr rfl rfl) rfl

theorem pastChecks_runOp (o : MicroOp) {s : State} (hr : s.resets = []) : PastChecks s (runOp o s) := by
  rw [runOp_of_noReset o hr]
  cases o with
  | hline => exact pastChecks_draw _ hr
  | vline => exact pastChecks_draw _ hr
  | fillRect => exact pastChecks_draw _ hr
  | fill => exact pastChecks_draw _ hr
  | flush => exact pastChecks_flush hr
  | delay ms => exact pastChecks_delay ms hr

theorem pastChecks_runOps (os : List MicroOp) {s : State} (hr : s.resets = []) : PastChecks s (runOps os s) := by
  induction os generalizing s with
  | nil => exact .running (.of_same_out hr rfl)
  | cons o os ih => exact (pastChecks_runOp o hr).andThen fun _ => ih

theorem pastChecks_setCur (c : Half) {s : State} (hr : s.resets = []) : PastChecks s (.running (s.setCur c)) :=
  .running (.of_same_out hr rfl)

theorem pastChecks_drawMasks (ms : List Byte) {s : State} (hr : s.resets = []) : PastChecks s (drawMasks ms s) := by
  induction ms generalizing s with
  | nil => exact .running (.of_same_out hr rfl)
  | cons m ms ih =>
    have hnext : PastChecks s (drawNext m s) :=
      (pastChecks_runOps _ hr).andThen fun t ht => pastChecks_setCur _ ht
    exact hnext.andThen fun _ => ih

theorem writeMasks_of_position {pos : Byte} (masks : List Byte) (s : State) (h : 3 < pos.toNat) :
    writeMasks pos masks s = .raised .positionOutOfRange s :=
  if_pos h

theorem pastChecks_writeMasks {pos : Byte} (masks : List Byte) (hpos : ¬ 3 < pos.toNat) {s : State}
    (hr : s.resets = []) : PastChecks s (writeMasks pos masks s) := by
  unfold writeMasks
  rw [if_neg hpos]
  exact (pastChecks_setCur _ hr).andThen fun _ => pastChecks_drawMasks masks

theorem pastChecks_scrollLoop (ms : Half) (ws : List (List Byte)) {s : State} (hr : s.resets = []) :
    PastChecks s (scrollLoop ms ws s) := by
  induction ws generalizing s with
  | nil => exact .running (.of_same_out hr rfl)
  | cons w ws ih =>
    have hwindow : PastChecks s ((writeMasks 0 w s).andThen (runOp (.delay ms))) :=
      (pastChecks_writeMasks w (by decide) hr).andThen fun _ => pastChecks_runOp _
    exact hwindow.andThen fun _ => ih

/-! ### How a command ends -/

/-- The ends of a command that has passed its checks in `s` (R225 (b)), and the wait for an answer that never
comes (93 U8). -/
inductive EndsPastChecks (s t : State) : Prop where
  | ok (os : List Output) (payload : List Byte) (hos : responsesOf os = [])
      (hout : t.out = s.out ++ os ++ [.response (okResponse payload)]) (hidle : t.seq = .idle)
  | ioError (os : List Output) (e : Byte) (hos : responsesOf os = [])
      (hout : t.out = s.out ++ os ++ [.response (errResponse (.ioError e))]) (hidle : t.seq = .idle)
  | waiting (os : List Output) (hos : responsesOf os = []) (hout : t.out = s.out ++ os) (hbusy : t.seq = .busy)

/-- Every end of a command; only WRITE has the first (R221, R225). -/
inductive CommandEnds (i : Instr) (s t : State) : Prop where
  | position (pos : Byte) (masks : List Byte) (hi : i = .write pos masks) (hpos : 3 < pos.toNat)
      (ht : t = s.ended [] (errResponse .positionOutOfRange))
  | character (c : Byte) (ht : t = s.ended [] (errResponse (.characterOutOfRange c)))
  | pastChecks (h : EndsPastChecks s t)

theorem respond_eq_ended {s : State} (bytes : Packet) (hr : s.resets = []) : respond bytes s = s.ended [] bytes :=
  respond_of_noReset bytes hr

theorem finish_of_pastChecks {s : State} {r : Progress} (payload : List Byte) (h : PastChecks s r) :
    EndsPastChecks s (finish payload r) := by
  cases h with
  | @running t h =>
    obtain ⟨hr, os, hos, hout⟩ := h
    have hend : finish payload (.running t) = t.ended [] (okResponse payload) := respond_eq_ended _ hr
    exact .ok os payload hos (by rw [hend, State.ended_out, hout]; rfl) (by rw [hend]; rfl)
  | @ioError t e h =>
    obtain ⟨hr, os, hos, hout⟩ := h
    have hend : finish payload (.raised (.ioError e) t) = t.ended [] (errResponse (.ioError e)) :=
      respond_eq_ended _ hr
    exact .ioError os e hos (by rw [hend, State.ended_out, hout]; rfl) (by rw [hend]; rfl)
  | waiting h hbusy =>
    obtain ⟨-, os, hos, hout⟩ := h
    exact .waiting os hos hout hbusy

/-- A command that encodes a string first: the unsupported character ends it before anything is drawn (R200). -/
theorem finish_encodeThen {i : Instr} {s : State} (str : List Byte) {f : List Byte → State → Progress}
    (hr : s.resets = []) (hf : ∀ ms, PastChecks s (f ms s)) : CommandEnds i s (finish [] (encodeThen str f s)) := by
  cases h : encodeString s.params str with
  | error c =>
    rw [encodeThen_of_error f h]
    exact .character c (respond_eq_ended _ hr)
  | ok ms =>
    rw [encodeThen_of_ok f h]
    exact .pastChecks (finish_of_pastChecks [] (hf ms))

theorem exec_lookup_ends {i : Instr} {s : State} (hi : isLookup i = true) (hr : s.resets = []) :
    ∃ t, exec i s = .next t ∧ CommandEnds i s t := by
  refine ⟨_, exec_of_isLookup_noReset hi hr, ?_⟩
  unfold lookupResponse
  cases lookupResult s.params i with
  | error c => exact .character c rfl
  | ok payload => exact .pastChecks (.ok [] payload rfl (by simp) rfl)

/-- WRITE with a position above 3 changes nothing but the response (R174, R221). -/
theorem exec_write_of_position {s : State} {pos : Byte} (masks : List Byte) (hr : s.resets = [])
    (hpos : 3 < pos.toNat) :
    exec (.write pos masks) s = .next (s.ended [] (errResponse .positionOutOfRange)) := by
  change Host.Outcome.next (finish [] (writeMasks pos masks s)) = _
  rw [writeMasks_of_position masks s hpos]
  exact congrArg Host.Outcome.next (respond_eq_ended _ hr)

theorem exec_write_ends {s : State} (pos : Byte) (masks : List Byte) (hr : s.resets = []) :
    ∃ t, exec (.write pos masks) s = .next t ∧ CommandEnds (.write pos masks) s t := by
  by_cases hpos : 3 < pos.toNat
  · exact ⟨_, exec_write_of_position masks hr hpos, .position pos masks rfl hpos rfl⟩
  · exact ⟨_, rfl, .pastChecks (finish_of_pastChecks [] (pastChecks_writeMasks masks hpos hr))⟩

theorem exec_ends (i : Instr) {s : State} (hr : s.resets = []) : ∃ t, exec i s = .next t ∧ CommandEnds i s t := by
  have hwrite0 (ms : List Byte) : PastChecks s (writeMasks 0 ms s) := pastChecks_writeMasks ms (by decide) hr
  cases i with
  | clear color => exact ⟨_, rfl, .pastChecks (finish_of_pastChecks [] (pastChecks_runOps _ hr))⟩
  | colon on => exact ⟨_, rfl, .pastChecks (finish_of_pastChecks [] (pastChecks_runOps _ hr))⟩
  | write pos masks => exact exec_write_ends pos masks hr
  | encd n => exact exec_lookup_ends rfl hr
  | encc c => exact exec_lookup_ends rfl hr
  | encs cs => exact exec_lookup_ends rfl hr
  | hex v => exact ⟨_, rfl, .pastChecks (finish_of_pastChecks [] (hwrite0 _))⟩
  | number v => exact ⟨_, rfl, finish_encodeThen _ hr hwrite0⟩
  | numbers a b colon =>
    exact ⟨_, rfl, finish_encodeThen _ hr fun ms => (hwrite0 ms).andThen fun _ => pastChecks_runOps _⟩
  | temp v =>
    exact ⟨_, rfl, finish_encodeThen _ hr fun ms =>
      (hwrite0 ms).andThen fun _ => pastChecks_writeMasks degreeC (by decide)⟩
  | scroll delayMs str => exact ⟨_, rfl, finish_encodeThen _ hr fun ms => pastChecks_scrollLoop delayMs _ hr⟩

theorem commandEnds_of_exec {i : Instr} {s t : State} (hr : s.resets = []) (h : exec i s = .next t) :
    CommandEnds i s t := by
  obtain ⟨u, hu, hends⟩ := exec_ends i hr
  cases h.symm.trans hu
  exact hends

/-! ### A packet that is no command -/

theorem resetLands_of_noReset {s : State} (hr : s.resets = []) : resetLands s = false := by
  unfold resetLands
  rw [hr]

/-- An idle block answers a packet that does not decode, and nothing else is new (R224). -/
theorem step_of_decode_error {s : State} {p : Packet} {rest : List Packet} {why : DecodeError}
    (hidle : s.seq = .idle) (hr : s.resets = []) (hcmd : s.cmd = p :: rest) (hdecode : decode p = .error why) :
    step s = .next ((s.accept rest).ended [] badCommandResponse) := by
  have haccept : (s.accept rest).resets = [] := by rw [State.accept_resets, hr, passBoundary_nil]
  unfold step
  rw [resetLands_of_noReset hr, hidle, hcmd, if_neg Bool.false_ne_true]
  simp only [hdecode]
  exact congrArg Host.Outcome.next (respond_eq_ended badCommandResponse haccept)

/-- Settles O49: the ends of a command, and the answer to a packet that is none. -/
theorem validateBeforeMutate : Obligations.ValidateBeforeMutate := by
  refine ⟨fun i s t hr h => ?_, fun s p rest why => step_of_decode_error⟩
  cases commandEnds_of_exec hr h with
  | position pos masks hi hpos ht => exact .inl ht
  | character c ht => exact .inr (.inl ⟨c, ht⟩)
  | pastChecks hpast =>
    refine .inr (.inr ?_)
    cases hpast with
    | ok os payload hos hout hidle => exact .inl ⟨os, payload, hos, hout, hidle⟩
    | ioError os e hos hout hidle => exact .inr (.inl ⟨os, e, hos, hout, hidle⟩)
    | waiting os hos hout hbusy => exact .inr (.inr ⟨os, hos, hout, hbusy⟩)

/-! ### The response tells the ends apart -/

theorem response_eq_of_out_eq {pre os us : List Output} {r r' : Packet}
    (h : pre ++ os ++ [.response r] = pre ++ us ++ [.response r']) : r = r' := by
  simpa using congrArg List.getLast? h

theorem responsesOf_ne_nil_of_out_eq {pre os us : List Output} {r : Packet}
    (h : pre ++ os = pre ++ us ++ [.response r]) : responsesOf os ≠ [] := by
  rw [List.append_assoc, List.append_cancel_left_eq] at h
  rw [h, responsesOf_append]
  exact List.append_ne_nil_of_right_ne_nil _ (List.cons_ne_nil r [])

/-- No command that has passed its checks answers PositionOutOfRange (R225 (b)). -/
theorem EndsPastChecks.out_ne_position {s t : State} (h : EndsPastChecks s t) (us : List Output) :
    t.out ≠ s.out ++ us ++ [.response (errResponse .positionOutOfRange)] := by
  intro heq
  cases h with
  | ok os payload hos hout hidle => simpa [okResponse, errResponse] using response_eq_of_out_eq (hout.symm.trans heq)
  | ioError os e hos hout hidle => simpa [errResponse] using response_eq_of_out_eq (hout.symm.trans heq)
  | waiting os hos hout hbusy => exact responsesOf_ne_nil_of_out_eq (hout.symm.trans heq) hos

/-- Settles O21: of the ends of a command only that of WRITE with a position above 3 has the response 0x01. -/
theorem positionOutOfRangeExactly : Obligations.PositionOutOfRangeExactly := by
  intro i s t hr h
  have hends (pos : Byte) (masks : List Byte) (hi : i = .write pos masks) (hpos : 3 < pos.toNat) :
      t = s.ended [] [0x01] := by
    subst hi
    cases h.symm.trans (exec_write_of_position masks hr hpos)
    rfl
  refine ⟨⟨?_, ?_⟩, hends⟩
  · rintro ⟨pos, masks, hi, hpos⟩
    exact ⟨[], by simp [hends pos masks hi hpos], rfl⟩
  · rintro ⟨us, hout, -⟩
    cases commandEnds_of_exec hr h with
    | position pos masks hi hpos ht => exact ⟨pos, masks, hi, hpos⟩
    | character c ht =>
      have hcharacter : t.out = s.out ++ [] ++ [.response (errResponse (.characterOutOfRange c))] := by simp [ht]
      simpa [errResponse] using response_eq_of_out_eq (hcharacter.symm.trans hout)
    | pastChecks hpast => exact absurd hout (hpast.out_ne_position us)

end Sys2Proof.Machine
end

section
/-! Characters, decimal strings and the encode commands (41_segment_table.md R120 to R129, 44_format.md R191 to
R196). -/

namespace Sys2Proof.Machine

/-! ### The table -/

theorem sixteen_le_tableLength (v : Variant) : 16 ≤ tableLength v := by cases v <;> decide

theorem getElem?_tableMasks {p : Params} {i : Nat} (h : i < tableLength p.variant) :
    (tableMasks p)[i]? = some (tableMask p i) := by
  have hi : i < (tableMasks p).length := by rwa [length_tableMasks]
  rw [tableMask, List.getD_eq_getElem?_getD, List.getElem?_eq_getElem hi, Option.getD_some]

/-- Settles O28: the two lists by evaluation, the indices of the digits because both variants have 16 entries. -/
theorem tableContents : Obligations.TableContents :=
  ⟨by decide, by decide, by decide, by decide,
    fun p _ hi => getElem?_tableMasks (Nat.lt_of_lt_of_le hi (sixteen_le_tableLength p.variant))⟩

/-! ### Which characters are supported -/

theorem supported_iff {v : Variant} {c : Byte} : supported v c = true ↔ ∃ i, charIndex v c = some i :=
  Option.isSome_iff_exists

theorem supported_eq_false_iff {v : Variant} {c : Byte} : supported v c = false ↔ charIndex v c = none := by
  rw [supported, Option.isSome_eq_false_iff, Option.isNone_iff_eq_none]

/-- The supported characters of WIDE by their code numbers. -/
theorem supported_wide_iff (c : Byte) : supported .wide c = true ↔
    (0x30 ≤ c.toNat ∧ c.toNat ≤ 0x39) ∨ (0x61 ≤ c.toNat ∧ c.toNat ≤ 0x7A) ∨ (0x41 ≤ c.toNat ∧ c.toNat ≤ 0x5A) ∨
      c = 0x20 ∨ c = 0x2D ∨ c = 0x2A := by
  simp only [supported, charIndex, ← BitVec.toNat_inj, BitVec.reduceToNat]
  split_ifs <;> simp only [Option.isSome_some, Option.isSome_none, true_iff, false_iff, Bool.false_eq_true] <;>
    omega

/-- The supported characters of NARROW by their code numbers. -/
theorem supported_narrow_iff (c : Byte) : supported .narrow c = true ↔
    (0x30 ≤ c.toNat ∧ c.toNat ≤ 0x39) ∨ (0x61 ≤ c.toNat ∧ c.toNat ≤ 0x66) ∨ (0x41 ≤ c.toNat ∧ c.toNat ≤ 0x46) ∨
      c = 0x20 ∨ c = 0x2D := by
  simp only [supported, charIndex, ← BitVec.toNat_inj, BitVec.reduceToNat]
  split_ifs <;> simp only [Option.isSome_some, Option.isSome_none, true_iff, false_iff, Bool.false_eq_true] <;>
    omega

theorem supported_wide_of_narrow {c : Byte} (h : supported .narrow c = true) : supported .wide c = true := by
  rw [supported_narrow_iff] at h
  rw [supported_wide_iff]
  bv_omega

theorem supported_of_narrow {c : Byte} (h : supported .narrow c = true) (v : Variant) : supported v c = true := by
  cases v with
  | wide => exact supported_wide_of_narrow h
  | narrow => exact h

theorem charIndex_digit (v : Variant) {c : Byte} (h : 0x30 ≤ c.toNat) (h' : c.toNat ≤ 0x39) :
    charIndex v c = some (c.toNat - 0x30) :=
  if_pos ⟨h, h'⟩

theorem charIndex_wide_small {c : Byte} (h : 0x61 ≤ c.toNat) (h' : c.toNat ≤ 0x7A) :
    charIndex .wide c = some (c.toNat - 0x61 + 10) := by
  unfold charIndex
  rw [if_neg (by omega)]
  exact if_pos ⟨h, h'⟩

theorem charIndex_narrow_small {c : Byte} (h : 0x61 ≤ c.toNat) (h' : c.toNat ≤ 0x66) :
    charIndex .narrow c = some (c.toNat - 0x61 + 10) := by
  unfold charIndex
  rw [if_neg (by omega)]
  exact if_pos ⟨h, h'⟩

theorem charIndex_wide_capital {c : Byte} (h : 0x41 ≤ c.toNat) (h' : c.toNat ≤ 0x5A) :
    charIndex .wide c = some (c.toNat - 0x41 + 10) := by
  unfold charIndex
  rw [if_neg (by omega)]
  exact (if_neg (by omega)).trans (if_pos ⟨h, h'⟩)

theorem charIndex_narrow_capital {c : Byte} (h : 0x41 ≤ c.toNat) (h' : c.toNat ≤ 0x46) :
    charIndex .narrow c = some (c.toNat - 0x41 + 10) := by
  unfold charIndex
  rw [if_neg (by omega)]
  exact (if_neg (by omega)).trans (if_pos ⟨h, h'⟩)

/-- Of the letters NARROW has a to f only. -/
theorem charIndex_narrow_of_gt {c : Byte} (h : 0x46 < c.toNat) (h' : c.toNat < 0x61 ∨ 0x66 < c.toNat) :
    charIndex .narrow c = none := by
  rw [← supported_eq_false_iff, Bool.eq_false_iff, Ne, supported_narrow_iff]
  bv_omega

/-- A capital letter is looked up as its small letter, 0x20 further on (R124). -/
theorem charIndex_add_0x20 (v : Variant) {c : Byte} (h : 0x41 ≤ c.toNat) (h' : c.toNat ≤ 0x5A) :
    charIndex v c = charIndex v (c + 0x20) := by
  have hc : (c + 0x20).toNat = c.toNat + 0x20 := by bv_omega
  have hsub : c.toNat - 0x41 = (c + 0x20).toNat - 0x61 := by omega
  cases v with
  | wide => rw [charIndex_wide_capital h h', charIndex_wide_small (by omega) (by omega), hsub]
  | narrow =>
    by_cases hf : c.toNat ≤ 0x46
    · rw [charIndex_narrow_capital h hf, charIndex_narrow_small (by omega) (by omega), hsub]
    · rw [charIndex_narrow_of_gt (by omega) (by omega), charIndex_narrow_of_gt (by omega) (by omega)]

theorem maskOf_of_index {p : Params} {c : Byte} {i : Nat} (h : charIndex p.variant c = some i) :
    maskOf p c = tableMask p i := by
  rw [maskOf, h, Option.getD_some]

/-- Settles O29: CharIndex range by range. -/
theorem supportedCharacters : Obligations.SupportedCharacters :=
  ⟨supported_wide_iff, supported_narrow_iff, fun v _ => charIndex_add_0x20 v, fun v _ => charIndex_digit v,
    fun _ => charIndex_wide_small, fun _ => charIndex_wide_capital, fun _ => charIndex_narrow_small,
    fun _ => charIndex_narrow_capital, rfl, rfl, rfl, rfl, rfl,
    fun _ _ _ hi => (getElem?_tableMasks (charIndex_lt_length hi)).trans
      (congrArg some (maskOf_of_index hi).symm)⟩

/-! ### Encoding a string -/

theorem encodeChar_of_supported {p : Params} {c : Byte} (h : supported p.variant c = true) :
    encodeChar p c = .ok (maskOf p c) := by
  obtain ⟨i, hi⟩ := supported_iff.mp h
  rw [encodeChar_of_index hi, maskOf_of_index hi]

theorem encodeChar_of_unsupported {p : Params} {c : Byte} (h : supported p.variant c = false) :
    encodeChar p c = .error c :=
  encodeChar_of_none (supported_eq_false_iff.mp h)

theorem encodeAll_of_supported {p : Params} {cs : List Byte} (h : ∀ c ∈ cs, supported p.variant c = true) :
    encodeAll p cs = .ok (cs.map (maskOf p)) := by
  induction cs with
  | nil => rfl
  | cons c cs ih =>
    rw [List.forall_mem_cons] at h
    unfold encodeAll
    rw [encodeChar_of_supported h.1, ih h.2]
    rfl

/-- The first unsupported character ends the scan (R129). -/
theorem encodeAll_of_unsupported {p : Params} {before after : List Byte} {c : Byte}
    (h : ∀ b ∈ before, supported p.variant b = true) (hc : supported p.variant c = false) :
    encodeAll p (before ++ c :: after) = .error c := by
  induction before with
  | nil =>
    rw [List.nil_append, encodeAll, encodeChar_of_unsupported hc]
  | cons b bs ih =>
    rw [List.forall_mem_cons] at h
    rw [List.cons_append, encodeAll, encodeChar_of_supported h.1, ih h.2]

theorem unsupported_of_encodeAll_error {p : Params} {cs : List Byte} {c : Byte} (h : encodeAll p cs = .error c) :
    supported p.variant c = false := by
  induction cs with
  | nil => cases h
  | cons d ds ih =>
    cases hd : supported p.variant d with
    | false =>
      rw [encodeAll, encodeChar_of_unsupported hd] at h
      cases h
      exact hd
    | true =>
      rw [encodeAll, encodeChar_of_supported hd] at h
      cases hds : encodeAll p ds with
      | error e =>
        rw [hds] at h
        cases h
        exact ih hds
      | ok ms =>
        rw [hds] at h
        cases h

theorem encodeString_wide {p : Params} (hv : p.variant = .wide) (cs : List Byte) :
    encodeString p cs = encodeAll p cs := by
  unfold encodeString
  rw [hv]

theorem encodeString_narrow_of_ok {p : Params} (hv : p.variant = .narrow) {cs ms : List Byte}
    (h : encodeAll p (cs.take 4) = .ok ms) :
    encodeString p cs = .ok (ms ++ List.replicate (4 - ms.length) 0x00) := by
  unfold encodeString
  rw [hv, h]

theorem encodeString_narrow_of_error {p : Params} (hv : p.variant = .narrow) {cs : List Byte} {c : Byte}
    (h : encodeAll p (cs.take 4) = .error c) : encodeString p cs = .error c := by
  unfold encodeString
  rw [hv, h]

/-- The masks of a supported string in NARROW: those of its first four characters, padded to four (R128). -/
theorem encodeString_narrow_of_supported {p : Params} (hv : p.variant = .narrow) {cs : List Byte}
    (h : ∀ c ∈ cs.take 4, supported p.variant c = true) :
    encodeString p cs = .ok ((cs.take 4).map (maskOf p) ++ List.replicate (4 - cs.length) 0x00) := by
  rw [encodeString_narrow_of_ok hv (encodeAll_of_supported h), List.length_map, List.length_take]
  congr 3
  omega

/-- A supported string of four characters has the same masks in both variants. -/
theorem encodeString_of_length_four {p : Params} {cs : List Byte} (hl : cs.length = 4)
    (h : ∀ c ∈ cs, supported p.variant c = true) : encodeString p cs = .ok (cs.map (maskOf p)) := by
  have htake : cs.take 4 = cs := List.take_of_length_le hl.le
  cases hv : p.variant with
  | wide => rw [encodeString_wide hv, encodeAll_of_supported h]
  | narrow =>
    rw [encodeString_narrow_of_supported hv (by rwa [htake]), htake, hl]
    exact congrArg Except.ok (List.append_nil _)

theorem unsupported_of_encodeString_error {p : Params} {cs : List Byte} {c : Byte}
    (h : encodeString p cs = .error c) : supported p.variant c = false := by
  cases hv : p.variant with
  | wide =>
    rw [encodeString_wide hv] at h
    exact hv ▸ unsupported_of_encodeAll_error h
  | narrow =>
    cases hs : encodeAll p (cs.take 4) with
    | error e =>
      rw [encodeString_narrow_of_error hv hs] at h
      cases h
      exact hv ▸ unsupported_of_encodeAll_error hs
    | ok ms =>
      rw [encodeString_narrow_of_ok hv hs] at h
      cases h

/-! ### ENCD, ENCC, ENCS -/

theorem exec_encc_of_ok {s : State} {c m : Byte} (h : encodeChar s.params c = .ok m) (hr : s.resets = []) :
    exec (.encc c) s = .next (s.ended [] [0x00, m]) := by
  rw [exec_of_isLookup_noReset rfl hr, lookupResponse, lookupResult, h]
  rfl

theorem exec_encc_of_error {s : State} {c e : Byte} (h : encodeChar s.params c = .error e) (hr : s.resets = []) :
    exec (.encc c) s = .next (s.ended [] [0x02, e]) := by
  rw [exec_of_isLookup_noReset rfl hr, lookupResponse, lookupResult, h]
  rfl

theorem exec_encs_of_ok {s : State} {cs ms : List Byte} (h : encodeString s.params cs = .ok ms) (hr : s.resets = []) :
    exec (.encs cs) s = .next (s.ended [] (0x00 :: BitVec.ofNat 8 ms.length :: ms)) := by
  rw [exec_of_isLookup_noReset rfl hr, lookupResponse, lookupResult, h]
  rfl

theorem exec_encs_of_error {s : State} {cs : List Byte} {c : Byte} (h : encodeString s.params cs = .error c)
    (hr : s.resets = []) : exec (.encs cs) s = .next (s.ended [] [0x02, c]) := by
  rw [exec_of_isLookup_noReset rfl hr, lookupResponse, lookupResult, h]
  rfl

theorem lowNibble_eq (n : Byte) : lowNibble n = n.toNat % 16 := by
  simp [lowNibble, BitVec.extractLsb'_toNat]

/-- Settles O30: the low nibble is the remainder by 16. -/
theorem encdCompletes : Obligations.EncdCompletes := by
  intro s n hr
  rw [exec_of_isLookup_noReset rfl hr, ← lowNibble_eq]
  rfl

/-- Settles O31: EncodeChar of a supported and of an unsupported character. -/
theorem enccCompletes : Obligations.EnccCompletes := fun _ _ hr =>
  ⟨fun h => exec_encc_of_ok (encodeChar_of_supported h) hr,
    fun h => exec_encc_of_error (encodeChar_of_unsupported h) hr⟩

/-- Settles O32: in WIDE EncodeString scans the whole string. -/
theorem encsWideCompletes : Obligations.EncsWideCompletes := by
  intro s cs hv hr
  rw [← hv]
  refine ⟨fun h => ?_, ?_⟩
  · rw [exec_encs_of_ok ((encodeString_wide hv cs).trans (encodeAll_of_supported h)) hr, List.length_map]
  · rintro before c after rfl h hc
    exact exec_encs_of_error ((encodeString_wide hv _).trans (encodeAll_of_unsupported h hc)) hr

/-- Settles O33: in NARROW EncodeString scans the first four characters. -/
theorem encsNarrowCompletes : Obligations.EncsNarrowCompletes := by
  intro s cs hv hr
  rw [← hv]
  refine ⟨fun h => ?_, ?_⟩
  · have hlen : ((cs.take 4).map (maskOf s.params) ++ List.replicate (4 - cs.length) (0x00 : Byte)).length = 4 := by
      simp only [List.length_append, List.length_map, List.length_take, List.length_replicate]
      omega
    rw [exec_encs_of_ok (encodeString_narrow_of_supported hv h) hr, hlen]
    rfl
  · rintro before c after rfl hlt h hc
    obtain ⟨k, hk⟩ : ∃ k, 4 - before.length = k + 1 := ⟨3 - before.length, by omega⟩
    refine exec_encs_of_error (encodeString_narrow_of_error hv ?_) hr
    rw [List.take_append, List.take_of_length_le hlt.le, hk, List.take_succ_cons]
    exact encodeAll_of_unsupported h hc

/-! ### Decimal digits -/

theorem decDigits_of_lt {n u : Nat} (hu : u < 10) : decDigits (n + 1) u = [digitChar u] := if_pos hu

theorem decDigits_of_le {n u : Nat} (hu : 10 ≤ u) :
    decDigits (n + 1) u = decDigits n (u / 10) ++ [digitChar (u % 10)] := if_neg (by omega)

/-- More room for digits than the number has changes nothing. -/
theorem decDigits_succ {n u : Nat} (hn : 0 < n) (hu : u < 10 ^ n) : decDigits (n + 1) u = decDigits n u := by
  induction n generalizing u with
  | zero => omega
  | succ n ih =>
    by_cases h : u < 10
    · rw [decDigits_of_lt h, decDigits_of_lt h]
    · have hdiv : u / 10 < 10 ^ n := by
        rw [Nat.pow_succ] at hu
        omega
      have hpos : 0 < n := by
        rcases n with _ | n
        · omega
        · exact Nat.succ_pos n
      rw [decDigits_of_le (n := n) (by omega), decDigits_of_le (by omega), ih hpos hdiv]

theorem dec_of_lt_1000 {u : Nat} (hu : u < 1000) : dec u = decDigits 3 u := decDigits_succ (by decide) hu

theorem dec_of_lt_100 {u : Nat} (hu : u < 100) : dec u = decDigits 2 u :=
  (dec_of_lt_1000 (by omega)).trans (decDigits_succ (by decide) hu)

theorem dec_of_lt_10 {u : Nat} (hu : u < 10) : dec u = [digitChar u] := decDigits_of_lt hu

theorem dec_two_digits {u : Nat} (h : 10 ≤ u) (h' : u < 100) : dec u = [digitChar (u / 10), digitChar (u % 10)] := by
  rw [dec_of_lt_100 h', decDigits_of_le h, decDigits_of_lt (by omega)]
  rfl

theorem length_decDigits_le (n u : Nat) : (decDigits n u).length ≤ n := by
  induction n generalizing u with
  | zero => exact Nat.le_refl 0
  | succ n ih =>
    by_cases h : u < 10
    · rw [decDigits_of_lt h]
      exact Nat.succ_le_succ (Nat.zero_le n)
    · rw [decDigits_of_le (by omega), List.length_append]
      exact Nat.succ_le_succ (ih _)

theorem length_dec_le (u : Nat) : (dec u).length ≤ 4 := length_decDigits_le 4 u

theorem length_dec_le_of_lt_1000 {u : Nat} (hu : u < 1000) : (dec u).length ≤ 3 := by
  rw [dec_of_lt_1000 hu]
  exact length_decDigits_le 3 u

/-- Settles O36: up to 9999 the four places are enough for the recursion. -/
theorem decimalDigits : Obligations.DecimalDigits := by
  intro u hu
  split
  · next h => exact dec_of_lt_10 h
  · next h =>
    rw [dec_of_lt_1000 (u := u / 10) (by omega)]
    exact decDigits_of_le (by omega)

theorem supported_digitChar {d : Nat} (hd : d < 10) : supported .narrow (digitChar d) = true := by
  have hc : (digitChar d).toNat = 0x30 + d := by
    rw [digitChar, BitVec.toNat_ofNat]
    omega
  rw [supported_narrow_iff]
  omega

theorem supported_of_mem_decDigits {n u : Nat} {c : Byte} (h : c ∈ decDigits n u) : supported .narrow c = true := by
  induction n generalizing u with
  | zero => cases h
  | succ n ih =>
    by_cases hu : u < 10
    · rw [decDigits_of_lt hu, List.mem_singleton] at h
      rw [h]
      exact supported_digitChar hu
    · rw [decDigits_of_le (by omega), List.mem_append, List.mem_singleton] at h
      rcases h with h | rfl
      · exact ih h
      · exact supported_digitChar (Nat.mod_lt u (by decide))

theorem supported_of_mem_signedDec {v : Int} {c : Byte} (h : c ∈ signedDec v) : supported .narrow c = true := by
  unfold signedDec at h
  split at h
  · rcases List.mem_cons.mp h with rfl | h
    · decide
    · exact supported_of_mem_decDigits h
  · exact supported_of_mem_decDigits h

theorem supported_of_mem_padLeft {s : List Byte} {w : Nat} {q c : Byte} (h : c ∈ padLeft s w q)
    (hq : supported .narrow q = true) (hs : ∀ c ∈ s, supported .narrow c = true) : supported .narrow c = true := by
  rcases List.mem_append.mp h with h | h
  · rw [List.eq_of_mem_replicate h]
    exact hq
  · exact hs c h

/-! ### Padded strings -/

theorem length_padLeft (s : List Byte) (w : Nat) (q : Byte) : (padLeft s w q).length = max w s.length := by
  simp only [padLeft, List.length_append, List.length_replicate]
  omega

theorem clamp_of_le {v lo hi : Int} (h : v ≤ lo) (hle : lo ≤ hi) : clamp v lo hi = lo := by
  unfold clamp
  split_ifs <;> omega

theorem clamp_of_ge {v lo hi : Int} (h : hi ≤ v) (hle : lo ≤ hi) : clamp v lo hi = hi := by
  unfold clamp
  split_ifs <;> omega

theorem clamp_of_mem {v lo hi : Int} (h : lo ≤ v) (h' : v ≤ hi) : clamp v lo hi = v := by
  unfold clamp
  split_ifs <;> omega

theorem clamp_bounds {lo hi : Int} (v : Int) (h : lo ≤ hi) : lo ≤ clamp v lo hi ∧ clamp v lo hi ≤ hi := by
  unfold clamp
  split_ifs <;> omega

theorem signedDec_of_neg {v : Int} (h : v < 0) : signedDec v = dashChar :: dec (-v).toNat := if_pos h

theorem signedDec_of_nonneg {v : Int} (h : 0 ≤ v) : signedDec v = dec v.toNat := if_neg (by omega)

theorem length_signedDec_le {v : Int} (h : -999 ≤ v) : (signedDec v).length ≤ 4 := by
  rcases lt_or_ge v 0 with hv | hv
  · rw [signedDec_of_neg hv]
    exact Nat.succ_le_succ (length_dec_le_of_lt_1000 (by omega))
  · rw [signedDec_of_nonneg hv]
    exact length_dec_le _

theorem length_numberString (v : Int) : (numberString v).length = 4 := by
  have hle : (signedDec (clamp v (-999) 9999)).length ≤ 4 := length_signedDec_le (clamp_bounds v (by decide)).1
  rw [numberString, length_padLeft]
  omega

theorem supported_of_mem_numberString {v : Int} {c : Byte} (h : c ∈ numberString v) : supported .narrow c = true :=
  supported_of_mem_padLeft h (by decide) fun _ => supported_of_mem_signedDec

/-- Settles O37: the sign and the digits of the clamped value, padded to four places. -/
theorem numberStringValue : Obligations.NumberStringValue := by
  intro v
  refine ⟨length_numberString v, fun h => ?_, fun h => ?_, fun h h' => ?_, fun h h' => ?_, fun c hc => ?_⟩
  · rw [numberString, clamp_of_le h (by decide)]
    decide
  · rw [numberString, clamp_of_ge h (by decide)]
    decide
  · have hpad (n : Nat) : 4 - (n + 1) = 3 - n := by omega
    rw [numberString, clamp_of_mem h (by omega), signedDec_of_neg h', padLeft, List.length_cons, hpad]
    rfl
  · rw [numberString, clamp_of_mem (by omega) h', signedDec_of_nonneg h]
    rfl
  · have hs := supported_of_mem_numberString hc
    exact ⟨hs, supported_wide_of_narrow hs⟩

/-! ### Two-character fields -/

/-- One operand of NUMBERS as its two characters (R195). -/
def numbersField (v : Int) : List Byte := padLeft (signedDec (clamp v (-9) 99)) 2 zeroChar

theorem numbersString_eq (a b : Int) : numbersString a b = numbersField a ++ numbersField b := rfl

theorem signedDec_of_one_digit_neg {v : Int} (h : v < 0) (h' : -9 ≤ v) :
    signedDec v = [dashChar, digitChar (-v).toNat] := by
  rw [signedDec_of_neg h, dec_of_lt_10 (by omega)]

theorem signedDec_of_one_digit {v : Int} (h : 0 ≤ v) (h' : v < 10) : signedDec v = [digitChar v.toNat] := by
  rw [signedDec_of_nonneg h, dec_of_lt_10 (by omega)]

theorem signedDec_of_two_digits {v : Int} (h : 10 ≤ v) (h' : v ≤ 99) :
    signedDec v = [digitChar (v.toNat / 10), digitChar (v.toNat % 10)] := by
  rw [signedDec_of_nonneg (by omega), dec_two_digits (by omega) (by omega)]

theorem numbersField_of_neg {v : Int} (h : v < 0) :
    numbersField v = [0x2D, BitVec.ofNat 8 (0x30 + (min (-v) 9).toNat)] := by
  have hc : clamp v (-9) 99 = -(min (-v) 9) := by
    unfold clamp
    split_ifs <;> omega
  rw [numbersField, hc, signedDec_of_one_digit_neg (by omega) (by omega), Int.neg_neg]
  rfl

theorem numbersField_of_nonneg {v : Int} (h : 0 ≤ v) :
    numbersField v
      = [BitVec.ofNat 8 (0x30 + (min v 99).toNat / 10), BitVec.ofNat 8 (0x30 + (min v 99).toNat % 10)] := by
  have hc : clamp v (-9) 99 = min v 99 := by
    unfold clamp
    split_ifs <;> omega
  rw [numbersField, hc]
  rcases lt_or_ge v 10 with h' | h'
  · have hdiv : (min v 99).toNat / 10 = 0 := by omega
    have hmod : (min v 99).toNat % 10 = (min v 99).toNat := by omega
    rw [signedDec_of_one_digit (by omega) (by omega), hdiv, hmod]
    rfl
  · rw [signedDec_of_two_digits (by omega) (by omega)]
    rfl

theorem length_numbersField (v : Int) : (numbersField v).length = 2 := by
  rcases lt_or_ge v 0 with h | h
  · rw [numbersField_of_neg h]
    rfl
  · rw [numbersField_of_nonneg h]
    rfl

theorem take_two_numbersString (a b : Int) : (numbersString a b).take 2 = numbersField a := by
  rw [numbersString_eq, ← length_numbersField a, List.take_left]

theorem drop_two_numbersString (a b : Int) : (numbersString a b).drop 2 = numbersField b := by
  rw [numbersString_eq, ← length_numbersField a, List.drop_left]

theorem length_numbersString (a b : Int) : (numbersString a b).length = 4 := by
  rw [numbersString_eq, List.length_append, length_numbersField, length_numbersField]

theorem supported_of_mem_numbersString {a b : Int} {c : Byte} (h : c ∈ numbersString a b) :
    supported .narrow c = true := by
  have hfield (v : Int) (hc : c ∈ numbersField v) : supported .narrow c = true :=
    supported_of_mem_padLeft hc (by decide) fun _ => supported_of_mem_signedDec
  rcases List.mem_append.mp h with h | h
  · exact hfield a h
  · exact hfield b h

theorem tempString_of_lt {v : Int} (h : v < -9) : tempString v = [0x6C, 0x6F] := if_pos h

theorem tempString_of_gt {v : Int} (h : 99 < v) : tempString v = [0x68, 0x69] := by
  rw [tempString, if_neg (by omega), if_pos h]

theorem tempString_of_mem {v : Int} (h : -9 ≤ v) (h' : v ≤ 99) :
    tempString v = padLeft (signedDec v) 2 spaceChar := by
  rw [tempString, if_neg (by omega), if_neg (by omega)]

theorem tempString_eq (v : Int) : tempString v =
    if v < -9 then [0x6C, 0x6F] else if v > 99 then [0x68, 0x69]
    else if v < 0 then [0x2D, BitVec.ofNat 8 (0x30 + (-v).toNat)]
    else if v < 10 then [0x20, BitVec.ofNat 8 (0x30 + v.toNat)]
    else [BitVec.ofNat 8 (0x30 + v.toNat / 10), BitVec.ofNat 8 (0x30 + v.toNat % 10)] := by
  split_ifs with hlo hhi hneg hone
  · exact tempString_of_lt hlo
  · exact tempString_of_gt hhi
  · rw [tempString_of_mem (by omega) (by omega), signedDec_of_one_digit_neg hneg (by omega)]
    rfl
  · rw [tempString_of_mem (by omega) (by omega), signedDec_of_one_digit (by omega) hone]
    rfl
  · rw [tempString_of_mem (by omega) (by omega), signedDec_of_two_digits (by omega) (by omega)]
    rfl

theorem length_tempString (v : Int) : (tempString v).length = 2 := by
  rw [tempString_eq]
  split_ifs <;> rfl

theorem supported_of_mem_tempString {v : Int} (h : -9 ≤ v) (h' : v ≤ 99) {c : Byte} (hc : c ∈ tempString v) :
    supported .narrow c = true := by
  rw [tempString_of_mem h h'] at hc
  exact supported_of_mem_padLeft hc (by decide) fun _ => supported_of_mem_signedDec

/-- Settles O39: each field by its sign and its number of digits. -/
theorem twoCharacterFields : Obligations.TwoCharacterFields := by
  refine ⟨fun a b => ?_, fun v w => ⟨?_, ?_⟩, tempString_eq⟩
  · rw [take_two_numbersString, drop_two_numbersString, numbersString_eq]
  · rw [take_two_numbersString, drop_two_numbersString]
  · rw [take_two_numbersString]
    split
    · next h => exact numbersField_of_neg h
    · next h => exact numbersField_of_nonneg (by omega)

end Sys2Proof.Machine
end

section
/-! A command as data: what it answers where its checks fail, and otherwise its payload and what it does in order
(60_exceptions.md R225, R227). Every statement over all commands is then a statement about one list. -/

namespace Sys2Proof.Machine

/-! ### What one micro-operation can do -/

/-- `s` after micro-operations that were all answered. -/
def opsDone (os : List MicroOp) (s : State) : State :=
  ((usedDly (usedXport s (flushCount os)) (delayCount os)).setFb (drawAll s.params os s.fb)).emits
    (outputsOf s.params os s.fb)

theorem opsDone_nil (s : State) : opsDone [] s = s := by
  simp [opsDone, drawAll, State.setFb, State.emits]

@[simp] theorem opsDone_params (os : List MicroOp) (s : State) : (opsDone os s).params = s.params := rfl

@[simp] theorem opsDone_fb (os : List MicroOp) (s : State) : (opsDone os s).fb = drawAll s.params os s.fb := rfl

@[simp] theorem opsDone_cur (os : List MicroOp) (s : State) : (opsDone os s).cur = s.cur := rfl

@[simp] theorem opsDone_resets (os : List MicroOp) (s : State) : (opsDone os s).resets = s.resets := rfl

@[simp] theorem opsDone_out (os : List MicroOp) (s : State) :
    (opsDone os s).out = s.out ++ outputsOf s.params os s.fb := rfl

theorem opsDone_setResets (os : List MicroOp) (s : State) (r : List Nat) :
    opsDone os (s.setResets r) = (opsDone os s).setResets r := rfl

theorem opsDone_append (os us : List MicroOp) (s : State) : opsDone (os ++ us) s = opsDone us (opsDone os s) := by
  simp only [opsDone, State.ext_iff, State.emits_params, State.emits_fb, State.emits_cur, State.emits_seq,
    State.emits_cmd, State.emits_out, State.emits_xport, State.emits_xportDraws, State.emits_dly,
    State.emits_dlyDraws, State.emits_resets, State.setFb_params, State.setFb_fb, State.setFb_cur, State.setFb_seq,
    State.setFb_cmd, State.setFb_out, State.setFb_xport, State.setFb_xportDraws, State.setFb_dly,
    State.setFb_dlyDraws, State.setFb_resets, usedDly_params, usedDly_cur, usedDly_seq, usedDly_cmd, usedDly_out,
    usedDly_xport, usedDly_xportDraws, usedDly_dly, usedDly_dlyDraws, usedDly_resets, usedXport_params,
    usedXport_cur, usedXport_seq, usedXport_cmd, usedXport_out, usedXport_xport, usedXport_xportDraws,
    usedXport_dly, usedXport_dlyDraws, usedXport_resets, flushCount_append, delayCount_append, drawAll_append,
    outputsOf_append, List.drop_drop, List.length_drop, List.append_assoc, true_and, and_true]
  omega

theorem opsDone_cons (o : MicroOp) (os : List MicroOp) (s : State) :
    opsDone (o :: os) s = opsDone os (opsDone [o] s) := opsDone_append [o] os s

/-- A boundary lets the command go on, or a RESET that is due abandons it (R250). -/
theorem boundary_cases (s : State) :
    ((∀ r, s.resets ≠ 0 :: r) ∧ boundary s = .running (s.setResets (passBoundary s.resets))) ∨
      ∃ r, s.resets = 0 :: r ∧ boundary s = .silent (applyReset (s.setResets r)) := by
  obtain ⟨_, _, _, _, _, _, _, _, _, _, resets⟩ := s
  match resets with
  | [] => exact .inl ⟨nofun, rfl⟩
  | 0 :: r => exact .inr ⟨r, rfl, rfl⟩
  | (k + 1) :: r => exact .inl ⟨nofun, rfl⟩

theorem perform_of_draws_eq {o : MicroOp} {s : State} (h : o.draws = true) :
    perform o s = .running (opsDone [o] s) := by
  rw [perform_of_draws s h]
  cases o with
  | flush => cases h
  | delay => cases h
  | _ => simp [draw, opsDone, outputsOf, flushCount, delayCount, drawAll, State.emits, State.setFb]

/-- What a micro-operation can do after its boundary: go on, raise the IoError of a failing flush, or wait for an
answer that never comes. -/
inductive Performed (o : MicroOp) (s : State) : Progress → Prop where
  | goesOn (hx : o = .flush → xportAt s 0 = .ok) : Performed o s (.running (opsDone [o] s))
  | fails (e : Byte) (ho : o = .flush) (hx : xportAt s 0 = .ioError e) :
      Performed o s (.raised (.ioError e) (opsDone [o] s))
  | waits (ho : o.draws = false) (hx : o = .flush → xportAt s 0 = .never)
      (hd : ∀ ms, o = .delay ms → dlyAt s 0 = .never) :
      Performed o s (.silent ((opsDone [o] s).setSeq .busy))

theorem flushed_eq_opsDone (s : State) :
    (usedXport s 1).emit (.frame (frameOf s.params s.fb)) = opsDone [.flush] s := by
  simp [opsDone, flushCount, delayCount, outputsOf, drawAll, drawOn, State.emit, State.emits, State.setFb, usedXport]

theorem delayed_eq_opsDone (ms : Half) (s : State) : (usedDly s 1).emit (.delay ms) = opsDone [.delay ms] s := by
  simp [opsDone, flushCount, delayCount, outputsOf, drawAll, drawOn, State.emit, State.emits, State.setFb, usedDly]

theorem perform_flush_of_ok {s : State} (h : xportAt s 0 = .ok) :
    perform .flush s = .running (opsDone [.flush] s) := by
  rw [perform, flush_of_ok h, flushed_eq_opsDone]

theorem perform_flush_of_ioError {s : State} {e : Byte} (h : xportAt s 0 = .ioError e) :
    perform .flush s = .raised (.ioError e) (opsDone [.flush] s) := by
  rw [perform, flush_of_ioError h, flushed_eq_opsDone]

theorem perform_flush_of_never {s : State} (h : xportAt s 0 = .never) :
    perform .flush s = .silent ((opsDone [.flush] s).setSeq .busy) := by
  rw [perform, flush_of_never h, flushed_eq_opsDone]

theorem perform_delay_of_done {ms : Half} {s : State} (h : dlyAt s 0 = .done) :
    perform (.delay ms) s = .running (opsDone [.delay ms] s) := by
  rw [perform, delay_of_done ms h, delayed_eq_opsDone]

theorem perform_delay_of_never {ms : Half} {s : State} (h : dlyAt s 0 = .never) :
    perform (.delay ms) s = .silent ((opsDone [.delay ms] s).setSeq .busy) := by
  rw [perform, delay_of_never ms h, delayed_eq_opsDone]

theorem performed (o : MicroOp) (s : State) : Performed o s (perform o s) := by
  by_cases hd : o.draws = true
  · rw [perform_of_draws_eq hd]
    exact .goesOn (by rintro rfl; cases hd)
  · cases o with
    | flush =>
      cases h : xportAt s 0 with
      | ok => exact perform_flush_of_ok h ▸ .goesOn fun _ => h
      | ioError e => exact perform_flush_of_ioError h ▸ .fails e rfl h
      | never => exact perform_flush_of_never h ▸ .waits rfl (fun _ => h) nofun
    | delay ms =>
      cases h : dlyAt s 0 with
      | done => exact perform_delay_of_done h ▸ .goesOn nofun
      | never => exact perform_delay_of_never h ▸ .waits rfl nofun fun _ _ => h
    | _ => exact absurd rfl hd

/-- A micro-operation with its boundary: a RESET that is due comes before it. -/
inductive OpRun (o : MicroOp) (s : State) : Progress → Prop where
  | abandoned (r : List Nat) (h : s.resets = 0 :: r) : OpRun o s (.silent (applyReset (s.setResets r)))
  | performed {r : Progress} (h : ∀ r, s.resets ≠ 0 :: r)
      (hp : Performed o (s.setResets (passBoundary s.resets)) r) : OpRun o s r

theorem opRun (o : MicroOp) (s : State) : OpRun o s (runOp o s) := by
  unfold runOp
  rcases boundary_cases s with ⟨h, hb⟩ | ⟨r, h, hb⟩
  · rw [hb]
    exact .performed h (performed o _)
  · rw [hb]
    exact .abandoned r h

/-! ### Actions -/

/-- One thing a command does between its checks and its response: a micro-operation, or a new value of CUR. -/
inductive Act where
  | op (o : MicroOp)
  | cursor (c : Half)

def runAct : Act → State → Progress
  | .op o, s => runOp o s
  | .cursor c, s => .running (s.setCur c)

/-- Actions in order, up to the one that ends the command. -/
def runActs : List Act → State → Progress
  | [], s => .running s
  | a :: as, s => (runAct a s).andThen (runActs as)

theorem runActs_append (as bs : List Act) (s : State) :
    runActs (as ++ bs) s = (runActs as s).andThen (runActs bs) := by
  induction as generalizing s with
  | nil => rfl
  | cons a as ih =>
    simp only [List.cons_append, runActs, Progress.andThen_assoc]
    exact congrArg _ (funext ih)

theorem runActs_ops (os : List MicroOp) (s : State) : runActs (os.map .op) s = runOps os s := by
  induction os generalizing s with
  | nil => rfl
  | cons o os ih => exact congrArg (runOp o s).andThen (funext ih)

def Act.op? : Act → Option MicroOp
  | .op o => some o
  | .cursor _ => none

/-- The micro-operations among the actions. -/
def opsOf (as : List Act) : List MicroOp := as.filterMap Act.op?

@[simp] theorem opsOf_nil : opsOf [] = [] := rfl

@[simp] theorem opsOf_cons_op (o : MicroOp) (as : List Act) : opsOf (.op o :: as) = o :: opsOf as := rfl

@[simp] theorem opsOf_cons_cursor (c : Half) (as : List Act) : opsOf (.cursor c :: as) = opsOf as := rfl

@[simp] theorem opsOf_append (as bs : List Act) : opsOf (as ++ bs) = opsOf as ++ opsOf bs := List.filterMap_append

@[simp] theorem opsOf_ops (os : List MicroOp) : opsOf (os.map .op) = os := by
  induction os with
  | nil => rfl
  | cons o os ih => rw [List.map_cons, opsOf_cons_op, ih]

/-! ### The actions of each part of a command -/

/-- The masks drawn from cursor value `c` on (R167). -/
def maskActs : Half → List Byte → List Act
  | _, [] => []
  | c, m :: ms => (glyphOps m c.toNat).map .op ++ .cursor (c + 1) :: maskActs (c + 1) ms

/-- `WRITE(pos, masks)` with a legal position. -/
def writeActs (pos : Byte) (masks : List Byte) : List Act :=
  .cursor (pos.setWidth 16) :: maskActs (pos.setWidth 16) masks

/-- The windows of SCROLL, a delay request after each. -/
def scrollActs (delayMs : Half) (ws : List (List Byte)) : List Act :=
  ws.flatMap fun w => writeActs 0 w ++ [.op (.delay delayMs)]

/-- No micro-operation after which the command goes on moves CUR. -/
theorem cur_of_runOps_running {os : List MicroOp} {s t : State} (h : runOps os s = .running t) : t.cur = s.cur := by
  induction os generalizing s with
  | nil => cases h; rfl
  | cons o os ih =>
    have ho := opRun o s
    unfold runOps at h
    generalize runOp o s = r at h ho
    cases ho with
    | abandoned => cases h
    | performed _ hp =>
      cases hp with
      | goesOn => exact (ih h).trans rfl
      | fails => cases h
      | waits => cases h

theorem drawNext_eq_runActs (m : Byte) (s : State) :
    drawNext m s = runActs ((glyphOps m s.cur.toNat).map .op ++ [.cursor (s.cur + 1)]) s := by
  unfold drawNext
  rw [runActs_append, runActs_ops]
  cases h : runOps (glyphOps m s.cur.toNat) s with
  | running t => simp [runActs, runAct, cur_of_runOps_running h]
  | raised e t => rfl
  | silent t => rfl

theorem drawMasks_eq_runActs (ms : List Byte) (s : State) : drawMasks ms s = runActs (maskActs s.cur ms) s := by
  induction ms generalizing s with
  | nil => rfl
  | cons m ms ih =>
    have hsplit : maskActs s.cur (m :: ms)
        = ((glyphOps m s.cur.toNat).map .op ++ [.cursor (s.cur + 1)]) ++ maskActs (s.cur + 1) ms := by
      simp [maskActs]
    rw [drawMasks, drawNext_eq_runActs, hsplit, runActs_append _ (maskActs _ _), runActs_append, runActs_ops]
    cases runOps (glyphOps m s.cur.toNat) s with
    | running t => exact ih (t.setCur (s.cur + 1))
    | raised e t => rfl
    | silent t => rfl

theorem writeMasks_eq_runActs {pos : Byte} (h : ¬ 3 < pos.toNat) (masks : List Byte) (s : State) :
    writeMasks pos masks s = runActs (writeActs pos masks) s := by
  unfold writeMasks
  rw [if_neg h, drawMasks_eq_runActs]
  rfl

theorem drawColon_eq_runActs (on : Bool) (s : State) : drawColon on s = runActs ((colonOps on).map .op) s :=
  (runActs_ops _ s).symm

theorem scrollLoop_eq_runActs (delayMs : Half) (ws : List (List Byte)) (s : State) :
    scrollLoop delayMs ws s = runActs (scrollActs delayMs ws) s := by
  induction ws generalizing s with
  | nil => rfl
  | cons w ws ih =>
    have hwindow : runActs (writeActs 0 w ++ [.op (.delay delayMs)]) s
        = (writeMasks 0 w s).andThen (runOp (.delay delayMs)) := by
      rw [runActs_append, writeMasks_eq_runActs (by decide)]
      refine congrArg _ (funext fun t => ?_)
      change (runOp _ t).andThen Progress.running = _
      cases runOp (.delay delayMs) t <;> rfl
    unfold scrollLoop scrollActs
    rw [List.flatMap_cons, runActs_append, hwindow]
    exact congrArg _ (funext ih)

/-! ### The course of a command -/

/-- The error of a command's checks, or its payload and its actions. -/
abbrev Course := Except Err (List Byte × List Act)

/-- A command that encodes a string before it does anything (R200). -/
def encodedCourse (p : Params) (str : List Byte) (f : List Byte → List Byte × List Act) : Course :=
  match encodeString p str with
  | .error c => .error (.characterOutOfRange c)
  | .ok ms => .ok (f ms)

def course (p : Params) : Instr → Course
  | .clear color => .ok ([], (clearOps color).map .op)
  | .colon on => .ok ([], (colonOps on).map .op)
  | .write pos masks => if 3 < pos.toNat then .error .positionOutOfRange else .ok ([], writeActs pos masks)
  | .encd n => .ok ([tableMask p (lowNibble n)], [])
  | .encc c =>
    match encodeChar p c with
    | .error e => .error (.characterOutOfRange e)
    | .ok m => .ok ([m], [])
  | .encs cs => encodedCourse p cs fun ms => (BitVec.ofNat 8 ms.length :: ms, [])
  | .hex v => .ok ([], writeActs 0 (hexMasks p v))
  | .number v => encodedCourse p (numberString (signed v)) fun ms => ([], writeActs 0 ms)
  | .numbers a b colon =>
    encodedCourse p (numbersString (signed a) (signed b)) fun ms =>
      ([], writeActs 0 ms ++ (colonOps colon).map .op)
  | .temp v =>
    encodedCourse p (tempString (signed v)) fun ms => ([], writeActs 0 ms ++ writeActs 2 degreeC)
  | .scroll delayMs str => encodedCourse p str fun ms => ([], scrollActs delayMs (scrollWindows ms))

/-- A course run to the end of its command (R227). -/
def runCourse : Course → State → State
  | .error e, s => respond (errResponse e) s
  | .ok (payload, acts), s => finish payload (runActs acts s)

theorem finish_encodeThen_eq_runCourse {str : List Byte} {f : List Byte → State → Progress}
    {acts : List Byte → List Act} {s : State} (h : ∀ ms, f ms s = runActs (acts ms) s) :
    finish [] (encodeThen str f s) = runCourse (encodedCourse s.params str fun ms => ([], acts ms)) s := by
  unfold encodedCourse
  cases hs : encodeString s.params str with
  | error c => rw [encodeThen_of_error f hs]; rfl
  | ok ms => rw [encodeThen_of_ok f hs, h]; rfl

theorem exec_eq_runCourse (i : Instr) (s : State) : exec i s = .next (runCourse (course s.params i) s) := by
  have hwrite0 (ms : List Byte) : writeMasks 0 ms s = runActs (writeActs 0 ms) s :=
    writeMasks_eq_runActs (by decide) ms s
  cases i with
  | clear color => exact congrArg (Host.Outcome.next <| finish [] ·) (runActs_ops _ s).symm
  | colon on => exact congrArg (Host.Outcome.next <| finish [] ·) (runActs_ops _ s).symm
  | write pos masks =>
    change Host.Outcome.next (finish [] (writeMasks pos masks s)) = _
    by_cases h : 3 < pos.toNat
    · rw [writeMasks_of_position masks s h, course, if_pos h]
      rfl
    · rw [writeMasks_eq_runActs h, course, if_neg h]
      rfl
  | encd n => rfl
  | encc c =>
    simp only [exec, execEncc, course]
    cases encodeChar s.params c <;> rfl
  | encs cs =>
    simp only [exec, execEncs, course, encodedCourse]
    cases encodeString s.params cs <;> rfl
  | hex v => exact congrArg (Host.Outcome.next <| finish [] ·) (hwrite0 _)
  | number v => exact congrArg Host.Outcome.next (finish_encodeThen_eq_runCourse hwrite0)
  | numbers a b colon =>
    refine congrArg Host.Outcome.next (finish_encodeThen_eq_runCourse fun ms => ?_)
    rw [runActs_append, hwrite0]
    exact congrArg _ (funext (drawColon_eq_runActs colon))
  | temp v =>
    refine congrArg Host.Outcome.next (finish_encodeThen_eq_runCourse fun ms => ?_)
    rw [runActs_append, hwrite0]
    exact congrArg _ (funext fun t => writeMasks_eq_runActs (by decide) degreeC t)
  | scroll delayMs str =>
    exact congrArg Host.Outcome.next (finish_encodeThen_eq_runCourse fun ms => scrollLoop_eq_runActs delayMs _ s)

theorem eq_runCourse_of_exec {i : Instr} {s t : State} (h : exec i s = .next t) :
    t = runCourse (course s.params i) s := by
  rw [exec_eq_runCourse] at h
  cases h
  rfl

/-! ### The script of a command is the micro-operations of its course -/

def Course.ops : Course → List MicroOp
  | .error _ => []
  | .ok (_, acts) => opsOf acts

theorem opsOf_maskActs {c : Half} {ms : List Byte} (h : c.toNat + ms.length ≤ 2 ^ 16) :
    opsOf (maskActs c ms) = glyphScript c.toNat ms := by
  induction ms generalizing c with
  | nil => rfl
  | cons m ms ih =>
    simp only [maskActs, glyphScript, opsOf_append, opsOf_ops, opsOf_cons_cursor, List.length_cons] at h ⊢
    cases ms with
    | nil => rfl
    | cons m' ms =>
      rw [List.length_cons] at h ih
      have hc : (c + 1).toNat = c.toNat + 1 := by bv_omega
      rw [ih (by omega), hc]

theorem toNat_setWidth_pos (pos : Byte) : (pos.setWidth 16 : Half).toNat = pos.toNat :=
  BitVec.toNat_setWidth_of_le (by decide)

theorem opsOf_writeActs (pos : Byte) {ms : List Byte} (h : ms.length ≤ maxLen) :
    opsOf (writeActs pos ms) = glyphScript pos.toNat ms := by
  unfold maxLen at h
  rw [writeActs, opsOf_cons_cursor, opsOf_maskActs, toNat_setWidth_pos]
  rw [toNat_setWidth_pos]
  omega

theorem length_of_mem_scrollWindows {ms w : List Byte} (h : w ∈ scrollWindows ms) : w.length = 4 := by
  simp only [scrollWindows, List.mem_map, List.mem_range] at h
  obtain ⟨i, hi, rfl⟩ := h
  simp only [List.length_take, List.length_drop, scrollPadded, scrollPad, List.length_append, List.length_cons,
    List.length_nil]
  omega

theorem opsOf_scrollActs (delayMs : Half) {ws : List (List Byte)} (h : ∀ w ∈ ws, w.length = 4) :
    opsOf (scrollActs delayMs ws) = ws.flatMap fun w => glyphScript 0 w ++ [.delay delayMs] := by
  induction ws with
  | nil => rfl
  | cons w ws ih =>
    rw [List.forall_mem_cons] at h
    have hw : opsOf (writeActs 0 w) = glyphScript 0 w := opsOf_writeActs 0 (by rw [h.1]; decide)
    unfold scrollActs at ih ⊢
    rw [List.flatMap_cons, List.flatMap_cons, opsOf_append, opsOf_append, hw, ih h.2]
    rfl

theorem ops_encodedCourse {p : Params} {str : List Byte} {acts : List Byte → List Act}
    {script : List Byte → List MicroOp}
    (h : ∀ ms, encodeString p str = .ok ms → opsOf (acts ms) = script ms) :
    (encodedCourse p str fun ms => ([], acts ms)).ops = encodedScript p str script := by
  unfold encodedCourse encodedScript
  cases hs : encodeString p str with
  | error c => rfl
  | ok ms => exact h ms hs

theorem length_le_maxLen_of_encodeString {p : Params} {str ms : List Byte} (h : encodeString p str = .ok ms)
    (hs : str.length ≤ maxLen) : ms.length ≤ maxLen := by
  rw [encodeString_length h]
  cases p.variant with
  | wide => exact hs
  | narrow => exact (by decide : 4 ≤ maxLen)

theorem script_eq_ops_course {p : Params} {i : Instr} (h : i.wellFormed = true) : script p i = (course p i).ops := by
  have hwrite0 {str : List Byte} (hs : str.length ≤ maxLen) (ms : List Byte) (he : encodeString p str = .ok ms) :
      opsOf (writeActs 0 ms) = glyphScript 0 ms :=
    opsOf_writeActs 0 (length_le_maxLen_of_encodeString he hs)
  cases i with
  | clear color => exact (opsOf_ops _).symm
  | colon on => exact (opsOf_ops _).symm
  | write pos masks =>
    simp only [Instr.wellFormed, decide_eq_true_eq] at h
    by_cases hpos : 3 < pos.toNat
    · rw [script, course, if_pos hpos, if_pos hpos]
      rfl
    · rw [script, course, if_neg hpos, if_neg hpos]
      exact (opsOf_writeActs pos h).symm
  | encd n => rfl
  | encc c =>
    rw [script, course]
    cases encodeChar p c <;> rfl
  | encs cs =>
    rw [script, course, encodedCourse]
    cases encodeString p cs <;> rfl
  | hex v => exact (opsOf_writeActs 0 (ms := hexMasks p v) (by decide : 4 ≤ maxLen)).symm
  | number v =>
    exact (ops_encodedCourse (hwrite0 (by rw [length_numberString]; decide))).symm
  | numbers a b colon =>
    refine (ops_encodedCourse fun ms he => ?_).symm
    rw [opsOf_append, opsOf_ops, hwrite0 (by rw [length_numbersString]; decide) ms he]
  | temp v =>
    refine (ops_encodedCourse fun ms he => ?_).symm
    rw [opsOf_append, hwrite0 (by rw [length_tempString]; decide) ms he]
    rfl
  | scroll delayMs str =>
    exact (ops_encodedCourse fun ms _ => opsOf_scrollActs delayMs fun w => length_of_mem_scrollWindows).symm

end Sys2Proof.Machine
end

section
/-! A command whose flushes and delays are all answered, and a RESET that comes while they are (70 R250, decision
D41). -/

namespace Sys2Proof.Machine

/-! ### Answers and RESETs to come -/

theorem DelayOk.mono {s : State} {n k : Nat} (h : DelayOk s n) (hk : k ≤ n) : DelayOk s k :=
  fun j hj => h j (by omega)

theorem DelayOk.later {s : State} {n k : Nat} (h : DelayOk s (n + k)) : DelayOk (usedDly s n) k :=
  fun j hj => by rw [dlyAt_usedDly]; exact h _ (by omega)

/-- No RESET is due at the next `n` boundaries. -/
def NoResetWithin (n : Nat) (rs : List Nat) : Prop := ∀ k r, rs = k :: r → n ≤ k

theorem NoResetWithin.nil (n : Nat) : NoResetWithin n [] := nofun

theorem NoResetWithin.not_due {n : Nat} {rs : List Nat} (h : NoResetWithin (n + 1) rs) (r : List Nat) :
    rs ≠ 0 :: r :=
  fun he => absurd (h 0 r he) (by omega)

theorem NoResetWithin.later {n : Nat} {rs : List Nat} (h : NoResetWithin (n + 1) rs) :
    NoResetWithin n (passBoundary rs) := by
  match rs with
  | [] => exact .nil n
  | 0 :: r => exact absurd rfl (h.not_due r)
  | (k + 1) :: r =>
    rintro j q he
    cases he
    exact Nat.le_of_succ_le_succ (h (k + 1) r rfl)

theorem iterate_passBoundary_nil (n : Nat) : passBoundary^[n] [] = [] :=
  Function.iterate_fixed passBoundary_nil n

theorem iterate_passBoundary_cons (n : Nat) (r : List Nat) : passBoundary^[n] (n :: r) = 0 :: r := by
  induction n with
  | zero => rfl
  | succ n ih => rwa [Function.iterate_succ_apply, passBoundary_succ]

/-! ### Actions that are all answered -/

theorem perform_of_answered {o : MicroOp} {s : State} (hx : TransportOk s (flushCount [o]))
    (hd : DelayOk s (delayCount [o])) : perform o s = .running (opsDone [o] s) := by
  have h := performed o s
  generalize perform o s = r at h
  cases h with
  | goesOn => rfl
  | fails e ho he =>
    subst ho
    cases (hx 0 Nat.zero_lt_one).symm.trans he
  | waits ho hflush hdelay =>
    cases o with
    | flush => cases (hx 0 Nat.zero_lt_one).symm.trans (hflush rfl)
    | delay ms => cases (hd 0 Nat.zero_lt_one).symm.trans (hdelay ms rfl)
    | _ => cases ho

/-- The answers `TransportOk` speaks of, after one micro-operation. -/
theorem TransportOk.after_op {o : MicroOp} {os : List MicroOp} {s : State} (r : List Nat)
    (h : TransportOk s (flushCount (o :: os))) : TransportOk (opsDone [o] (s.setResets r)) (flushCount os) := by
  have hsplit : flushCount (o :: os) = flushCount [o] + flushCount os := flushCount_append [o] os
  rw [hsplit] at h
  exact h.later

theorem DelayOk.after_op {o : MicroOp} {os : List MicroOp} {s : State} (r : List Nat)
    (h : DelayOk s (delayCount (o :: os))) : DelayOk (opsDone [o] (s.setResets r)) (delayCount os) := by
  have hsplit : delayCount (o :: os) = delayCount [o] + delayCount os := delayCount_append [o] os
  rw [hsplit] at h
  exact h.later

theorem TransportOk.first_op {o : MicroOp} {os : List MicroOp} {s : State}
    (h : TransportOk s (flushCount (o :: os))) : TransportOk s (flushCount [o]) :=
  h.mono ((flushCount_append [o] os).symm ▸ Nat.le_add_right _ _)

theorem DelayOk.first_op {o : MicroOp} {os : List MicroOp} {s : State}
    (h : DelayOk s (delayCount (o :: os))) : DelayOk s (delayCount [o]) :=
  h.mono ((delayCount_append [o] os).symm ▸ Nat.le_add_right _ _)

theorem runOp_of_answered {o : MicroOp} {s : State} (hr : ∀ r, s.resets ≠ 0 :: r)
    (hx : TransportOk s (flushCount [o])) (hd : DelayOk s (delayCount [o])) :
    runOp o s = .running (opsDone [o] (s.setResets (passBoundary s.resets))) := by
  rcases boundary_cases s with ⟨-, hb⟩ | ⟨r, h, -⟩
  · rw [runOp, hb]
    exact perform_of_answered (s := s.setResets _) hx hd
  · exact absurd h (hr r)

/-- CUR after actions that started with it at `c`. -/
def cursorAfter : Half → List Act → Half
  | c, [] => c
  | c, .op _ :: as => cursorAfter c as
  | _, .cursor c :: as => cursorAfter c as

/-- Every action is done where each flush and delay is answered and no RESET comes before the last. -/
theorem runActs_of_answered {as : List Act} {s : State} (hr : NoResetWithin (opsOf as).length s.resets)
    (hx : TransportOk s (flushCount (opsOf as))) (hd : DelayOk s (delayCount (opsOf as))) :
    runActs as s = .running (((opsDone (opsOf as) s).setCur (cursorAfter s.cur as)).setResets
      (passBoundary^[(opsOf as).length] s.resets)) := by
  induction as generalizing s with
  | nil =>
    rw [opsOf_nil, opsDone_nil]
    rfl
  | cons a as ih =>
    cases a with
    | cursor c => exact ih (s := s.setCur c) hr hx hd
    | op o =>
      rw [opsOf_cons_op] at hr hx hd ⊢
      have hlater := ih (s := opsDone [o] (s.setResets (passBoundary s.resets))) hr.later (hx.after_op _)
        (hd.after_op _)
      rw [runActs, runAct, runOp_of_answered hr.not_due hx.first_op hd.first_op, Progress.running_andThen, hlater,
        opsDone_cons o (opsOf as), List.length_cons, Function.iterate_succ_apply, cursorAfter, opsDone_setResets,
        opsDone_setResets, State.setResets_resets, State.setResets_cur, opsDone_cur]
      generalize passBoundary^[_] _ = r
      rfl

/-- A RESET that comes before micro-operation `k` leaves the work of the first `k` behind it (R250). -/
theorem runActs_of_reset {as : List Act} {s : State} {k : Nat} {r : List Nat} (hr : s.resets = k :: r)
    (hk : k < (opsOf as).length) (hx : TransportOk s (flushCount ((opsOf as).take k)))
    (hd : DelayOk s (delayCount ((opsOf as).take k))) :
    runActs as s = .silent (applyReset ((opsDone ((opsOf as).take k) s).setResets r)) := by
  induction as generalizing s k with
  | nil => exact absurd hk (Nat.not_lt_zero k)
  | cons a as ih =>
    cases a with
    | cursor c => exact ih (s := s.setCur c) hr hk hx hd
    | op o =>
      rw [opsOf_cons_op] at hk hx hd ⊢
      cases k with
      | zero =>
        rw [runActs, runAct, runOp, boundary_of_due hr, List.take_zero, opsDone_nil]
        rfl
      | succ k =>
        rw [List.take_succ_cons] at hx hd ⊢
        have hlater := ih (s := opsDone [o] (s.setResets (k :: r))) rfl (Nat.lt_of_succ_lt_succ hk) (hx.after_op _)
          (hd.after_op _)
        rw [runActs, runAct, runOp_of_answered (by rw [hr]; nofun) hx.first_op hd.first_op,
          Progress.running_andThen, hr, passBoundary_succ, hlater, opsDone_cons o (List.take k _), opsDone_setResets,
          opsDone_setResets]
        generalize opsDone _ _ = t
        rfl

/-! ### Commands that go through, and commands that a RESET abandons -/

/-- A command that passes its checks, with every flush and delay answered and no RESET to come. -/
theorem exec_of_answered {i : Instr} {s : State} {payload : List Byte} {as : List Act}
    (hc : course s.params i = .ok (payload, as)) (hr : s.resets = []) (hx : TransportOk s (flushCount (opsOf as)))
    (hd : DelayOk s (delayCount (opsOf as))) :
    exec i s = .next ((((usedDly (usedXport s (flushCount (opsOf as))) (delayCount (opsOf as))).setFb
      (drawAll s.params (opsOf as) s.fb)).setCur (cursorAfter s.cur as)).ended
      (outputsOf s.params (opsOf as) s.fb) (okResponse payload)) := by
  rw [exec_eq_runCourse, hc, runCourse, runActs_of_answered (hr ▸ .nil _) hx hd, hr, iterate_passBoundary_nil, finish,
    respond_eq_ended _ (State.setResets_resets _ [])]
  simp [State.ext_iff, opsDone, hr]

theorem respond_of_due {s : State} {r : List Nat} (bytes : Packet) (h : s.resets = 0 :: r) :
    respond bytes s = applyReset (s.setResets r) := by
  rw [respond, boundary_of_due h]

/-- A RESET at the `k`-th boundary of a course, its micro-operations before it all answered. -/
theorem runCourse_of_reset {c : Course} {s : State} {k : Nat} {r : List Nat} (hr : s.resets = k :: r)
    (hk : k ≤ c.ops.length) (hx : TransportOk s (flushCount (c.ops.take k)))
    (hd : DelayOk s (delayCount (c.ops.take k))) :
    runCourse c s = applyReset ((opsDone (c.ops.take k) s).setResets r) := by
  match c with
  | .error e =>
    obtain rfl : k = 0 := Nat.le_zero.mp hk
    rw [runCourse, respond_of_due _ hr, List.take_zero, opsDone_nil]
  | .ok (payload, as) =>
    rw [Course.ops] at hk hx hd ⊢
    rcases hk.lt_or_eq with hlt | rfl
    · rw [runCourse, runActs_of_reset hr hlt hx hd, finish]
    · rw [List.take_length] at hx hd ⊢
      have hnone : NoResetWithin (opsOf as).length s.resets := by
        rintro j q he
        cases hr.symm.trans he
        exact Nat.le_refl _
      rw [runCourse, runActs_of_answered hnone hx hd, finish, hr, iterate_passBoundary_cons, respond_of_due _ rfl]
      rfl

theorem exec_of_reset {i : Instr} {s : State} {k : Nat} {r : List Nat} (hi : i.wellFormed = true)
    (hr : s.resets = k :: r) (hk : k ≤ (script s.params i).length)
    (hx : TransportOk s (flushCount ((script s.params i).take k)))
    (hd : DelayOk s (delayCount ((script s.params i).take k))) :
    exec i s = .next (applyReset ((opsDone ((script s.params i).take k) s).setResets r)) := by
  rw [script_eq_ops_course hi] at hk hx hd ⊢
  rw [exec_eq_runCourse, runCourse_of_reset hr hk hx hd]

end Sys2Proof.Machine
end

section
/-! How every command ends, RESETs or not (30_encoding.md R94, 60_exceptions.md R220 to R229, 70 R250), and what no
step changes. -/

namespace Sys2Proof.Machine

/-! ### Courses -/

theorem encodedCourse_eq_ok {p : Params} {str payload : List Byte} {as : List Act}
    {f : List Byte → List Byte × List Act} (h : encodedCourse p str f = .ok (payload, as)) :
    ∃ ms, encodeString p str = .ok ms ∧ f ms = (payload, as) := by
  unfold encodedCourse at h
  cases hs : encodeString p str with
  | error c => rw [hs] at h; cases h
  | ok ms =>
    rw [hs] at h
    exact ⟨ms, rfl, Except.ok.inj h⟩

theorem encodedCourse_eq_error {p : Params} {str : List Byte} {e : Err} {f : List Byte → List Byte × List Act}
    (h : encodedCourse p str f = .error e) : ∃ c, encodeString p str = .error c ∧ e = .characterOutOfRange c := by
  unfold encodedCourse at h
  cases hs : encodeString p str with
  | ok ms => rw [hs] at h; cases h
  | error c =>
    rw [hs] at h
    exact ⟨c, rfl, (Except.error.inj h).symm⟩

/-- A string of four characters that NARROW supports encodes in both variants. -/
theorem encodeString_ne_error {p : Params} {str : List Byte} (hl : str.length = 4)
    (h : ∀ c ∈ str, supported .narrow c = true) (c : Byte) : encodeString p str ≠ .error c := by
  rw [encodeString_of_length_four hl fun c hc => supported_of_narrow (h c hc) _]
  nofun

/-- The commands whose checks read characters (R222). -/
inductive ReadsCharacters : Instr → Prop where
  | encc (c : Byte) : ReadsCharacters (.encc c)
  | encs (cs : List Byte) : ReadsCharacters (.encs cs)
  | temp (v : Word) : ReadsCharacters (.temp v)
  | scroll (delayMs : Half) (str : List Byte) : ReadsCharacters (.scroll delayMs str)

theorem ReadsCharacters.readsCharacters {i : Instr} (h : ReadsCharacters i) : readsCharacters i = true := by
  cases h <;> rfl

/-- The errors a command's checks can find (R221, R222). -/
inductive CheckFails (p : Params) (i : Instr) : Err → Prop where
  | position (pos : Byte) (masks : List Byte) (hi : i = .write pos masks) (hpos : 3 < pos.toNat) :
      CheckFails p i .positionOutOfRange
  | character (c : Byte) (hi : ReadsCharacters i) (hc : supported p.variant c = false) :
      CheckFails p i (.characterOutOfRange c)

theorem checkFails_of_encodedCourse {p : Params} {i : Instr} {str : List Byte} {e : Err}
    {f : List Byte → List Byte × List Act} (hi : ReadsCharacters i) (h : encodedCourse p str f = .error e) :
    CheckFails p i e := by
  obtain ⟨c, hs, rfl⟩ := encodedCourse_eq_error h
  exact .character c hi (unsupported_of_encodeString_error hs)

theorem checkFails_of_course {p : Params} {i : Instr} {e : Err} (h : course p i = .error e) : CheckFails p i e := by
  cases i with
  | clear color => cases h
  | colon on => cases h
  | write pos masks =>
    by_cases hpos : 3 < pos.toNat
    · rw [course, if_pos hpos] at h
      cases h
      exact .position pos masks rfl hpos
    · rw [course, if_neg hpos] at h
      cases h
  | encd n => cases h
  | encc c =>
    cases hc : supported p.variant c with
    | false =>
      rw [course, encodeChar_of_unsupported hc] at h
      cases h
      exact .character c (.encc c) hc
    | true =>
      rw [course, encodeChar_of_supported hc] at h
      cases h
  | encs cs => exact checkFails_of_encodedCourse (.encs cs) h
  | hex v => cases h
  | number v =>
    obtain ⟨c, hs, -⟩ := encodedCourse_eq_error h
    exact absurd hs (encodeString_ne_error (length_numberString _) (fun _ => supported_of_mem_numberString) c)
  | numbers a b colon =>
    obtain ⟨c, hs, -⟩ := encodedCourse_eq_error h
    exact absurd hs (encodeString_ne_error (length_numbersString _ _) (fun _ => supported_of_mem_numbersString) c)
  | temp v => exact checkFails_of_encodedCourse (.temp v) h
  | scroll delayMs str => exact checkFails_of_encodedCourse (.scroll delayMs str) h

/-- A lookup does nothing between its checks and its response (R130). -/
theorem acts_of_isLookup {p : Params} {i : Instr} {payload : List Byte} {as : List Act} (hi : isLookup i = true)
    (h : course p i = .ok (payload, as)) : as = [] := by
  obtain ⟨n, rfl⟩ | ⟨c, rfl⟩ | ⟨cs, rfl⟩ := isLookup_iff.mp hi
  · cases h
    rfl
  · cases hc : encodeChar p c with
    | error e => rw [course, hc] at h; cases h
    | ok m =>
      rw [course, hc] at h
      cases h
      rfl
  · obtain ⟨ms, -, hf⟩ := encodedCourse_eq_ok h
    cases hf
    rfl

theorem okPayloadOf_of_course {p : Params} {i : Instr} {payload : List Byte} {as : List Act}
    (hi : i.wellFormed = true) (h : course p i = .ok (payload, as)) : okPayloadOf i payload = true := by
  have hencoded {str : List Byte} {acts : List Byte → List Act}
      (he : (encodedCourse p str fun ms => ([], acts ms)) = .ok (payload, as)) : payload = [] := by
    obtain ⟨ms, -, hf⟩ := encodedCourse_eq_ok he
    cases hf
    rfl
  cases i with
  | clear color => cases h; rfl
  | colon on => cases h; rfl
  | write pos masks =>
    rw [course] at h
    split at h
    · cases h
    · cases h
      rfl
  | encd n => cases h; rfl
  | encc c =>
    rw [course] at h
    split at h
    · cases h
    · cases h
      rfl
  | encs cs =>
    obtain ⟨ms, hs, hf⟩ := encodedCourse_eq_ok h
    cases hf
    simp only [Instr.wellFormed, decide_eq_true_eq] at hi
    have hle : ms.length ≤ 255 := length_le_maxLen_of_encodeString hs hi
    simp only [okPayloadOf, decide_eq_true_eq, BitVec.toNat_ofNat]
    omega
  | hex v => cases h; rfl
  | number v => rw [hencoded h]; rfl
  | numbers a b colon => rw [hencoded h]; rfl
  | temp v => rw [hencoded h]; rfl
  | scroll delayMs str => rw [hencoded h]; rfl

/-! ### A course with RESETs to come -/

/-- `t` comes after `s` in a command: no response was sent, and no RESET to come is new. -/
structure State.Leads (s t : State) : Prop where
  resets : t.resets.length ≤ s.resets.length
  outputs : ∃ os, responsesOf os = [] ∧ t.out = s.out ++ os

theorem State.Leads.refl (s : State) : s.Leads s := ⟨Nat.le_refl _, [], rfl, (List.append_nil _).symm⟩

theorem State.Leads.trans {s t u : State} (hst : s.Leads t) (htu : t.Leads u) : s.Leads u := by
  obtain ⟨hr, os, hos, hout⟩ := hst
  obtain ⟨hr', us, hus, hout'⟩ := htu
  refine ⟨hr'.trans hr, os ++ us, ?_, ?_⟩
  · rw [responsesOf_append, hos, hus]
    rfl
  · rw [hout', hout, List.append_assoc]

theorem length_passBoundary (rs : List Nat) : (passBoundary rs).length = rs.length := by
  match rs with
  | [] => rfl
  | 0 :: r => rfl
  | (k + 1) :: r => rfl

theorem leads_opsDone (os : List MicroOp) (s : State) : s.Leads (opsDone os (s.setResets (passBoundary s.resets))) :=
  ⟨(length_passBoundary s.resets).le, _, responsesOf_outputsOf _ _ _, rfl⟩

/-- A RESET has abandoned what began in `s` (R250). -/
structure State.Abandoned (s t : State) : Prop where
  outputs : ∃ os, responsesOf os = [] ∧ t.out = s.out ++ os
  resets : t.resets.length < s.resets.length
  idle : t.seq = .idle
  cleared : t.fb = []
  cursor : t.cur = 0

theorem abandoned_of_due {s t : State} {r : List Nat} (hst : s.Leads t) (h : t.resets = 0 :: r) :
    s.Abandoned (applyReset (t.setResets r)) := by
  refine ⟨hst.outputs, ?_, rfl, rfl, rfl⟩
  have hle := hst.resets
  rw [h] at hle
  exact hle

/-- How far a command that has passed its checks in `s` has come: no error but IoError. -/
inductive Ran (s : State) : Progress → Prop where
  | running {t : State} (h : s.Leads t) : Ran s (.running t)
  | ioError {t : State} (e : Byte) (h : s.Leads t) : Ran s (.raised (.ioError e) t)
  | waiting {t : State} (h : s.Leads t) (hbusy : t.seq = .busy) : Ran s (.silent t)
  | abandoned {t : State} (h : s.Abandoned t) : Ran s (.silent t)

theorem Ran.of_later {s t : State} {r : Progress} (hst : s.Leads t) (h : Ran t r) : Ran s r := by
  cases h with
  | running htu => exact .running (hst.trans htu)
  | ioError e htu => exact .ioError e (hst.trans htu)
  | waiting htu hbusy => exact .waiting (hst.trans htu) hbusy
  | @abandoned u h =>
    obtain ⟨hout, hr, hidle, hfb, hcur⟩ := h
    exact .abandoned ⟨(hst.trans ⟨hr.le, hout⟩).outputs, hr.trans_le hst.resets, hidle, hfb, hcur⟩

theorem ran_runOp (o : MicroOp) (s : State) : Ran s (runOp o s) := by
  have h := opRun o s
  generalize runOp o s = r at h
  cases h with
  | abandoned r h => exact .abandoned (abandoned_of_due (.refl s) h)
  | performed _ hp =>
    cases hp with
    | goesOn => exact .running (leads_opsDone [o] s)
    | fails e => exact .ioError e (leads_opsDone [o] s)
    | waits => exact .waiting ⟨(leads_opsDone [o] s).resets, (leads_opsDone [o] s).outputs⟩ rfl

theorem ran_runActs (as : List Act) (s : State) : Ran s (runActs as s) := by
  induction as generalizing s with
  | nil => exact .running (.refl s)
  | cons a as ih =>
    have ha : Ran s (runAct a s) := by
      cases a with
      | op o => exact ran_runOp o s
      | cursor c => exact .running ⟨Nat.le_refl _, [], rfl, (List.append_nil _).symm⟩
    rw [runActs]
    generalize runAct a s = r at ha ⊢
    cases ha with
    | @running t h => exact (ih t).of_later h
    | ioError e h => exact .ioError e h
    | waiting h hbusy => exact .waiting h hbusy
    | abandoned h => exact .abandoned h

/-! ### Every command ends one way -/

/-- A response is sent, or a RESET that is due comes before it. -/
theorem respond_cases (bytes : Packet) (s : State) :
    ((∀ r, s.resets ≠ 0 :: r) ∧ respond bytes s = (s.setResets (passBoundary s.resets)).ended [] bytes) ∨
      ∃ r, s.resets = 0 :: r ∧ respond bytes s = applyReset (s.setResets r) := by
  rcases boundary_cases s with ⟨h, hb⟩ | ⟨r, h, -⟩
  · rw [respond, hb]
    exact .inl ⟨h, rfl⟩
  · exact .inr ⟨r, h, respond_of_due bytes h⟩

/-- The ends of a command that began in `s` (R94, R250, 93 U8). -/
inductive EndsOneWay (i : Instr) (s t : State) : Prop where
  | responds (os : List Output) (r : Packet) (hos : responsesOf os = [])
      (hfits : i.wellFormed = true → responseFits i r = true) (hout : t.out = s.out ++ os ++ [.response r])
      (hidle : t.seq = .idle)
  | abandoned (h : s.Abandoned t)
  | waits (h : s.Leads t) (hbusy : t.seq = .busy)

theorem endsOneWay_respond {i : Instr} {s t : State} {bytes : Packet} (hst : s.Leads t)
    (hfits : i.wellFormed = true → responseFits i bytes = true) : EndsOneWay i s (respond bytes t) := by
  rcases respond_cases bytes t with ⟨-, h⟩ | ⟨r, hr, h⟩
  · obtain ⟨os, hos, hout⟩ := hst.outputs
    rw [h]
    exact .responds os bytes hos hfits (congrArg (· ++ [Output.response bytes]) hout) rfl
  · rw [h]
    exact .abandoned (abandoned_of_due hst hr)

theorem responseFits_of_checkFails {p : Params} {i : Instr} {e : Err} (h : CheckFails p i e) :
    responseFits i (errResponse e) = true := by
  cases h with
  | position pos masks hi hpos =>
    subst hi
    rfl
  | character c hi hc => simp [responseFits, errResponse, hi.readsCharacters]

theorem responseFits_ok {p : Params} {i : Instr} {payload : List Byte} {as : List Act} (hi : i.wellFormed = true)
    (h : course p i = .ok (payload, as)) : responseFits i (okResponse payload) = true := by
  simp [responseFits, okResponse, okPayloadOf_of_course hi h]

theorem responseFits_ioError {i : Instr} (h : isLookup i = false) (e : Byte) :
    responseFits i (errResponse (.ioError e)) = true := by
  simp [responseFits, errResponse, h]

theorem endsOneWay_exec {i : Instr} {s t : State} (h : exec i s = .next t) : EndsOneWay i s t := by
  rw [eq_runCourse_of_exec h]
  match hc : course s.params i with
  | .error e => exact endsOneWay_respond (.refl s) fun _ => responseFits_of_checkFails (checkFails_of_course hc)
  | .ok (payload, as) =>
    have hran := ran_runActs as s
    have hlookup (hi : isLookup i = true) : runActs as s = .running s := by rw [acts_of_isLookup hi hc]; rfl
    rw [runCourse]
    generalize runActs as s = r at hran hlookup ⊢
    cases hran with
    | running h => exact endsOneWay_respond h fun hi => responseFits_ok hi hc
    | ioError e h =>
      cases hi : isLookup i with
      | true => cases hlookup hi
      | false => exact endsOneWay_respond h fun _ => responseFits_ioError hi e
    | waiting h hbusy => exact .waits h hbusy
    | abandoned h => exact .abandoned h

/-- Settles O51: the end of a course is that of its command, and a RESET at a boundary of it is taken there. -/
theorem everyCommandEndsOneWay : Obligations.EveryCommandEndsOneWay := by
  refine ⟨fun i s t h => ?_, ?_⟩
  · cases endsOneWay_exec h with
    | responds os r hos hfits hout hidle => exact ⟨os, hos, .inl ⟨r, hfits, hout, hidle⟩⟩
    | abandoned h =>
      obtain ⟨⟨os, hos, hout⟩, hr, hidle, hfb, hcur⟩ := h
      exact ⟨os, hos, .inr (.inl ⟨hout, hidle, hfb, hcur, hr⟩)⟩
    | waits h hbusy =>
      obtain ⟨os, hos, hout⟩ := h.outputs
      exact ⟨os, hos, .inr (.inr ⟨hout, hbusy⟩)⟩
  · rintro i s k r done hi hr hk rfl hx hd
    exact exec_of_reset hi hr hk hx hd

/-! ### A failing flush -/

theorem mem_responsesOf {os : List Output} {r : Packet} : r ∈ responsesOf os ↔ Output.response r ∈ os := by
  simp only [responsesOf, List.mem_filterMap]
  constructor
  · rintro ⟨o, ho, h⟩
    cases o with
    | frame b => cases h
    | delay ms => cases h
    | response q =>
      cases h
      exact ho
  · exact fun h => ⟨_, h, rfl⟩

/-- How far actions have come where the flush after `n` accepted ones fails: before it, or ended by it with the
frame that failed, which is FB (R223, decision D20). -/
inductive FailsAt (s : State) (n : Nat) (e : Byte) : Progress → Prop where
  | before {r : Progress} (os : List Output) (hout : r.state.out = s.out ++ os) (hos : responsesOf os = [])
      (hlen : (framesOf os).length ≤ n) (hraised : ∀ e' t, r ≠ .raised e' t) : FailsAt s n e r
  | failed {t : State} (os : List Output) (hos : responsesOf os = []) (hlen : (framesOf os).length = n)
      (hout : t.out = s.out ++ (os ++ [.frame (frameOf t.params t.fb)])) : FailsAt s n e (.raised (.ioError e) t)

theorem FailsAt.of_later {s t : State} {n k : Nat} {e : Byte} {r : Progress} {os : List Output}
    (hos : responsesOf os = []) (hout : t.out = s.out ++ os) (hn : (framesOf os).length + k = n)
    (h : FailsAt t k e r) : FailsAt s n e r := by
  cases h with
  | before us hout' hus hlen hraised =>
    refine .before (os ++ us) (by rw [hout', hout, List.append_assoc]) ?_ ?_ hraised
    · rw [responsesOf_append, hos, hus]
      rfl
    · rw [framesOf_append, List.length_append]
      omega
  | failed us hus hlen hout' =>
    refine .failed (os ++ us) ?_ ?_ (by rw [hout', hout, List.append_assoc, List.append_assoc])
    · rw [responsesOf_append, hos, hus]
      rfl
    · rw [framesOf_append, List.length_append]
      omega

theorem TransportFails.later {s : State} {n k : Nat} {e : Byte} (h : TransportFails s (n + k) e) :
    TransportFails (usedXport s n) k e :=
  ⟨h.1.later, by rw [xportAt_usedXport]; exact h.2⟩

/-- Only a flush uses an answer of the transport, and where that is no failure the failing one comes later. -/
theorem flushCount_le_of_fails {o : MicroOp} {s : State} {n : Nat} {e : Byte} (hx : TransportFails s n e)
    (ho : o = .flush → ∀ e', xportAt s 0 ≠ .ioError e') : flushCount [o] ≤ n := by
  cases o with
  | flush =>
    have hn : n ≠ 0 := by
      rintro rfl
      exact ho rfl e hx.2
    exact Nat.one_le_iff_ne_zero.mpr hn
  | _ => exact Nat.zero_le n

theorem failsAt_runActs {as : List Act} {s : State} {n : Nat} {e : Byte} (hr : s.resets = [])
    (hx : TransportFails s n e) : FailsAt s n e (runActs as s) := by
  induction as generalizing s n with
  | nil => exact .before [] (List.append_nil _).symm rfl (Nat.zero_le n) nofun
  | cons a as ih =>
    cases a with
    | cursor c =>
      have hlater := ih (s := s.setCur c) hr hx
      exact hlater.of_later (s := s) (t := s.setCur c) (os := []) rfl (List.append_nil _).symm (Nat.zero_add n)
    | op o =>
      have hframes : (framesOf (outputsOf s.params [o] s.fb)).length = flushCount [o] :=
        length_framesOf_outputsOf _ _ _
      have hresponses := responsesOf_outputsOf s.params [o] s.fb
      rw [runActs, runAct, runOp_of_noReset o hr]
      have hp := performed o s
      generalize perform o s = r at hp ⊢
      cases hp with
      | goesOn hok =>
        have hle : flushCount [o] ≤ n := flushCount_le_of_fails hx fun ho e' he => by cases (hok ho).symm.trans he
        obtain ⟨k, rfl⟩ := Nat.exists_eq_add_of_le hle
        exact (ih (s := opsDone [o] s) hr hx.later).of_later hresponses rfl (by rw [hframes])
      | fails e' ho he =>
        subst ho
        obtain rfl : n = 0 := Nat.eq_zero_of_not_pos fun hn => by cases (hx.1 0 hn).symm.trans he
        cases hx.2.symm.trans he
        exact .failed [] rfl rfl rfl
      | waits ho hnever =>
        have hle : flushCount [o] ≤ n := flushCount_le_of_fails hx fun ho e' he => by cases (hnever ho).symm.trans he
        exact .before _ rfl hresponses (hframes.trans_le hle) nofun

theorem pastChecks_runActs (as : List Act) {s : State} (hr : s.resets = []) : PastChecks s (runActs as s) := by
  induction as generalizing s with
  | nil => exact .running (.of_same_out hr rfl)
  | cons a as ih =>
    have ha : PastChecks s (runAct a s) := by
      cases a with
      | op o => exact pastChecks_runOp o hr
      | cursor c => exact pastChecks_setCur c hr
    exact ha.andThen fun _ => ih

/-- A command that goes on or has raised an error has no RESET to come where there was none. -/
theorem resets_of_pastChecks {s : State} {r : Progress} (h : PastChecks s r) : r.state.resets = [] := by
  cases h with
  | running h => exact h.1
  | ioError e h => exact h.1
  | waiting h => exact h.1

theorem framesOf_append_response (os : List Output) (r : Packet) : framesOf (os ++ [.response r]) = framesOf os := by
  rw [framesOf_append]
  exact List.append_nil _

/-- The outputs of a command in which no flush failed. -/
theorem ioError_not_mem {os : List Output} {r : Packet} (hos : responsesOf os = []) (hr : ∀ e, r ≠ [0x03, e])
    (e : Byte) : Output.response [0x03, e] ∉ os ++ [.response r] := by
  intro h
  rcases List.mem_append.mp h with h | h
  · rw [← mem_responsesOf, hos] at h
    cases h
  · rw [List.mem_singleton] at h
    exact hr e (Output.response.inj h).symm

/-- Settles O50: in a course the failing flush is the last action, and no other end of it answers IoError. -/
theorem ioErrorEndsCommand : Obligations.IoErrorEndsCommand := by
  intro i s t n e hr hx h
  rw [eq_runCourse_of_exec h]
  have hended (u : State) (hu : u.resets = []) (bytes : Packet) :
      (respond bytes u).out = u.out ++ [.response bytes] := by rw [respond_eq_ended bytes hu]; rfl
  match hc : course s.params i with
  | .error e' =>
    have hbytes (e'' : Byte) : errResponse e' ≠ [0x03, e''] := by
      cases checkFails_of_course hc with
      | position => nofun
      | character c => simp [errResponse]
    exact ⟨[.response (errResponse e')], hended s hr _, Nat.zero_le _, fun h => absurd h (Nat.succ_ne_zero n).symm,
      fun _ => ioError_not_mem (os := []) rfl hbytes⟩
  | .ok (payload, as) =>
    have hfails := failsAt_runActs (as := as) hr hx
    have hrest := resets_of_pastChecks (pastChecks_runActs as hr)
    rw [runCourse]
    generalize runActs as s = r at hfails hrest ⊢
    cases hfails with
    | before os hout hos hlen hraised =>
      cases r with
      | running u =>
        refine ⟨os ++ [.response (okResponse payload)], ?_, ?_, ?_, fun _ => ioError_not_mem hos ?_⟩
        · rw [finish, hended u hrest, ← List.append_assoc]
          exact congrArg (· ++ _) hout
        · rw [framesOf_append_response]
          omega
        · rw [framesOf_append_response]
          omega
        · simp [okResponse]
      | raised e' u => exact absurd rfl (hraised e' u)
      | silent u =>
        refine ⟨os, hout, by omega, by omega, fun _ e' hmem => ?_⟩
        rw [← mem_responsesOf, hos] at hmem
        cases hmem
    | @failed u os hos hlen hout =>
      have hall : framesOf (os ++ [.frame (frameOf u.params u.fb)] ++ [.response [0x03, e]])
          = framesOf os ++ [frameOf u.params u.fb] := by
        rw [framesOf_append_response, framesOf_append]
        rfl
      have hsame : respond (errResponse (.ioError e)) u = u.ended [] [0x03, e] := respond_eq_ended _ hrest
      refine ⟨os ++ [.frame (frameOf u.params u.fb)] ++ [.response [0x03, e]], ?_, ?_, fun _ => ⟨os, ?_⟩, ?_⟩
      · rw [finish, hsame, State.ended_out, hout]
        simp
      · rw [hall, List.length_append, hlen]
        exact Nat.le_refl _
      · rw [finish, hsame]
        simp
      · rw [hall, List.length_append, hlen, List.length_singleton]
        omega

/-! ### The response 0x02 -/

/-- Settles O46: only the checks of four commands find an unsupported character. -/
theorem characterErrorsBeforeDrawing : Obligations.CharacterErrorsBeforeDrawing := by
  refine ⟨fun i s t os c hr h hout hos => ?_, fun s delayMs cs c hr hs => ⟨?_, exec_encs_of_error hs hr⟩⟩
  · rw [eq_runCourse_of_exec h] at hout ⊢
    match hc : course s.params i with
    | .error e =>
      have hend : runCourse (.error e) s = s.ended [] (errResponse e) := respond_eq_ended _ hr
      rw [hc, hend] at hout
      have hbytes : errResponse e = [0x02, c] := by
        refine response_eq_of_out_eq (pre := s.out) (os := []) (us := os) ?_
        rw [← hout]
        simp
      have hcheck := checkFails_of_course hc
      rw [hend, hbytes]
      cases hcheck with
      | position => cases hbytes
      | character c' hi hsupported =>
        cases hbytes
        refine ⟨rfl, hsupported, ?_⟩
        cases hi with
        | encc d => exact .inl ⟨d, rfl⟩
        | encs cs => exact .inr (.inl ⟨cs, rfl⟩)
        | temp v => exact .inr (.inr (.inl ⟨v, rfl⟩))
        | scroll d cs => exact .inr (.inr (.inr ⟨d, cs, rfl⟩))
    | .ok (payload, as) =>
      rw [hc] at hout
      cases finish_of_pastChecks payload (pastChecks_runActs as hr) with
      | ok us q hus hout' => simpa [okResponse] using response_eq_of_out_eq (hout'.symm.trans hout)
      | ioError us e hus hout' => simpa [errResponse] using response_eq_of_out_eq (hout'.symm.trans hout)
      | waiting us hus hout' => exact absurd hus (responsesOf_ne_nil_of_out_eq (hout'.symm.trans hout))
  · rw [exec_eq_runCourse, course, encodedCourse, hs]
    exact congrArg Host.Outcome.next (respond_eq_ended _ hr)

end Sys2Proof.Machine
end

section
/-! Two runs of one course from states that agree on the screen and on what the outside does: they take the same
turns (10_state.md R21, R26; 60_exceptions.md R228). Drawing and the frames read W and BANDS alone of the parameters
(43_composer.md R178). -/

namespace Sys2Proof.Machine

/-! ### Screens of one size -/

structure SameScreen (p p' : Params) : Prop where
  width : p.width = p'.width
  bands : p.bands = p'.bands

theorem drawOn_congr {p p' : Params} (h : SameScreen p p') (o : MicroOp) (m : List Host.Cell) :
    drawOn p o m = drawOn p' o m := by
  obtain ⟨v, w, b, tb⟩ := p
  obtain ⟨v', w', b', tb'⟩ := p'
  obtain ⟨rfl, rfl⟩ := h
  cases o <;> rfl

theorem outputsOf_one_congr {p p' : Params} (h : SameScreen p p') (o : MicroOp) (m : List Host.Cell) :
    outputsOf p [o] m = outputsOf p' [o] m := by
  obtain ⟨v, w, b, tb⟩ := p
  obtain ⟨v', w', b', tb'⟩ := p'
  obtain ⟨rfl, rfl⟩ := h
  cases o <;> rfl

/-! ### Runs that agree -/

/-- `t` comes after `s` as `t'` comes after `s'`: they agree but for what each began with. CUR may still be what it
was at first. -/
structure Alike (s s' t t' : State) : Prop where
  params : t.params = s.params ∧ t'.params = s'.params
  screen : SameScreen s.params s'.params
  cmd : t.cmd = s.cmd ∧ t'.cmd = s'.cmd
  fb : t.fb = t'.fb
  xport : t.xport = t'.xport
  xportDraws : t.xportDraws = t'.xportDraws
  dly : t.dly = t'.dly
  dlyDraws : t.dlyDraws = t'.dlyDraws
  resets : t.resets = t'.resets
  cur : t.cur = t'.cur ∨ (t.cur = s.cur ∧ t'.cur = s'.cur)
  out : ∃ os, t.out = s.out ++ os ∧ t'.out = s'.out ++ os

/-- How two runs have come equally far. -/
inductive AlikeRuns (s s' : State) : Progress → Progress → Prop where
  | running {t t' : State} (h : Alike s s' t t') : AlikeRuns s s' (.running t) (.running t')
  | raised {t t' : State} (e : Err) (h : Alike s s' t t') : AlikeRuns s s' (.raised e t) (.raised e t')
  | silent {t t' : State} (h : Alike s s' t t') (hseq : t.seq = t'.seq) : AlikeRuns s s' (.silent t) (.silent t')

section

variable {s s' t t' : State}

theorem Alike.setResets (h : Alike s s' t t') (r : List Nat) : Alike s s' (t.setResets r) (t'.setResets r) :=
  { h with resets := rfl }

theorem Alike.setSeq (h : Alike s s' t t') (q : Sequencer) : Alike s s' (t.setSeq q) (t'.setSeq q) :=
  { h with }

theorem Alike.setCur (h : Alike s s' t t') (c : Half) : Alike s s' (t.setCur c) (t'.setCur c) :=
  { h with cur := .inl rfl }

theorem Alike.after_reset (h : Alike s s' t t') : Alike s s' (applyReset t) (applyReset t') :=
  { h with fb := rfl, cur := .inl rfl }

theorem Alike.emits (h : Alike s s' t t') (us : List Output) : Alike s s' (t.emits us) (t'.emits us) := by
  obtain ⟨os, hout, hout'⟩ := h.out
  exact { h with out := ⟨os ++ us, by simp [hout], by simp [hout']⟩ }

theorem Alike.screen_now (h : Alike s s' t t') : SameScreen t.params t'.params := by
  rw [h.params.1, h.params.2]
  exact h.screen

theorem Alike.after_op (h : Alike s s' t t') (o : MicroOp) : Alike s s' (opsDone [o] t) (opsDone [o] t') := by
  have hout : outputsOf t.params [o] t.fb = outputsOf t'.params [o] t'.fb := by
    rw [h.fb, outputsOf_one_congr h.screen_now]
  have hdrawn : drawOn t.params o t.fb = drawOn t'.params o t'.fb := by rw [h.fb, drawOn_congr h.screen_now]
  have hbefore : Alike s s' ((usedDly (usedXport t (flushCount [o])) (delayCount [o])).setFb (drawOn t.params o t.fb))
      ((usedDly (usedXport t' (flushCount [o])) (delayCount [o])).setFb (drawOn t'.params o t'.fb)) :=
    { h with
      fb := hdrawn
      xport := congrArg (List.drop _) h.xport
      xportDraws := by simp [h.xport, h.xportDraws]
      dly := congrArg (List.drop _) h.dly
      dlyDraws := by simp [h.dly, h.dlyDraws] }
  unfold opsDone
  rw [← hout]
  exact hbefore.emits _

theorem alikeRuns_perform (h : Alike s s' t t') (o : MicroOp) : AlikeRuns s s' (perform o t) (perform o t') := by
  have hdone := h.after_op o
  by_cases hd : o.draws = true
  · rw [perform_of_draws_eq hd, perform_of_draws_eq hd]
    exact .running hdone
  · cases o with
    | flush =>
      have hanswer := xportAt_congr h.xport h.xportDraws 0
      cases hx : xportAt t 0 with
      | ok =>
        rw [perform_flush_of_ok hx, perform_flush_of_ok (hanswer ▸ hx)]
        exact .running hdone
      | ioError e =>
        rw [perform_flush_of_ioError hx, perform_flush_of_ioError (hanswer ▸ hx)]
        exact .raised _ hdone
      | never =>
        rw [perform_flush_of_never hx, perform_flush_of_never (hanswer ▸ hx)]
        exact .silent (hdone.setSeq .busy) rfl
    | delay ms =>
      have hanswer := dlyAt_congr h.dly h.dlyDraws 0
      cases hx : dlyAt t 0 with
      | done =>
        rw [perform_delay_of_done hx, perform_delay_of_done (hanswer ▸ hx)]
        exact .running hdone
      | never =>
        rw [perform_delay_of_never hx, perform_delay_of_never (hanswer ▸ hx)]
        exact .silent (hdone.setSeq .busy) rfl
    | _ => exact absurd rfl hd

theorem alikeRuns_boundary (h : Alike s s' t t') : AlikeRuns s s' (boundary t) (boundary t') := by
  rcases boundary_cases t with ⟨hdue, hb⟩ | ⟨r, hdue, hb⟩
  · rcases boundary_cases t' with ⟨-, hb'⟩ | ⟨r', hdue', -⟩
    · rw [hb, hb', ← h.resets]
      exact .running (h.setResets _)
    · exact absurd (h.resets.trans hdue') (hdue r')
  · rw [hb, boundary_of_due (h.resets ▸ hdue)]
    exact .silent (h.setResets r).after_reset rfl

theorem AlikeRuns.andThen {r r' : Progress} {f : State → Progress} (h : AlikeRuns s s' r r')
    (hf : ∀ t t', Alike s s' t t' → AlikeRuns s s' (f t) (f t')) : AlikeRuns s s' (r.andThen f) (r'.andThen f) := by
  cases h with
  | running h => exact hf _ _ h
  | raised e h => exact .raised e h
  | silent h hseq => exact .silent h hseq

theorem alikeRuns_runActs (as : List Act) (h : Alike s s' t t') : AlikeRuns s s' (runActs as t) (runActs as t') := by
  induction as generalizing t t' with
  | nil => exact .running h
  | cons a as ih =>
    refine AlikeRuns.andThen ?_ fun _ _ => ih
    cases a with
    | op o => exact (alikeRuns_boundary h).andThen fun _ _ h => alikeRuns_perform h o
    | cursor c => exact .running (h.setCur c)

theorem alike_respond (bytes : Packet) (h : Alike s s' t t') :
    Alike s s' (respond bytes t) (respond bytes t') ∧ (respond bytes t).seq = (respond bytes t').seq := by
  rcases respond_cases bytes t with ⟨hdue, ht⟩ | ⟨r, hdue, ht⟩
  · rcases respond_cases bytes t' with ⟨-, ht'⟩ | ⟨r', hdue', -⟩
    · rw [ht, ht', ← h.resets]
      exact ⟨((h.setResets _).emits _).setSeq .idle, rfl⟩
    · exact absurd (h.resets.trans hdue') (hdue r')
  · rw [ht, respond_of_due bytes (h.resets ▸ hdue)]
    exact ⟨(h.setResets r).after_reset, rfl⟩

/-- One course, begun in two states that agree, ends in two that agree, and their sequencers do too. -/
theorem alike_runCourse (c : Course) (h : Alike s s' s s') :
    Alike s s' (runCourse c s) (runCourse c s') ∧ (runCourse c s).seq = (runCourse c s').seq := by
  match c with
  | .error e => exact alike_respond _ h
  | .ok (payload, as) =>
    have hruns := alikeRuns_runActs as h
    rw [runCourse, runCourse]
    generalize runActs as s = r at hruns ⊢
    generalize runActs as s' = r' at hruns ⊢
    cases hruns with
    | running h => exact alike_respond _ h
    | raised e h => exact alike_respond _ h
    | silent h hseq => exact ⟨h, hseq⟩

end

/-- Settles O56: both states run the same course. -/
theorem earlierCommandsLeaveOnlyFb : Obligations.EarlierCommandsLeaveOnlyFb := by
  intro i s s' t t' hp hfb hx hxd hd hdd hr h h'
  have hsame : Alike s s' s s' :=
    { params := ⟨rfl, rfl⟩, screen := hp ▸ ⟨rfl, rfl⟩, cmd := ⟨rfl, rfl⟩, fb := hfb, xport := hx, xportDraws := hxd,
      dly := hd, dlyDraws := hdd, resets := hr, cur := .inr ⟨rfl, rfl⟩,
      out := ⟨[], (List.append_nil _).symm, (List.append_nil _).symm⟩ }
  obtain ⟨hend, hseq⟩ := alike_runCourse (course s.params i) hsame
  rw [eq_runCourse_of_exec h, eq_runCourse_of_exec h', ← hp]
  exact ⟨hend.fb, hseq, hend.cur, hend.out⟩

/-- The compositor commands read no table and no variant (R178). -/
theorem course_withTable {i : Instr}
    (hi : (∃ c, i = .clear c) ∨ (∃ c, i = .colon c) ∨ ∃ pos masks, i = .write pos masks) (p p' : Params) :
    course p i = course p' i := by
  obtain ⟨c, rfl⟩ | ⟨c, rfl⟩ | ⟨pos, masks, rfl⟩ := hi <;> rfl

/-- A state that agrees with `t` after the same course from `s` with another table is `t` with that table. -/
theorem Alike.eq_withTable {s t t' : State} {v : Variant} {tb : Table} (h : Alike s (s.withTable v tb) t t')
    (hseq : t.seq = t'.seq) : t' = t.withTable v tb := by
  obtain ⟨os, hout, hout'⟩ := h.out
  refine State.ext ?_ h.fb.symm ?_ hseq.symm (h.cmd.2.trans h.cmd.1.symm) (hout'.trans hout.symm) h.xport.symm
    h.xportDraws.symm h.dly.symm h.dlyDraws.symm h.resets.symm
  · rw [h.params.2, State.withTable, State.withTable, h.params.1]
  · rcases h.cur with hc | ⟨hc, hc'⟩
    · exact hc.symm
    · exact hc'.trans hc.symm

/-- Settles O57: both states run the same course on screens of one size. -/
theorem variantDoesNotTouchCompositor : Obligations.VariantDoesNotTouchCompositor := by
  intro i s t v tb hi h
  have hsame : Alike s (s.withTable v tb) s (s.withTable v tb) :=
    { params := ⟨rfl, rfl⟩, screen := ⟨rfl, rfl⟩, cmd := ⟨rfl, rfl⟩, fb := rfl, xport := rfl, xportDraws := rfl,
      dly := rfl, dlyDraws := rfl, resets := rfl, cur := .inl rfl,
      out := ⟨[], (List.append_nil _).symm, (List.append_nil _).symm⟩ }
  obtain ⟨hend, hseq⟩ := alike_runCourse (course s.params i) hsame
  rw [exec_eq_runCourse, course_withTable hi _ s.params, eq_runCourse_of_exec h, hend.eq_withTable hseq]

end Sys2Proof.Machine
end

section
/-! Packets: the decoder against the canonical packet (30_encoding.md R84 to R90, R100). -/

namespace Sys2Proof

/-! ### Operand bytes -/

@[simp] theorem truth_truthByte (v : Bool) : truth (truthByte v) = v := by cases v <;> rfl

theorem toNat_countByte {xs : List Byte} (h : xs.length ≤ maxLen) : (countByte xs).toNat = xs.length := by
  unfold maxLen at h
  rw [countByte, BitVec.toNat_ofNat]
  omega

theorem countByte_of_length {xs : List Byte} {n : Byte} (h : xs.length = n.toNat) : countByte xs = n := by
  rw [countByte, h, BitVec.ofNat_toNat, BitVec.setWidth_eq]

theorem length_le_maxLen_of_count {xs : List Byte} {n : Byte} (h : xs.length = n.toNat) : xs.length ≤ maxLen := by
  unfold maxLen
  omega

/-- The length a count byte asks for is that of a packet which ends with the sequence it counts (R87). -/
theorem length_of_countByte {xs : List Byte} (h : xs.length ≤ maxLen) (j : Nat) :
    some (j + (countByte xs).toNat) = some (xs.length + j) := by
  rw [toNat_countByte h, Nat.add_comm]

theorem length_of_count {xs : List Byte} {n : Byte} {j : Nat} (h : some (j + n.toNat) = some (xs.length + j)) :
    xs.length = n.toNat := by
  rw [Nat.add_comm j] at h
  exact (Nat.add_right_cancel (Option.some.inj h)).symm

theorem append_halfBytes (v : Half) : v.extractLsb' 8 8 ++ v.extractLsb' 0 8 = v :=
  (BitVec.extractLsb'_append_extractLsb'_eq_extractLsb' rfl).trans BitVec.extractLsb'_eq_self

theorem append_wordBytes (v : Word) :
    (v.extractLsb' 24 8 ++ v.extractLsb' 16 8) ++ (v.extractLsb' 8 8 ++ v.extractLsb' 0 8) = v := by
  have hhi : v.extractLsb' 24 8 ++ v.extractLsb' 16 8 = v.extractLsb' 16 16 :=
    BitVec.extractLsb'_append_extractLsb'_eq_extractLsb' rfl
  have hlo : v.extractLsb' 8 8 ++ v.extractLsb' 0 8 = v.extractLsb' 0 16 :=
    BitVec.extractLsb'_append_extractLsb'_eq_extractLsb' rfl
  rw [hhi, hlo]
  exact (BitVec.extractLsb'_append_extractLsb'_eq_extractLsb' rfl).trans BitVec.extractLsb'_eq_self

theorem halfBytes_append (lo hi : Byte) : halfBytes (hi ++ lo) = [lo, hi] := by
  rw [halfBytes, BitVec.extractLsb'_append_eq_right, BitVec.extractLsb'_append_eq_left]

theorem wordBytes_append (b0 b1 b2 b3 : Byte) : wordBytes ((b3 ++ b2) ++ (b1 ++ b0)) = [b0, b1, b2, b3] := by
  have h0 : ((b3 ++ b2) ++ (b1 ++ b0)).extractLsb' 0 8 = b0 := by
    rw [BitVec.extractLsb'_append_eq_of_add_le (by decide), BitVec.extractLsb'_append_eq_right]
  have h1 : ((b3 ++ b2) ++ (b1 ++ b0)).extractLsb' 8 8 = b1 := by
    rw [BitVec.extractLsb'_append_eq_of_add_le (by decide), BitVec.extractLsb'_append_eq_left]
  have h2 : ((b3 ++ b2) ++ (b1 ++ b0)).extractLsb' 16 8 = b2 := by
    rw [BitVec.extractLsb'_append_eq_of_le (by decide)]
    exact BitVec.extractLsb'_append_eq_right
  have h3 : ((b3 ++ b2) ++ (b1 ++ b0)).extractLsb' 24 8 = b3 := by
    rw [BitVec.extractLsb'_append_eq_of_le (by decide)]
    exact BitVec.extractLsb'_append_eq_left
  rw [wordBytes, h0, h1, h2, h3]

/-! ### The decoder -/

theorem eq_byte_of_opcodeOf {op : Byte} {o : Opcode} (h : opcodeOf op = some o) : op = o.byte :=
  (beq_iff_eq.mp (List.find?_some (p := fun o : Opcode => o.byte == op) h)).symm

theorem decode_of_length {op : Byte} {rest : Packet} {o : Opcode} (ho : opcodeOf op = some o)
    (hl : requiredLength o.format (op :: rest) = some (rest.length + 1)) :
    decode (op :: rest) = .ok (operands o (op :: rest)) := by
  unfold decode
  simp only [ho]
  exact if_pos hl

theorem decode_of_wrong_length {op : Byte} {rest : Packet} {o : Opcode} (ho : opcodeOf op = some o)
    (hl : requiredLength o.format (op :: rest) ≠ some (rest.length + 1)) :
    decode (op :: rest) = .error (.wrongLength op (rest.length + 1)) := by
  unfold decode
  simp only [ho]
  exact if_neg hl

theorem decode_of_reserved {op : Byte} (rest : Packet) (ho : opcodeOf op = none) :
    decode (op :: rest) = .error (.reservedOpcode op) := by
  unfold decode
  simp only [ho]

/-- What decodes is an opcode's packet of the length its format requires. -/
theorem eq_operands_of_decode {p : Packet} {i : Instr} (h : decode p = .ok i) :
    ∃ (o : Opcode) (rest : Packet), p = o.byte :: rest ∧ i = operands o p ∧
      requiredLength o.format p = some (rest.length + 1) := by
  cases p with
  | nil => cases h
  | cons op rest =>
    cases ho : opcodeOf op with
    | none =>
      rw [decode_of_reserved rest ho] at h
      cases h
    | some o =>
      by_cases hl : requiredLength o.format (op :: rest) = some (rest.length + 1)
      · rw [decode_of_length ho hl] at h
        exact ⟨o, rest, by rw [eq_byte_of_opcodeOf ho], (Except.ok.inj h).symm, hl⟩
      · rw [decode_of_wrong_length ho hl] at h
        cases h

/-- Settles O1: each command's canonical packet has its opcode, its length and its operands. -/
theorem decodeEncodeRoundTrip : Obligations.DecodeEncodeRoundTrip := by
  intro i hi
  cases i with
  | clear color => exact congrArg (Except.ok ∘ Instr.clear) (truth_truthByte color)
  | colon on => exact congrArg (Except.ok ∘ Instr.colon) (truth_truthByte on)
  | write pos masks =>
    exact decode_of_length (o := .write) rfl (length_of_countByte (of_decide_eq_true hi) 3)
  | encd n => rfl
  | encc c => rfl
  | encs cs =>
    exact decode_of_length (o := .encs) rfl (length_of_countByte (of_decide_eq_true hi) 2)
  | hex v => exact congrArg (Except.ok ∘ Instr.hex) (append_halfBytes v)
  | number v => exact congrArg (Except.ok ∘ Instr.number) (append_wordBytes v)
  | numbers a b colon =>
    have ha := append_wordBytes a
    have hb := append_wordBytes b
    have hdecode : decode (encode (.numbers a b colon)) = .ok (.numbers
      ((a.extractLsb' 24 8 ++ a.extractLsb' 16 8) ++ (a.extractLsb' 8 8 ++ a.extractLsb' 0 8))
      ((b.extractLsb' 24 8 ++ b.extractLsb' 16 8) ++ (b.extractLsb' 8 8 ++ b.extractLsb' 0 8))
      (truth (truthByte colon))) := rfl
    rw [hdecode, ha, hb, truth_truthByte]
  | temp v => exact congrArg (Except.ok ∘ Instr.temp) (append_wordBytes v)
  | scroll delayMs str =>
    have hlength : requiredLength .sc (encode (.scroll delayMs str)) = some (encode (.scroll delayMs str)).length :=
      length_of_countByte (of_decide_eq_true hi) 4
    refine (decode_of_length (o := .scroll) rfl hlength).trans ?_
    exact congrArg (fun v => Except.ok (Instr.scroll v str)) (append_halfBytes delayMs)

/-! ### Packets that decode -/

/-- The commands with an on/off operand, and the packet byte it comes from (R87). -/
inductive TruthAt : Instr → Nat → Prop where
  | clear (v : Bool) : TruthAt (.clear v) 1
  | colon (v : Bool) : TruthAt (.colon v) 1
  | numbers (a b : Word) (v : Bool) : TruthAt (.numbers a b v) 9

/-- The canonical packet of a decoded command is the packet itself, or differs from it in the byte of an on/off
operand, which is that of its truth (R84, R100). -/
inductive CanonicalFor (p : Packet) (i : Instr) : Prop where
  | same (h : encode i = p)
  | truth (k : Nat) (hk : TruthAt i k) (hlt : k < p.length) (h : encode i = p.set k (truthByte (truth (byteAt p k))))

theorem canonical_of_decode {p : Packet} {i : Instr} (h : decode p = .ok i) :
    i.wellFormed = true ∧ CanonicalFor p i := by
  obtain ⟨o, rest, rfl, rfl, hl⟩ := eq_operands_of_decode h
  cases o with
  | clear =>
    match rest, hl with
    | [b], _ => exact ⟨rfl, .truth 1 (.clear _) (Nat.le_refl 2) rfl⟩
  | colon =>
    match rest, hl with
    | [b], _ => exact ⟨rfl, .truth 1 (.colon _) (Nat.le_refl 2) rfl⟩
  | write =>
    match rest, hl with
    | pos :: n :: masks, hl =>
      have hn : masks.length = n.toNat := length_of_count (j := 3) hl
      refine ⟨decide_eq_true (length_le_maxLen_of_count hn), .same ?_⟩
      exact congrArg (fun c => 0x03 :: pos :: c :: masks) (countByte_of_length hn)
  | encd =>
    match rest, hl with
    | [b], _ => exact ⟨rfl, .same rfl⟩
  | encc =>
    match rest, hl with
    | [b], _ => exact ⟨rfl, .same rfl⟩
  | encs =>
    match rest, hl with
    | n :: cs, hl =>
      have hn : cs.length = n.toNat := length_of_count (j := 2) hl
      refine ⟨decide_eq_true (length_le_maxLen_of_count hn), .same ?_⟩
      exact congrArg (fun c => 0x12 :: c :: cs) (countByte_of_length hn)
  | hex =>
    match rest, hl with
    | [b0, b1], _ => exact ⟨rfl, .same (congrArg (0x20 :: ·) (halfBytes_append b0 b1))⟩
  | number =>
    match rest, hl with
    | [b0, b1, b2, b3], _ => exact ⟨rfl, .same (congrArg (0x21 :: ·) (wordBytes_append b0 b1 b2 b3))⟩
  | numbers =>
    match rest, hl with
    | [a0, a1, a2, a3, b0, b1, b2, b3, c], _ =>
      refine ⟨rfl, .truth 9 (.numbers _ _ _) (Nat.le_refl 10) ?_⟩
      have hencode : encode (operands .numbers [Opcode.numbers.byte, a0, a1, a2, a3, b0, b1, b2, b3, c])
          = 0x22 :: (wordBytes ((a3 ++ a2) ++ (a1 ++ a0)) ++ wordBytes ((b3 ++ b2) ++ (b1 ++ b0))
            ++ [truthByte (truth c)]) := rfl
      rw [hencode, wordBytes_append, wordBytes_append]
      rfl
  | temp =>
    match rest, hl with
    | [b0, b1, b2, b3], _ => exact ⟨rfl, .same (congrArg (0x23 :: ·) (wordBytes_append b0 b1 b2 b3))⟩
  | scroll =>
    match rest, hl with
    | b0 :: b1 :: n :: cs, hl =>
      have hn : cs.length = n.toNat := length_of_count (j := 4) hl
      refine ⟨decide_eq_true (length_le_maxLen_of_count hn), .same ?_⟩
      have hencode : encode (operands .scroll (Opcode.scroll.byte :: b0 :: b1 :: n :: cs))
          = 0x24 :: (halfBytes (b1 ++ b0) ++ countByte cs :: cs) := rfl
      rw [hencode, halfBytes_append, countByte_of_length hn]
      rfl

theorem wellFormed_of_decode {p : Packet} {i : Instr} (h : decode p = .ok i) : i.wellFormed = true :=
  (canonical_of_decode h).1

theorem byteAt_set_ne {p : Packet} {k j : Nat} (b : Byte) (h : k ≠ j) : byteAt (p.set k b) j = byteAt p j := by
  simp [byteAt, h]

theorem byteAt_set_self {p : Packet} {k : Nat} (b : Byte) (h : k < p.length) : byteAt (p.set k b) k = b := by
  simp [byteAt, h]

/-- Settles O2: the two ways in which a packet is canonical. -/
theorem decodedPacketIsCanonicalButForTruth : Obligations.DecodedPacketIsCanonicalButForTruth := by
  intro p i h
  obtain ⟨hwf, hcanonical⟩ := canonical_of_decode h
  cases hcanonical with
  | same h => exact ⟨hwf, by rw [h], fun k => .inl (by rw [h]), fun _ _ _ => h⟩
  | truth k hk hlt h =>
    refine ⟨hwf, by rw [h, List.length_set], fun j => ?_, fun hclear hcolon hnumbers => ?_⟩
    · rw [h]
      by_cases hj : k = j
      · subst hj
        refine .inr ⟨byteAt_set_self _ hlt, ?_⟩
        cases hk with
        | clear v => exact .inl ⟨rfl, .inl ⟨v, rfl⟩⟩
        | colon v => exact .inl ⟨rfl, .inr ⟨v, rfl⟩⟩
        | numbers a b v => exact .inr ⟨rfl, a, b, v, rfl⟩
      · exact .inl (byteAt_set_ne _ hj)
    · cases hk with
      | clear v => exact absurd rfl (hclear v)
      | colon v => exact absurd rfl (hcolon v)
      | numbers a b v => exact absurd rfl (hnumbers a b v)

/-! ### Packets that do not -/

/-- Settles O3: the length is checked after the opcode. -/
theorem wrongLengthRejected : Obligations.WrongLengthRejected :=
  ⟨rfl, fun _ _ _ => decode_of_wrong_length⟩

/-- Settles O4: the list holds the bytes of all eleven opcodes. -/
theorem reservedOpcodesRejected : Obligations.ReservedOpcodesRejected := by
  intro op rest hop
  refine decode_of_reserved rest (List.find?_eq_none.mpr fun o _ ho => hop ?_)
  rw [← beq_iff_eq.mp ho]
  cases o <;> decide

/-- Settles O5: each packet by running the decoder. -/
theorem specPacketsDecode : Obligations.SpecPacketsDecode :=
  ⟨rfl, rfl, rfl, rfl, rfl, rfl, rfl, rfl⟩

end Sys2Proof
end

section
/-! One step: what it can do, what it never changes, and the invariant it keeps (10_state.md R20 to R34, 70 R250). -/

namespace Sys2Proof.Machine

/-! ### What a step can do -/

theorem step_of_resetLands {s : State} (h : resetLands s = true) :
    step s = .next (applyReset (s.setResets s.resets.tail)) := if_pos h

theorem step_of_busy {s : State} (h : resetLands s = false) (hbusy : s.seq = .busy) : step s = .next s := by
  rw [step, h, hbusy]
  rfl

theorem step_of_no_packet {s : State} (h : resetLands s = false) (hcmd : s.cmd = []) : step s = .next s := by
  cases hseq : s.seq with
  | busy => exact step_of_busy h hseq
  | idle =>
    rw [step, h, hseq, hcmd]
    rfl

theorem step_of_command {s : State} {p : Packet} {rest : List Packet} {i : Instr} (h : resetLands s = false)
    (hidle : s.seq = .idle) (hcmd : s.cmd = p :: rest) (hdecode : decode p = .ok i) :
    step s = exec i (s.accept rest) := by
  rw [step, h, hidle, hcmd]
  simp only [hdecode]
  rfl

theorem step_of_badCommand {s : State} {p : Packet} {rest : List Packet} {why : DecodeError}
    (h : resetLands s = false) (hidle : s.seq = .idle) (hcmd : s.cmd = p :: rest) (hdecode : decode p = .error why) :
    step s = .next (badCommand (s.accept rest)) := by
  rw [step, h, hidle, hcmd]
  simp only [hdecode]
  rfl

/-- The state a step leads to. -/
inductive StepsTo (s : State) : State → Prop where
  | resets : StepsTo s (applyReset (s.setResets s.resets.tail))
  | waits : StepsTo s s
  | runs {t : State} (rest : List Packet) (i : Instr) (hi : i.wellFormed = true)
      (h : exec i (s.accept rest) = .next t) : StepsTo s t
  | rejects (rest : List Packet) : StepsTo s (badCommand (s.accept rest))

theorem step_stepsTo (s : State) : ∃ t, step s = .next t ∧ StepsTo s t := by
  cases h : resetLands s with
  | true => exact ⟨_, step_of_resetLands h, .resets⟩
  | false =>
    cases hseq : s.seq with
    | busy => exact ⟨s, step_of_busy h hseq, .waits⟩
    | idle =>
      cases hcmd : s.cmd with
      | nil => exact ⟨s, step_of_no_packet h hcmd, .waits⟩
      | cons p rest =>
        cases hdecode : decode p with
        | error why => exact ⟨_, step_of_badCommand h hseq hcmd hdecode, .rejects rest⟩
        | ok i =>
          have hexec := exec_eq_runCourse i (s.accept rest)
          exact ⟨_, (step_of_command h hseq hcmd hdecode).trans hexec,
            .runs rest i (wellFormed_of_decode hdecode) hexec⟩

theorem stepsTo_of_step {s t : State} (h : step s = .next t) : StepsTo s t := by
  obtain ⟨u, hu, hto⟩ := step_stepsTo s
  cases h.symm.trans hu
  exact hto

/-- Settles O55: each turn of the step is a next state. -/
theorem stepNeverStops : Obligations.StepNeverStops := fun s =>
  (step_stepsTo s).imp fun _ h => h.1

theorem resetLands_of_counting {s : State} {p : Packet} {rest : List Packet} {k : Nat} {r : List Nat}
    (hidle : s.seq = .idle) (hcmd : s.cmd = p :: rest) (hr : s.resets = (k + 1) :: r) : resetLands s = false := by
  rw [resetLands, hr]
  simp [hidle, hcmd]

theorem accept_of_noReset {s : State} (rest : List Packet) (hr : s.resets = []) :
    s.accept rest = { s with cmd := rest, seq := .busy } := by
  rw [State.accept, hr, passBoundary_nil]

theorem accept_of_counting {s : State} (rest : List Packet) {k : Nat} {r : List Nat} (hr : s.resets = (k + 1) :: r) :
    s.accept rest = { s with cmd := rest, seq := .busy, resets := k :: r } := by
  rw [State.accept, hr, passBoundary_succ]

/-- Settles O6: the step of an idle block accepts the packet and runs its command. -/
theorem stepRunsDecodedCommand : Obligations.StepRunsDecodedCommand := by
  intro s p rest i hidle hcmd hdecode
  refine ⟨fun hr => ?_, fun k r hr => ?_⟩
  · rw [step_of_command (resetLands_of_noReset hr) hidle hcmd hdecode, accept_of_noReset rest hr]
  · rw [step_of_command (resetLands_of_counting hidle hcmd hr) hidle hcmd hdecode, accept_of_counting rest hr]

/-- Settles O7: the response of a packet that is no command stands at a boundary too. -/
theorem stepAnswersBadCommand : Obligations.StepAnswersBadCommand := by
  intro s p rest why hidle hcmd hdecode
  refine ⟨fun hr => ?_, fun r hr => ?_, fun k r hr => ?_⟩
  · rw [step_of_badCommand (resetLands_of_noReset hr) hidle hcmd hdecode, accept_of_noReset rest hr, hidle, hr]
    rfl
  · rw [step_of_badCommand (resetLands_of_counting hidle hcmd hr) hidle hcmd hdecode, accept_of_counting rest hr,
      hidle]
    rfl
  · rw [step_of_badCommand (resetLands_of_counting hidle hcmd hr) hidle hcmd hdecode, accept_of_counting rest hr,
      hidle]
    rfl

/-- Settles O8: with no RESET to come neither block has anything to do. -/
theorem stepWaits : Obligations.StepWaits := by
  rintro s hr (hbusy | hcmd)
  · exact step_of_busy (resetLands_of_noReset hr) hbusy
  · exact step_of_no_packet (resetLands_of_noReset hr) hcmd

/-- Settles O9: a RESET that is due is the step. -/
theorem stepTakesReset : Obligations.StepTakesReset := by
  intro s r hr
  have hlands : resetLands s = true := by rw [resetLands, hr]
  refine ⟨?_, fun a => rfl⟩
  rw [step_of_resetLands hlands, hr]
  rfl

/-- Settles O10: the fields of State.resetWith. -/
theorem resetStateValues : Obligations.ResetStateValues :=
  ⟨fun _ => ⟨rfl, fun _ => rfl, rfl, rfl, rfl, rfl, rfl⟩, rfl, rfl, rfl, rfl⟩

/-! ### What no step changes -/

theorem kept_of_opsDone {P : State → Prop} {o : MicroOp} {s : State} (h : P (opsDone [o] s))
    (hbusy : P ((opsDone [o] s).setSeq .busy)) : P (perform o s).state := by
  have hp := performed o s
  generalize perform o s = r at hp ⊢
  cases hp with
  | goesOn => exact h
  | fails => exact h
  | waits => exact hbusy

/-- `t` has the parameters of `s` and at least its outputs. -/
def State.Extends (s t : State) : Prop := t.params = s.params ∧ ∃ os, t.out = s.out ++ os

theorem State.Extends.refl (s : State) : s.Extends s := ⟨rfl, [], (List.append_nil _).symm⟩

theorem State.Extends.more {s t u : State} (h : s.Extends t) (hp : u.params = t.params) {us : List Output}
    (ho : u.out = t.out ++ us) : s.Extends u := by
  obtain ⟨hparams, os, hout⟩ := h
  exact ⟨hp.trans hparams, os ++ us, by rw [ho, hout, List.append_assoc]⟩

theorem kept_extends (s : State) : Kept s.Extends where
  tick _ _ h := h
  reset _ h := h
  op _ _ h := kept_of_opsDone (h.more rfl rfl) (h.more rfl rfl)
  cursor _ _ h := h
  response _ _ h := h.more rfl rfl

/-- Settles O54: every part of a command keeps the parameters and adds outputs only. -/
theorem paramsAndOutputsKept : Obligations.ParamsAndOutputsKept := by
  intro s t h
  cases stepsTo_of_step h with
  | resets => exact State.Extends.refl s
  | waits => exact State.Extends.refl s
  | runs rest i hi hexec =>
    obtain ⟨u, hu, hext⟩ := exec_keeps (kept_extends s) i (s := s.accept rest) (.refl s)
    cases hexec.symm.trans hu
    exact hext
  | rejects rest => exact respond_keeps (kept_extends s) _ (s := s.accept rest) (.refl s)

/-! ### The invariant -/

/-- Settles O52: no cell, no frame and no response at power-on. -/
theorem invariantAtReset : Obligations.InvariantAtReset := by
  have h (p : Params) : Inv (State.resetWith p) := ⟨rfl, rfl, Nat.zero_le _, nofun, nofun⟩
  exact ⟨h, h _⟩

/-- The part of the invariant that speaks of FB and of the frames. -/
structure BufferInv (s : State) : Prop where
  canonical : Memory.wf s.fb = true
  bounded : inBounds s.params s.fb = true
  frames : ∀ f ∈ framesOf s.out, f.length = fbBytes s.params

theorem length_of_mem_framesOf_outputsOf_one {p : Params} {o : MicroOp} {m : List Host.Cell} {f : List Byte}
    (h : f ∈ framesOf (outputsOf p [o] m)) : f.length = fbBytes p := by
  cases o with
  | flush =>
    rw [List.mem_singleton.mp h]
    exact length_frameOf p m
  | _ => cases h

theorem bufferInv_opsDone {s : State} (o : MicroOp) (h : BufferInv s) : BufferInv (opsDone [o] s) := by
  refine ⟨drawOn_wf o h.canonical, inBounds_drawOn o h.bounded, fun f hf => ?_⟩
  rw [opsDone_out, framesOf_append] at hf
  rcases List.mem_append.mp hf with hf | hf
  · exact h.frames f hf
  · exact length_of_mem_framesOf_outputsOf_one hf

theorem kept_bufferInv : Kept BufferInv where
  tick _ _ h := ⟨h.canonical, h.bounded, h.frames⟩
  reset _ h := ⟨rfl, rfl, h.frames⟩
  op s o h :=
    have hdone := bufferInv_opsDone o h
    kept_of_opsDone hdone ⟨hdone.canonical, hdone.bounded, hdone.frames⟩
  cursor _ _ h := ⟨h.canonical, h.bounded, h.frames⟩
  response s bytes h := by
    refine ⟨h.canonical, h.bounded, fun f hf => h.frames f ?_⟩
    rwa [State.setSeq_out, State.emit_out, framesOf_append_response] at hf

theorem cur_runActs_le {as : List Act} {b : Nat} (has : ∀ c, .cursor c ∈ as → c.toNat ≤ b) {s : State}
    (h : s.cur.toNat ≤ b) : (runActs as s).state.cur.toNat ≤ b := by
  induction as generalizing s with
  | nil => exact h
  | cons a as ih =>
    have hlater (t : State) (ht : t.cur.toNat ≤ b) : (runActs as t).state.cur.toNat ≤ b :=
      ih (fun c hc => has c (List.mem_cons_of_mem _ hc)) ht
    refine andThen_keeps (P := fun t => t.cur.toNat ≤ b) ?_ hlater
    cases a with
    | cursor c => exact has c List.mem_cons_self
    | op o =>
      have ho := opRun o s
      rw [runAct]
      generalize runOp o s = r at ho ⊢
      cases ho with
      | abandoned => exact Nat.zero_le b
      | performed _ hp => cases hp <;> exact h

theorem toNat_succ_le (c : Half) : (c + 1).toNat ≤ c.toNat + 1 := by bv_omega

theorem toNat_le_of_mem_maskActs {ms : List Byte} {c c' : Half} (h : .cursor c' ∈ maskActs c ms) :
    c'.toNat ≤ c.toNat + ms.length := by
  induction ms generalizing c with
  | nil => cases h
  | cons m ms ih =>
    have hnext := toNat_succ_le c
    rw [List.length_cons]
    simp only [maskActs, List.mem_append, List.mem_map, List.mem_cons, reduceCtorEq, and_false, exists_false,
      false_or, Act.cursor.injEq] at h
    rcases h with rfl | h
    · omega
    · have hle := ih h
      omega

/-- CUR never passes slot 258 (10_state.md R21): 3 and 255 masks. -/
theorem toNat_le_of_mem_writeActs {pos : Byte} {ms : List Byte} {c : Half} (hpos : pos.toNat ≤ 3)
    (hms : ms.length ≤ maxLen) (h : .cursor c ∈ writeActs pos ms) : c.toNat ≤ 258 := by
  unfold maxLen at hms
  have hc := toNat_setWidth_pos pos
  simp only [writeActs, List.mem_cons, Act.cursor.injEq] at h
  rcases h with rfl | h
  · omega
  · have hle := toNat_le_of_mem_maskActs h
    omega

theorem not_mem_ops {os : List MicroOp} (c : Half) : Act.cursor c ∉ os.map Act.op := by simp

theorem toNat_le_of_mem_course {p : Params} {i : Instr} {payload : List Byte} {as : List Act} {c : Half}
    (hi : i.wellFormed = true) (hcourse : course p i = .ok (payload, as)) (h : .cursor c ∈ as) : c.toNat ≤ 258 := by
  have hwrite0 {ms : List Byte} (hl : ms.length ≤ maxLen) (hc : .cursor c ∈ writeActs 0 ms) : c.toNat ≤ 258 :=
    toNat_le_of_mem_writeActs (by decide) hl hc
  cases hlookup : isLookup i with
  | true =>
    rw [acts_of_isLookup hlookup hcourse] at h
    cases h
  | false =>
    cases i with
    | clear color =>
      cases hcourse
      exact absurd h (not_mem_ops c)
    | colon on =>
      cases hcourse
      exact absurd h (not_mem_ops c)
    | write pos masks =>
      rw [course] at hcourse
      split at hcourse
      · cases hcourse
      · cases hcourse
        exact toNat_le_of_mem_writeActs (by omega) (of_decide_eq_true hi) h
    | encd n => cases hlookup
    | encc d => cases hlookup
    | encs cs => cases hlookup
    | hex v =>
      cases hcourse
      exact hwrite0 (ms := hexMasks p v) (by decide : 4 ≤ maxLen) h
    | number v =>
      obtain ⟨ms, hs, hf⟩ := encodedCourse_eq_ok hcourse
      cases hf
      exact hwrite0 (length_le_maxLen_of_encodeString hs (by rw [length_numberString]; decide)) h
    | numbers a b colon =>
      obtain ⟨ms, hs, hf⟩ := encodedCourse_eq_ok hcourse
      cases hf
      rcases List.mem_append.mp h with h | h
      · exact hwrite0 (length_le_maxLen_of_encodeString hs (by rw [length_numbersString]; decide)) h
      · exact absurd h (not_mem_ops c)
    | temp v =>
      obtain ⟨ms, hs, hf⟩ := encodedCourse_eq_ok hcourse
      cases hf
      rcases List.mem_append.mp h with h | h
      · exact hwrite0 (length_le_maxLen_of_encodeString hs (by rw [length_tempString]; decide)) h
      · exact toNat_le_of_mem_writeActs (pos := 2) (ms := degreeC) (by decide) (by decide) h
    | scroll delayMs str =>
      obtain ⟨ms, hs, hf⟩ := encodedCourse_eq_ok hcourse
      cases hf
      obtain ⟨w, hw, h⟩ := List.mem_flatMap.mp h
      rcases List.mem_append.mp h with h | h
      · exact hwrite0 (by rw [length_of_mem_scrollWindows hw]; decide) h
      · cases List.mem_singleton.mp h

theorem cur_respond_le {b : Nat} (bytes : Packet) {s : State} (h : s.cur.toNat ≤ b) :
    (respond bytes s).cur.toNat ≤ b := by
  rcases respond_cases bytes s with ⟨-, hs⟩ | ⟨r, -, hs⟩
  · rw [hs]
    exact h
  · rw [hs]
    exact Nat.zero_le b

theorem cur_exec_le {i : Instr} {s t : State} (hi : i.wellFormed = true) (hs : s.cur.toNat ≤ 258)
    (h : exec i s = .next t) : t.cur.toNat ≤ 258 := by
  rw [eq_runCourse_of_exec h]
  match hc : course s.params i with
  | .error e => exact cur_respond_le _ hs
  | .ok (payload, as) =>
    have hle := cur_runActs_le (fun c => toNat_le_of_mem_course hi hc) hs
    rw [runCourse]
    generalize runActs as s = r at hle ⊢
    cases r with
    | running u => exact cur_respond_le _ hle
    | raised e u => exact cur_respond_le _ hle
    | silent u => exact hle

theorem okPayload_of_okPayloadOf {i : Instr} {payload : List Byte} (h : okPayloadOf i payload = true) :
    okPayload payload = true := by
  match payload with
  | [] => rfl
  | [_] => rfl
  | k :: m :: ms =>
    cases i with
    | encs cs => exact h
    | _ => cases h

theorem legalResponse_of_responseFits {i : Instr} {r : Packet} (h : responseFits i r = true) :
    legalResponse r = true := by
  match r with
  | [] => cases h
  | st :: payload =>
    simp only [responseFits, Bool.decide_or, Bool.or_eq_true, decide_eq_true_eq] at h
    simp only [legalResponse, Bool.decide_or, Bool.or_eq_true, decide_eq_true_eq]
    rcases h with ⟨hst, hp⟩ | ⟨hst, hp, -⟩ | ⟨hst, hp, -⟩ | ⟨hst, hp, -⟩
    · exact .inl ⟨hst, okPayload_of_okPayloadOf hp⟩
    · exact .inr (.inl ⟨hst, hp⟩)
    · exact .inr (.inr (.inl ⟨hst, hp⟩))
    · exact .inr (.inr (.inr (.inl ⟨hst, hp⟩)))

/-- Every response is one of R94. -/
def ResponsesLegal (os : List Output) : Prop := ∀ r ∈ responsesOf os, legalResponse r = true

theorem ResponsesLegal.append {os us : List Output} (h : ResponsesLegal os) (hus : responsesOf us = []) :
    ResponsesLegal (os ++ us) := by
  rwa [ResponsesLegal, responsesOf_append, hus, List.append_nil]

theorem ResponsesLegal.append_response {os : List Output} {r : Packet} (h : ResponsesLegal os)
    (hr : legalResponse r = true) : ResponsesLegal (os ++ [.response r]) := by
  intro q hq
  rw [responsesOf_append] at hq
  rcases List.mem_append.mp hq with hq | hq
  · exact h q hq
  · rwa [List.mem_singleton.mp hq]

theorem responsesLegal_exec {i : Instr} {s t : State} (hi : i.wellFormed = true) (hs : ResponsesLegal s.out)
    (h : exec i s = .next t) : ResponsesLegal t.out := by
  cases endsOneWay_exec h with
  | responds os r hos hfits hout =>
    rw [hout]
    exact (hs.append hos).append_response (legalResponse_of_responseFits (hfits hi))
  | abandoned h =>
    obtain ⟨os, hos, hout⟩ := h.outputs
    rw [hout]
    exact hs.append hos
  | waits h =>
    obtain ⟨os, hos, hout⟩ := h.outputs
    rw [hout]
    exact hs.append hos

theorem Inv.bufferInv {s : State} (h : Inv s) : BufferInv s := ⟨h.canonical, h.bounded, h.frames⟩

theorem BufferInv.inv {s : State} (h : BufferInv s) (hcur : s.cur.toNat ≤ 258) (hresponses : ResponsesLegal s.out) :
    Inv s :=
  ⟨h.canonical, h.bounded, hcur, h.frames, hresponses⟩

theorem inv_exec {i : Instr} {s t : State} (hi : i.wellFormed = true) (hs : Inv s) (h : exec i s = .next t) :
    Inv t := by
  obtain ⟨u, hu, hbuffer⟩ := exec_keeps kept_bufferInv i hs.bufferInv
  cases h.symm.trans hu
  exact hbuffer.inv (cur_exec_le hi hs.cursor h) (responsesLegal_exec hi hs.responses h)

theorem inv_badCommand {s : State} (hs : Inv s) : Inv (badCommand s) := by
  refine (respond_keeps kept_bufferInv _ hs.bufferInv).inv (cur_respond_le _ hs.cursor) ?_
  rcases respond_cases badCommandResponse s with ⟨-, h⟩ | ⟨r, -, h⟩
  · rw [h]
    exact ResponsesLegal.append_response hs.responses rfl
  · rw [h]
    exact hs.responses

/-- Settles O53: a RESET clears FB, and a command keeps each part of the invariant. -/
theorem invariantKept : Obligations.InvariantKept := by
  intro s t hs h
  have haccept (rest : List Packet) : Inv (s.accept rest) :=
    ⟨hs.canonical, hs.bounded, hs.cursor, hs.frames, hs.responses⟩
  cases stepsTo_of_step h with
  | resets => exact ⟨rfl, rfl, Nat.zero_le _, hs.frames, hs.responses⟩
  | waits => exact hs
  | runs rest i hi hexec => exact inv_exec hi (haccept rest) hexec
  | rejects rest => exact inv_badCommand (haccept rest)

end Sys2Proof.Machine
end

section
/-! What the glyph and the colon show, pixel by pixel (43_composer.md R160 to R170, 20_memory.md R51 to R57). Each
element of a glyph is SetPixel over its pixels, so everything about a glyph follows from which pixels these are. -/

namespace Sys2Proof.Machine

/-! ### The element sets -/

/-- The element whose set a pixel of the glyph can only be in. -/
def elementOf (dx y : Int) : Nat :=
  if 17 ≤ dx then 7
  else if 13 ≤ dx then if y ≤ 21 then 1 else 2
  else if 3 ≤ dx then if y ≤ 2 then 0 else if y ≤ 24 then 6 else 3
  else if y ≤ 21 then 5 else 4

/-- An element lies inside the 19 columns of its glyph and is the only one that has its pixels (R166). -/
theorem of_inElement {k : Nat} {dx y : Int} (h : inElement k dx y = true) :
    0 ≤ dx ∧ dx ≤ 18 ∧ k < 8 ∧ k = elementOf dx y := by
  match k with
  | 0 | 1 | 2 | 3 | 4 | 5 | 6 | 7 =>
    rw [inElement, decide_eq_true_eq] at h
    unfold elementOf
    split_ifs <;> omega
  | _ + 8 => cases h

theorem slotX_eq (n : Nat) : slotX n = 21 * n + (if 2 ≤ n then 2 else 0) := rfl

theorem slot_and_element_unique {n n' k k' : Nat} {x y : Int} (h : inElement k (x - slotX n) y = true)
    (h' : inElement k' (x - slotX n') y = true) : n = n' ∧ k = k' := by
  obtain ⟨hlo, hhi, -, hk⟩ := of_inElement h
  obtain ⟨hlo', hhi', -, hk'⟩ := of_inElement h'
  have hn : n = n' := by
    rw [slotX_eq] at hlo hhi hlo' hhi'
    split_ifs at hlo hhi hlo' hhi' <;> omega
  subst hn
  exact ⟨rfl, hk.trans hk'.symm⟩

theorem elementAt_eq_some_iff {n x y k : Nat} :
    elementAt n x y = some k ↔ inElement k ((x : Int) - slotX n) y = true := by
  refine ⟨fun h => List.find?_some (p := fun k => inElement k ((x : Int) - slotX n) y) h, fun h => ?_⟩
  obtain ⟨-, -, hk, -⟩ := of_inElement h
  cases hfind : elementAt n x y with
  | none => exact absurd h (List.find?_eq_none.mp hfind k (List.mem_range.mpr hk))
  | some k' =>
    have hk' := List.find?_some (p := fun k => inElement k ((x : Int) - slotX n) y) hfind
    rw [(slot_and_element_unique h hk').2]

theorem elementAt_eq_none_iff {n x y : Nat} :
    elementAt n x y = none ↔ ∀ k, inElement k ((x : Int) - slotX n) y = false := by
  rw [Option.eq_none_iff_forall_ne_some]
  exact forall_congr' fun k => (not_congr elementAt_eq_some_iff).trans (iff_of_eq (Bool.not_eq_true _))

theorem elementAt_of_inColon (n : Nat) {x y : Nat} (h : inColon x y = true) : elementAt n x y = none := by
  refine elementAt_eq_none_iff.mpr fun k => Bool.eq_false_iff.mpr fun hk => ?_
  obtain ⟨hlo, hhi, -, -⟩ := of_inElement hk
  simp only [inColon, decide_eq_true_eq, Bool.decide_and, Bool.decide_or, Bool.and_eq_true, Bool.or_eq_true] at h
  rw [slotX_eq] at hlo hhi
  split_ifs at hlo hhi <;> omega

/-- Slot 4 begins at column 86 (R168, decision D12). -/
theorem elementAt_of_past_slot_three {n x y : Nat} (hn : 4 ≤ n) (hx : x < 86) : elementAt n x y = none := by
  refine elementAt_eq_none_iff.mpr fun k => Bool.eq_false_iff.mpr fun hk => ?_
  obtain ⟨hlo, -, -, -⟩ := of_inElement hk
  rw [slotX_eq, if_pos (by omega)] at hlo
  omega

/-- Settles O17: a box of 19 columns fits between two slots, and the colon stands between slots 1 and 2. -/
theorem elementSetsDisjoint : Obligations.ElementSetsDisjoint :=
  ⟨fun _ _ _ _ _ _ => slot_and_element_unique, fun n _ _ => elementAt_of_inColon n⟩

/-! ### Pixels of the micro-operations -/

/-- The pixels a micro-operation sets one by one. -/
def MicroOp.pixels : MicroOp → List (Int × Int)
  | .hline x y len _ => hlinePixels x y len
  | .vline x y len _ => vlinePixels x y len
  | .fillRect x y w h _ => rectPixels x y w h
  | .fill _ => []
  | .flush => []
  | .delay _ => []

/-- The micro-operation sets its pixels to `v` and does nothing else to FB. -/
def MicroOp.Paints (v : Bool) (o : MicroOp) : Prop := ∀ p m, drawOn p o m = setPixels p v o.pixels m

theorem paints_hline (x y len : Int) (v : Bool) : MicroOp.Paints v (.hline x y len v) := fun _ _ => rfl

theorem paints_vline (x y len : Int) (v : Bool) : MicroOp.Paints v (.vline x y len v) := fun _ _ => rfl

theorem paints_fillRect (x y w h : Int) (v : Bool) : MicroOp.Paints v (.fillRect x y w h v) := fun _ _ => rfl

theorem paints_flush (v : Bool) : MicroOp.Paints v .flush := fun _ _ => rfl

theorem drawAll_of_paints {p : Params} {v : Bool} {os : List MicroOp} (h : ∀ o ∈ os, o.Paints v)
    (m : List Host.Cell) : drawAll p os m = setPixels p v (os.flatMap MicroOp.pixels) m := by
  induction os generalizing m with
  | nil => rfl
  | cons o os ih =>
    rw [List.forall_mem_cons] at h
    have htail := ih h.2 (drawOn p o m)
    rw [h.1 p m] at htail
    rw [List.flatMap_cons, setPixels, List.foldl_append]
    exact (congrArg (drawAll p os) (h.1 p m)).trans htail

/-- Where a primitive has no pixel, it changes none (R149 (c)). -/
theorem getPixel_drawOn_of_not_mem {p : Params} {v : Bool} {o : MicroOp} (ho : o.Paints v) {m : List Host.Cell}
    (h : Memory.wf m = true) {x y : Nat} (hx : x < p.width) (hy : y < height p)
    (hxy : ((x : Int), (y : Int)) ∉ o.pixels) : getPixel p (drawOn p o m) x y = getPixel p m x y := by
  rw [ho p m, getPixel_setPixels v _ h hx hy, if_neg hxy]

theorem setPixels_of_offScreen {p : Params} (v : Bool) {pts : List (Int × Int)} (m : List Host.Cell)
    (h : ∀ q ∈ pts, onScreen p q.1 q.2 = false) : setPixels p v pts m = m := by
  induction pts generalizing m with
  | nil => rfl
  | cons q qs ih =>
    rw [List.forall_mem_cons] at h
    have hq : setPixel p q.1 q.2 v m = m := if_neg (Bool.eq_false_iff.mp h.1)
    exact (congrArg (setPixels p v qs) hq).trans (ih m h.2)

theorem readByte_drawOn_outside {p : Params} (o : MicroOp) {m : List Host.Cell} (h : Memory.wf m = true) {a : Nat}
    (ha : fbBytes p ≤ a) : readByte (drawOn p o m) a = readByte m a := by
  cases o with
  | hline x y len v => exact readByte_setPixels_outside v _ h ha
  | vline x y len v => exact readByte_setPixels_outside v _ h ha
  | fillRect x y w ht v => exact readByte_setPixels_outside v _ h ha
  | fill v => exact (readByte_fill v h a).trans (if_neg (by omega))
  | flush => rfl
  | delay ms => rfl

theorem readByte_drawAll_outside {p : Params} (os : List MicroOp) {m : List Host.Cell} (h : Memory.wf m = true)
    {a : Nat} (ha : fbBytes p ≤ a) : readByte (drawAll p os m) a = readByte m a := by
  induction os generalizing m with
  | nil => rfl
  | cons o os ih => exact (ih (drawOn_wf o h)).trans (readByte_drawOn_outside o h ha)

/-- A byte whose pixels are as they were is as it was; a byte outside FB has none. -/
theorem readByte_eq_of_pixels {p : Params} {m m' : List Host.Cell} {a : Nat}
    (houtside : fbBytes p ≤ a → readByte m' a = readByte m a)
    (h : ∀ x y, x < p.width → y < height p → a = pixelIndex p x y → getPixel p m' x y = getPixel p m x y) :
    readByte m' a = readByte m a := by
  by_cases ha : a < fbBytes p
  · refine BitVec.eq_of_getLsbD_eq fun k hk => ?_
    obtain ⟨x, y, hx, hy, rfl, rfl⟩ := exists_pixel_of_bit ha hk
    exact h x y hx hy rfl
  · exact houtside (by omega)

/-! ### One element -/

/-- The primitives of element `k` of slot `n` (R162, R164). -/
def elementOps (n k : Nat) (v : Bool) : List MicroOp :=
  match k with
  | 0 => horizontalSegment (slotX n) 0 v
  | 1 => verticalSegment (slotX n + 13) 3 v
  | 2 => verticalSegment (slotX n + 13) 25 v
  | 3 => horizontalSegment (slotX n) 44 v
  | 4 => verticalSegment (slotX n) 25 v
  | 5 => verticalSegment (slotX n) 3 v
  | 6 => horizontalSegment (slotX n) 22 v
  | 7 => [.fillRect (slotX n + 17) 45 2 2 v]
  | _ => []

theorem glyphDraws_eq_elementOps (mask : Byte) (n : Nat) :
    glyphDraws mask n = (List.range 8).flatMap fun k => elementOps n k (mask.getLsbD k) := rfl

theorem paints_of_mem_horizontalSegment {x y : Int} {v : Bool} : ∀ o ∈ horizontalSegment x y v, o.Paints v := by
  simp only [horizontalSegment, List.forall_mem_cons]
  exact ⟨paints_hline _ _ _ v, paints_hline _ _ _ v, paints_hline _ _ _ v, nofun⟩

theorem paints_of_mem_verticalSegment {x y : Int} {v : Bool} : ∀ o ∈ verticalSegment x y v, o.Paints v := by
  simp only [verticalSegment, List.forall_mem_cons]
  exact ⟨paints_vline _ _ _ v, paints_vline _ _ _ v, paints_vline _ _ _ v, nofun⟩

theorem paints_of_mem_elementOps {n k : Nat} {v : Bool} : ∀ o ∈ elementOps n k v, o.Paints v := by
  match k with
  | 0 | 3 | 6 => exact paints_of_mem_horizontalSegment
  | 1 | 2 | 4 | 5 => exact paints_of_mem_verticalSegment
  | 7 =>
    simp only [elementOps, List.forall_mem_cons]
    exact ⟨paints_fillRect _ _ _ _ v, nofun⟩
  | _ + 8 => exact nofun

theorem mem_pixels_horizontalSegment {x y : Int} {v : Bool} {q : Int × Int} :
    q ∈ (horizontalSegment x y v).flatMap MicroOp.pixels ↔ 3 ≤ q.1 - x ∧ q.1 - x ≤ 12 ∧ y ≤ q.2 ∧ q.2 ≤ y + 2 := by
  simp only [horizontalSegment, MicroOp.pixels, List.flatMap_cons, List.flatMap_nil, List.mem_append, mem_hlinePixels,
    List.not_mem_nil, or_false]
  omega

theorem mem_pixels_verticalSegment {x y : Int} {v : Bool} {q : Int × Int} :
    q ∈ (verticalSegment x y v).flatMap MicroOp.pixels ↔ 0 ≤ q.1 - x ∧ q.1 - x ≤ 2 ∧ y ≤ q.2 ∧ q.2 ≤ y + 18 := by
  simp only [verticalSegment, MicroOp.pixels, List.flatMap_cons, List.flatMap_nil, List.mem_append, mem_vlinePixels,
    List.not_mem_nil, or_false]
  omega

theorem mem_pixels_elementOps {n k : Nat} {v : Bool} {q : Int × Int} :
    q ∈ (elementOps n k v).flatMap MicroOp.pixels ↔ inElement k (q.1 - slotX n) q.2 = true := by
  match k with
  | 0 | 3 | 6 =>
    rw [elementOps, mem_pixels_horizontalSegment, inElement, decide_eq_true_eq]
    omega
  | 1 | 2 | 4 | 5 =>
    rw [elementOps, mem_pixels_verticalSegment, inElement, decide_eq_true_eq]
    omega
  | 7 =>
    rw [inElement, decide_eq_true_eq]
    simp only [elementOps, MicroOp.pixels, List.flatMap_cons, List.flatMap_nil, List.append_nil, mem_rectPixels]
    omega
  | _ + 8 => simp [elementOps, inElement]

theorem getPixel_element {p : Params} (n k : Nat) (v : Bool) {m : List Host.Cell} (h : Memory.wf m = true) {x y : Nat}
    (hx : x < p.width) (hy : y < height p) :
    getPixel p (drawAll p (elementOps n k v) m) x y
      = if inElement k ((x : Int) - slotX n) y = true then v else getPixel p m x y := by
  rw [drawAll_of_paints paints_of_mem_elementOps, getPixel_setPixels v _ h hx hy]
  exact if_congr mem_pixels_elementOps rfl rfl

/-! ### One glyph -/

theorem getPixel_elements_of_none {p : Params} {n x y : Nat} (mask : Byte) (hx : x < p.width) (hy : y < height p)
    (hnone : ∀ k, inElement k ((x : Int) - slotX n) y = false) (ks : List Nat) {m : List Host.Cell}
    (h : Memory.wf m = true) :
    getPixel p (drawAll p (ks.flatMap fun k => elementOps n k (mask.getLsbD k)) m) x y = getPixel p m x y := by
  induction ks generalizing m with
  | nil => rfl
  | cons k ks ih =>
    rw [List.flatMap_cons, drawAll_append, ih (drawAll_wf _ h), getPixel_element n k _ h hx hy,
      if_neg (Bool.eq_false_iff.mp (hnone k))]

theorem getPixel_elements_of_some {p : Params} {n x y k : Nat} (mask : Byte) (hx : x < p.width) (hy : y < height p)
    (hk : inElement k ((x : Int) - slotX n) y = true) (ks : List Nat) {m : List Host.Cell} (h : Memory.wf m = true) :
    getPixel p (drawAll p (ks.flatMap fun k => elementOps n k (mask.getLsbD k)) m) x y
      = if k ∈ ks then mask.getLsbD k else getPixel p m x y := by
  induction ks generalizing m with
  | nil => rfl
  | cons j ks ih =>
    rw [List.flatMap_cons, drawAll_append, ih (drawAll_wf _ h), getPixel_element n j _ h hx hy]
    by_cases hj : k = j
    · subst hj
      rw [if_pos hk, ite_self, if_pos List.mem_cons_self]
    · rw [if_neg fun hj' => hj (slot_and_element_unique hk hj').2]
      simp only [List.mem_cons, hj, false_or]

/-- After DrawGlyph each element pixel has its mask bit, and every other pixel is as it was (R163, R176). -/
theorem getPixel_glyphFb {p : Params} (mask : Byte) (n : Nat) {m : List Host.Cell} (h : Memory.wf m = true) {x y : Nat}
    (hx : x < p.width) (hy : y < height p) :
    getPixel p (glyphFb p mask n m) x y
      = match elementAt n x y with | some k => mask.getLsbD k | none => getPixel p m x y := by
  rw [glyphFb_eq, glyphDraws_eq_elementOps]
  cases he : elementAt n x y with
  | none => exact getPixel_elements_of_none mask hx hy (elementAt_eq_none_iff.mp he) _ h
  | some k =>
    rw [elementAt_eq_some_iff] at he
    obtain ⟨-, -, hk, -⟩ := of_inElement he
    rw [getPixel_elements_of_some mask hx hy he _ h, if_pos (List.mem_range.mpr hk)]

theorem glyphFb_wf {p : Params} (mask : Byte) (n : Nat) {m : List Host.Cell} (h : Memory.wf m = true) :
    Memory.wf (glyphFb p mask n m) = true := drawAll_wf _ h

/-- Settles O16: SetPixel is one write of one byte; a glyph is its elements. -/
theorem glyphShowsItsMask : Obligations.GlyphShowsItsMask := by
  refine ⟨fun p x y v m h hx hy => ?_, fun p x y v m hoff => ?_, fun p mask n m h => ⟨?_, fun a ha => ?_⟩⟩
  · have hwrite (a : Nat) : readByte (setPixel p x y v m) a = if a = y / 8 * p.width + x
        then withBit (readByte m (y / 8 * p.width + x)) (y % 8) v else readByte m a := by
      have hon : onScreen p x y = true := onScreen_iff.mpr (by unfold height; omega)
      rw [setPixel, if_pos hon]
      exact readByte_writeByte h _ _ _
    refine ⟨rfl, fun k hk => ?_, fun a ha => ?_⟩
    · rw [hwrite, if_pos rfl, getLsbD_withBit _ _ _ _ (Nat.mod_lt y (by decide)) hk]
    · rw [hwrite, if_neg ha]
  · refine if_neg fun hon => ?_
    rw [onScreen_iff] at hon
    unfold height at hon
    omega
  · exact fun x y => getPixel_glyphFb mask n h
  · refine readByte_eq_of_pixels (readByte_drawAll_outside _ h) fun x y hx hy hxy => ?_
    rw [getPixel_glyphFb mask n h hx hy]
    cases he : elementAt n x y with
    | none => rfl
    | some k => exact absurd hxy (ha x y hx hy (by rw [he]; nofun))

/-! ### A sequence of masks -/

theorem writtenFb_wf {p : Params} (n : Nat) (masks : List Byte) {m : List Host.Cell} (h : Memory.wf m = true) :
    Memory.wf (writtenFb p n masks m) = true := by
  induction masks generalizing n m with
  | nil => exact h
  | cons k ks ih => exact ih (n + 1) (glyphFb_wf k n h)

theorem getPixel_writtenFb {p : Params} (n : Nat) (masks : List Byte) {m : List Host.Cell} (h : Memory.wf m = true)
    {x y : Nat} (hx : x < p.width) (hy : y < height p) :
    getPixel p (writtenFb p n masks m) x y = shownPixel x y n masks (getPixel p m x y) := by
  induction masks generalizing n m with
  | nil => rfl
  | cons k ks ih =>
    rw [writtenFb, ih (n + 1) (glyphFb_wf k n h), getPixel_glyphFb k n h hx hy, shownPixel]
    cases elementAt n x y <;> rfl

theorem shownPixel_of_none {x y n : Nat} {masks : List Byte} (old : Bool)
    (h : ∀ j, j < masks.length → elementAt (n + j) x y = none) : shownPixel x y n masks old = old := by
  induction masks generalizing n with
  | nil => rfl
  | cons k ks ih =>
    have h0 : elementAt n x y = none := h 0 (Nat.succ_pos _)
    rw [shownPixel, h0]
    exact ih fun j hj => by rw [Nat.add_right_comm]; exact h (j + 1) (Nat.succ_lt_succ hj)

theorem readByte_writtenFb_outside {p : Params} (n : Nat) (masks : List Byte) {m : List Host.Cell}
    (h : Memory.wf m = true) {a : Nat} (ha : fbBytes p ≤ a) : readByte (writtenFb p n masks m) a = readByte m a := by
  induction masks generalizing n m with
  | nil => rfl
  | cons k ks ih => exact (ih (n + 1) (glyphFb_wf k n h)).trans (readByte_drawAll_outside _ h ha)

/-- Settles O19: one glyph after the other. -/
theorem writtenPixels : Obligations.WrittenPixels := by
  intro p n masks m h
  refine ⟨fun x y => getPixel_writtenFb n masks h, fun a ha => ?_⟩
  refine readByte_eq_of_pixels (readByte_writtenFb_outside n masks h) fun x y hx hy hxy => ?_
  rw [getPixel_writtenFb n masks h hx hy, shownPixel_of_none]
  intro j hj
  by_contra he
  exact ha j x y hj hx hy he hxy

/-- Settles O20: the frame after a mask is of what that mask left. -/
theorem writtenFramesAreSnapshots : Obligations.WrittenFramesAreSnapshots := by
  intro p n masks m
  induction masks generalizing n m with
  | nil => rfl
  | cons k ks ih =>
    rw [writtenFrames, ih, List.length_cons, List.range_succ_eq_map, List.map_cons, List.map_map]
    rfl

/-! ### The colon -/

theorem paints_of_mem_colonOps {on : Bool} : ∀ o ∈ colonOps on, o.Paints on := by
  simp only [colonOps, List.forall_mem_cons]
  exact ⟨paints_fillRect _ _ _ _ on, paints_fillRect _ _ _ _ on, paints_flush on, nofun⟩

theorem colonFb_eq_setPixels (p : Params) (on : Bool) (m : List Host.Cell) :
    colonFb p on m = setPixels p on ((colonOps on).flatMap MicroOp.pixels) m :=
  drawAll_of_paints paints_of_mem_colonOps m

theorem mem_pixels_colonOps {on : Bool} {x y : Nat} :
    ((x : Int), (y : Int)) ∈ (colonOps on).flatMap MicroOp.pixels ↔ inColon x y = true := by
  simp only [colonOps, MicroOp.pixels, List.flatMap_cons, List.flatMap_nil, List.mem_append, mem_rectPixels,
    List.not_mem_nil, or_false, inColon, decide_eq_true_eq, Bool.decide_and, Bool.decide_or, Bool.and_eq_true,
    Bool.or_eq_true]
  omega

/-- After COLON the pixels of its squares read the operand, every other pixel is as it was (R170). -/
theorem getPixel_colonFb {p : Params} (on : Bool) {m : List Host.Cell} (h : Memory.wf m = true) {x y : Nat}
    (hx : x < p.width) (hy : y < height p) :
    getPixel p (colonFb p on m) x y = if inColon x y then on else getPixel p m x y := by
  rw [colonFb_eq_setPixels, getPixel_setPixels on _ h hx hy]
  exact if_congr mem_pixels_colonOps rfl rfl

/-- Settles O26: the two rectangles are the eight pixels. -/
theorem colonPixels : Obligations.ColonPixels := by
  intro p on m h
  refine ⟨fun x y => getPixel_colonFb on h, fun a ha => ?_⟩
  refine readByte_eq_of_pixels (readByte_drawAll_outside _ h) fun x y hx hy hxy => ?_
  rw [getPixel_colonFb on h hx hy, if_neg fun hc => ha x y hx hy hc hxy]

end Sys2Proof.Machine
end

section
/-! What each drawing command leaves and puts out, its flushes and delays answered or not (43_composer.md R165 to R175,
44_format.md R193 to R202). -/

namespace Sys2Proof.Machine

/-! ### Drawn and shown by a script -/

theorem drawAll_glyphScript (p : Params) (n : Nat) (ms : List Byte) (m : List Host.Cell) :
    drawAll p (glyphScript n ms) m = writtenFb p n ms m := by
  induction ms generalizing n m with
  | nil => rfl
  | cons k ks ih =>
    rw [glyphScript, drawAll_append, ih]
    rfl

theorem outputsOf_draws (p : Params) {os : List MicroOp} (h : ∀ o ∈ os, o.draws = true) (m : List Host.Cell) :
    outputsOf p os m = [] := by
  induction os generalizing m with
  | nil => rfl
  | cons o os ih =>
    rw [List.forall_mem_cons] at h
    cases o with
    | flush => cases h.1
    | delay => cases h.1
    | _ => exact ih h.2 _

theorem outputsOf_glyphOps (p : Params) (mask : Byte) (n : Nat) (m : List Host.Cell) :
    outputsOf p (glyphOps mask n) m = [.frame (frameOf p (glyphFb p mask n m))] := by
  rw [glyphOps_eq, outputsOf_append, outputsOf_draws p (glyphDraws_draws mask n), glyphFb_eq]
  rfl

theorem outputsOf_glyphScript (p : Params) (n : Nat) (ms : List Byte) (m : List Host.Cell) :
    outputsOf p (glyphScript n ms) m = writtenFrames p n ms m := by
  induction ms generalizing n m with
  | nil => rfl
  | cons k ks ih =>
    rw [glyphScript, outputsOf_append, outputsOf_glyphOps, ih]
    rfl

theorem flushCount_glyphScript (n : Nat) (ms : List Byte) : flushCount (glyphScript n ms) = ms.length := by
  induction ms generalizing n with
  | nil => rfl
  | cons k ks ih =>
    rw [glyphScript, flushCount_append, ih, List.length_cons, Nat.add_comm]
    rfl

theorem delayCount_glyphScript (n : Nat) (ms : List Byte) : delayCount (glyphScript n ms) = 0 := by
  induction ms generalizing n with
  | nil => rfl
  | cons k ks ih =>
    rw [glyphScript, delayCount_append, ih]
    rfl

theorem cursorAfter_append (c : Half) (as bs : List Act) :
    cursorAfter c (as ++ bs) = cursorAfter (cursorAfter c as) bs := by
  induction as generalizing c with
  | nil => rfl
  | cons a as ih =>
    cases a with
    | op o => exact ih c
    | cursor d => exact ih d

theorem cursorAfter_ops (c : Half) (os : List MicroOp) : cursorAfter c (os.map .op) = c := by
  induction os with
  | nil => rfl
  | cons o os ih => exact ih

theorem cursorAfter_maskActs (c : Half) (ms : List Byte) :
    cursorAfter c (maskActs c ms) = c + BitVec.ofNat 16 ms.length := by
  induction ms generalizing c with
  | nil => exact (BitVec.add_zero c).symm
  | cons m ms ih =>
    rw [maskActs, cursorAfter_append, cursorAfter, ih, List.length_cons]
    bv_omega

/-- The masks of one WRITE leave CUR one past the last (R167). -/
theorem cursorAfter_writeActs_four (c : Half) {ms : List Byte} (h : ms.length = 4) :
    cursorAfter c (writeActs 0 ms) = 4 := by
  rw [writeActs, cursorAfter, cursorAfter_maskActs, h]
  rfl

/-! ### WRITE -/

/-- Settles O18: WRITE with every flush accepted. -/
theorem writeCompletes : Obligations.WriteCompletes :=
  fun _ pos masks hp hl hr hx => exec_write_of_ok pos masks hp hr hx hl

theorem drawMasks_append (xs ys : List Byte) (s : State) :
    drawMasks (xs ++ ys) s = (drawMasks xs s).andThen (drawMasks ys) := by
  induction xs generalizing s with
  | nil => rfl
  | cons x xs ih =>
    rw [List.cons_append, drawMasks, drawMasks, Progress.andThen_assoc]
    exact congrArg _ (funext ih)

theorem writtenFb_append (p : Params) (n : Nat) (xs ys : List Byte) (m : List Host.Cell) :
    writtenFb p n (xs ++ ys) m = writtenFb p (n + xs.length) ys (writtenFb p n xs m) := by
  induction xs generalizing n m with
  | nil => rfl
  | cons x xs ih =>
    rw [List.cons_append, writtenFb, writtenFb, ih, List.length_cons, Nat.add_right_comm, Nat.add_assoc]

theorem writtenFrames_append (p : Params) (n : Nat) (xs ys : List Byte) (m : List Host.Cell) :
    writtenFrames p n (xs ++ ys) m
      = writtenFrames p n xs m ++ writtenFrames p (n + xs.length) ys (writtenFb p n xs m) := by
  induction xs generalizing n m with
  | nil => rfl
  | cons x xs ih =>
    rw [List.cons_append, writtenFrames, writtenFrames, writtenFb, ih, List.length_cons, Nat.add_right_comm,
      Nat.add_assoc]
    rfl

/-- The masks up to the one whose flush fails, which leaves CUR at its slot (R175, decision D20). -/
theorem drawMasks_of_ioError {xs ys : List Byte} {m : Byte} {s : State} {e : Byte} (hr : s.resets = [])
    (hx : TransportFails s xs.length e) (hc : s.cur.toNat + xs.length < 2 ^ 16) :
    drawMasks (xs ++ m :: ys) s = .raised (.ioError e)
      ((((usedXport s (xs.length + 1)).setFb (writtenFb s.params s.cur.toNat (xs ++ [m]) s.fb)).setCur
        (BitVec.ofNat 16 (s.cur.toNat + xs.length))).emits
        (writtenFrames s.params s.cur.toNat (xs ++ [m]) s.fb)) := by
  have hcur : (BitVec.ofNat 16 (s.cur.toNat + xs.length)).toNat = s.cur.toNat + xs.length := by
    rw [BitVec.toNat_ofNat]
    omega
  have hfails : xportAt (usedXport s xs.length) 0 = .ioError e := by
    rw [xportAt_usedXport]
    exact hx.2
  rw [drawMasks_append, drawMasks_of_ok xs hr hx.1 hc, Progress.running_andThen, drawMasks,
    drawNext_of_ioError (e := e) m ?_ ?_, Progress.raised_andThen, ← usedXport_usedXport, writtenFb_append,
    writtenFrames_append]
  · simp only [State.emits_cur, State.setCur_cur, hcur]
    simp [State.ext_iff, writtenFb, writtenFrames]
  · exact hr
  · exact hfails

theorem finish_raised_emits {s : State} (e : Err) (os : List Output) (hr : s.resets = []) :
    finish [] (.raised e (s.emits os)) = s.ended os (errResponse e) := by
  rw [finish, respond_of_noReset _ (s := s.emits os) hr]
  simp [State.ended, State.emits, State.emit]

/-- Settles O22: the masks before the failing one, then that one. -/
theorem writeStopsAtFailingFlush : Obligations.WriteStopsAtFailingFlush := by
  intro s pos masks i e hp hl hr hi hx
  have hlen : (masks.take i).length = i := List.length_take_of_le hi.le
  have hsplit : masks = masks.take i ++ masks[i] :: masks.drop (i + 1) := by
    rw [List.getElem_cons_drop, List.take_append_drop]
  have hc := toNat_setWidth_pos pos
  have hdraw : writeMasks pos masks s = drawMasks masks (s.setCur (pos.setWidth 16)) := if_neg (by omega)
  have hraised := drawMasks_of_ioError (s := s.setCur (pos.setWidth 16)) (xs := masks.take i) (m := masks[i])
    (ys := masks.drop (i + 1)) (e := e) hr (by rw [hlen]; exact hx) (by rw [State.setCur_cur]; omega)
  rw [← hsplit, hlen, List.take_append_getElem, State.setCur_cur, hc] at hraised
  change Host.Outcome.next (finish [] (writeMasks pos masks s)) = _
  rw [hdraw, hraised, finish_raised_emits]
  · rfl
  · exact hr

/-! ### Past slot 3 -/

/-- On a screen no wider than 86 columns a glyph past slot 3 is not there (R168, decision D9). -/
theorem glyphFb_of_past_slot_three {p : Params} (hw : p.width ≤ 86) (mask : Byte) {n : Nat} (hn : 4 ≤ n)
    (m : List Host.Cell) : glyphFb p mask n m = m := by
  have helement (k : Nat) (m : List Host.Cell) : drawAll p (elementOps n k (mask.getLsbD k)) m = m := by
    rw [drawAll_of_paints paints_of_mem_elementOps]
    refine setPixels_of_offScreen _ m fun q hq => Bool.eq_false_iff.mpr fun hon => ?_
    rw [mem_pixels_elementOps] at hq
    obtain ⟨hlo, -, -, -⟩ := of_inElement hq
    rw [slotX_eq, if_pos (by omega)] at hlo
    rw [onScreen_iff] at hon
    omega
  have helements (ks : List Nat) (m : List Host.Cell) :
      drawAll p (ks.flatMap fun k => elementOps n k (mask.getLsbD k)) m = m := by
    induction ks with
    | nil => rfl
    | cons k ks ih => rw [List.flatMap_cons, drawAll_append, helement, ih]
  rw [glyphFb_eq, glyphDraws_eq_elementOps, helements]

theorem writtenFb_of_past_slot_three {p : Params} (hw : p.width ≤ 86) (masks : List Byte) {n : Nat} (hn : 4 ≤ n)
    (m : List Host.Cell) : writtenFb p n masks m = m := by
  induction masks generalizing n with
  | nil => rfl
  | cons k ks ih => rw [writtenFb, glyphFb_of_past_slot_three hw k hn, ih (by omega)]

/-- Settles O23: the masks beyond the first `4 - pos` go to slots past the third. -/
theorem writePastSlotThree : Obligations.WritePastSlotThree := by
  intro s pos masks hp hl hr hx hw
  have hfb : writtenFb s.params pos.toNat masks s.fb
      = writtenFb s.params pos.toNat (masks.take (4 - pos.toNat)) s.fb := by
    have happend := writtenFb_append s.params pos.toNat (masks.take (4 - pos.toNat)) (masks.drop (4 - pos.toNat)) s.fb
    rw [List.take_append_drop] at happend
    rw [happend, List.length_take]
    by_cases hle : 4 - pos.toNat ≤ masks.length
    · exact writtenFb_of_past_slot_three hw _ (by omega) _
    · rw [List.drop_eq_nil_of_le (by omega)]
      rfl
  refine ⟨_, exec_write_of_ok pos masks hp hr hx hl, hfb, ?_, ?_⟩
  · rw [State.ended_out, ← List.append_assoc]
    rfl
  · rw [length_framesOf_ended, length_framesOf_writtenFrames]
    rfl

/-! ### COLON and CLEAR -/

theorem exec_colon_of_ioError {s : State} (on : Bool) {e : Byte} (hr : s.resets = []) (hx : xportAt s 0 = .ioError e) :
    exec (.colon on) s = .next (((usedXport s 1).setFb (colonFb s.params on s.fb)).ended
      [.frame (frameOf s.params (colonFb s.params on s.fb))] [0x03, e]) := by
  change Host.Outcome.next (finish [] (runOps (colonOps on) s)) = _
  rw [runOps_colon on hr, flush_of_ioError (s := s.setFb (colonFb s.params on s.fb)) hx, State.emit_eq,
    finish_raised_emits]
  · rfl
  · exact hr

theorem exec_clear_of_ioError {s : State} (color : Bool) {e : Byte} (hr : s.resets = [])
    (hx : xportAt s 0 = .ioError e) :
    exec (.clear color) s = .next (((usedXport s 1).setFb (fill s.params color s.fb)).ended
      [.frame (frameOf s.params (fill s.params color s.fb))] [0x03, e]) := by
  change Host.Outcome.next (finish [] (runOps (clearOps color) s)) = _
  rw [runOps_clear color hr, flush_of_ioError (s := s.setFb (fill s.params color s.fb)) hx, State.emit_eq,
    finish_raised_emits]
  · rfl
  · exact hr

/-- Settles O25: COLON with its flush accepted and with its flush failing. -/
theorem colonCompletes : Obligations.ColonCompletes :=
  fun _ on hr => ⟨exec_colon_of_ok on hr, fun _ => exec_colon_of_ioError on hr⟩

theorem frameOf_fill {p : Params} (color : Bool) {m : List Host.Cell} (h : Memory.wf m = true) :
    frameOf p (fill p color m) = List.replicate (fbBytes p) (fillByte color) := by
  refine List.eq_replicate_iff.mpr ⟨length_frameOf _ _, fun b hb => ?_⟩
  obtain ⟨a, ha, rfl⟩ := List.mem_map.mp hb
  rw [readByte_fill color h, if_pos (List.mem_range.mp ha)]

/-- Settles O27: FILL, then its flush accepted or failing. -/
theorem clearCompletes : Obligations.ClearCompletes := by
  intro s color hr h
  have hframe := frameOf_fill (p := s.params) color h
  rw [fillByte] at hframe
  refine ⟨fill s.params color s.fb, readByte_fill color h, fun hx => ?_, fun e hx => ?_⟩
  · rw [exec_clear_of_ok color hr hx, hframe]
    rfl
  · rw [exec_clear_of_ioError color hr hx, hframe]

/-! ### HEX and NUMBER -/

/-- HEX is WRITE of its four masks at slot 0 (R193). -/
theorem exec_hex (v : Half) (s : State) : exec (.hex v) s = exec (.write 0 (hexMasks s.params v)) s := rfl

theorem exec_number_of_ok {v : Word} {s : State} {ms : List Byte}
    (h : encodeString s.params (numberString (signed v)) = .ok ms) : exec (.number v) s = exec (.write 0 ms) s :=
  congrArg (fun r => Host.Outcome.next (finish [] r)) (encodeThen_of_ok (writeMasks 0) h)

theorem exec_write_four {s : State} {ms : List Byte} (hl : ms.length = 4) (hr : s.resets = []) (hx : TransportOk s 4) :
    exec (.write 0 ms) s = .next ((((usedXport s 4).setFb (writtenFb s.params 0 ms s.fb)).setCur 4).ended
      (writtenFrames s.params 0 ms s.fb) [0x00]) := by
  have hdone := exec_write_of_ok 0 ms (by decide) hr (hl ▸ hx) (hl.trans_le (by decide))
  rw [hl] at hdone
  exact hdone

theorem nibble_eq (v : Half) (k : Nat) : nibble v k = v.toNat / 16 ^ k % 16 := by
  rw [nibble, BitVec.extractLsb'_toNat, Nat.shiftRight_eq_div_pow, Nat.pow_mul]

theorem hexMasks_eq (p : Params) (v : Half) : hexMasks p v =
    [tableMask p (v.toNat / 4096), tableMask p (v.toNat / 256 % 16), tableMask p (v.toNat / 16 % 16),
      tableMask p (v.toNat % 16)] := by
  have htop : v.toNat / 4096 % 16 = v.toNat / 4096 := Nat.mod_eq_of_lt (by omega)
  simp [hexMasks, nibble_eq, htop]

/-- Settles O35: the nibbles are the digits of the value in base 16. -/
theorem hexCompletes : Obligations.HexCompletes := by
  intro s v hr hx
  rw [exec_hex, hexMasks_eq]
  exact exec_write_four rfl hr hx

theorem encodeString_numberString (p : Params) (v : Int) :
    encodeString p (numberString v) = .ok ((numberString v).map (maskOf p)) :=
  encodeString_of_length_four (length_numberString v) fun _ hc =>
    supported_of_narrow (supported_of_mem_numberString hc) _

/-- Settles O38: the string of NUMBER has four characters, all supported. -/
theorem numberCompletes : Obligations.NumberCompletes := by
  intro s v hr hx
  rw [exec_number_of_ok (encodeString_numberString s.params _)]
  exact exec_write_four (by rw [List.length_map, length_numberString]) hr hx

/-! ### NUMBERS and TEMP -/

theorem encodeString_numbersString (p : Params) (a b : Int) :
    encodeString p (numbersString a b) = .ok ((numbersString a b).map (maskOf p)) :=
  encodeString_of_length_four (length_numbersString a b) fun _ hc =>
    supported_of_narrow (supported_of_mem_numbersString hc) _

/-- A command that passes its checks, its script known and answered, and no RESET to come. -/
theorem exec_of_script {i : Instr} {s : State} {as : List Act} {os : List MicroOp} {c : Half} {nx nd : Nat}
    (hc : course s.params i = .ok ([], as)) (hos : opsOf as = os) (hcur : cursorAfter s.cur as = c)
    (hnx : flushCount os = nx) (hnd : delayCount os = nd) (hr : s.resets = []) (hx : TransportOk s nx)
    (hd : DelayOk s nd) :
    exec i s = .next ((((usedDly (usedXport s nx) nd).setFb (drawAll s.params os s.fb)).setCur c).ended
      (outputsOf s.params os s.fb) [0x00]) := by
  subst hos hcur hnx hnd
  exact exec_of_answered hc hr hx hd

/-- Settles O40: the digits, then the colon. -/
theorem numbersCompletes : Obligations.NumbersCompletes := by
  intro s a b colon ms hr hx hms
  have hl : ms.length = 4 := by rw [hms, List.length_map, length_numbersString]
  have hcourse : course s.params (.numbers a b colon) = .ok ([], writeActs 0 ms ++ (colonOps colon).map .op) := by
    rw [course, encodedCourse, signed, signed, encodeString_numbersString, ← hms]
  have hcolon (m : List Host.Cell) :
      outputsOf s.params (colonOps colon) m = [.frame (frameOf s.params (colonFb s.params colon m))] := rfl
  rw [exec_of_script (os := glyphScript 0 ms ++ colonOps colon) (c := 4) (nx := 5) (nd := 0) hcourse ?_ ?_ ?_ ?_ hr hx
    nofun, usedDly_zero, drawAll_append, outputsOf_append, drawAll_glyphScript, outputsOf_glyphScript, hcolon]
  · rfl
  · rw [opsOf_append, opsOf_ops, opsOf_writeActs 0 (hl.trans_le (by decide))]
    rfl
  · rw [cursorAfter_append, cursorAfter_ops, cursorAfter_writeActs_four _ hl]
  · rw [flushCount_append, flushCount_glyphScript, hl]
    rfl
  · rw [delayCount_append, delayCount_glyphScript]
    rfl

theorem encodeString_tempString_wide {p : Params} (hv : p.variant = .wide) (v : Int) :
    encodeString p (tempString v) = .ok ((tempString v).map (maskOf p)) := by
  rw [encodeString_wide hv]
  refine encodeAll_of_supported fun c hc => ?_
  rw [hv]
  by_cases hlo : v < -9
  · rw [tempString_of_lt hlo] at hc
    revert c
    decide
  · by_cases hhi : 99 < v
    · rw [tempString_of_gt hhi] at hc
      revert c
      decide
    · exact supported_of_narrow (supported_of_mem_tempString (by omega) (by omega) hc) .wide

theorem encodeString_tempString_narrow {p : Params} (hv : p.variant = .narrow) {v : Int} (h : -9 ≤ v) (h' : v ≤ 99) :
    encodeString p (tempString v) = .ok ((tempString v).map (maskOf p) ++ [0x00, 0x00]) := by
  have htake : (tempString v).take 4 = tempString v := List.take_of_length_le (by rw [length_tempString]; decide)
  rw [encodeString_narrow_of_supported hv, htake, length_tempString]
  · rfl
  · rw [htake, hv]
    exact fun c => supported_of_mem_tempString h h'

theorem exec_temp_of_ok {s : State} {v : Word} {ms : List Byte}
    (hs : encodeString s.params (tempString (signed v)) = .ok ms) (hl : ms.length ≤ maxLen) (hr : s.resets = [])
    (hx : TransportOk s (ms.length + 2)) :
    exec (.temp v) s = .next ((((usedXport s (ms.length + 2)).setFb
      (writtenFb s.params 2 [0x63, 0x39] (writtenFb s.params 0 ms s.fb))).setCur 4).ended
      (writtenFrames s.params 0 ms s.fb ++ writtenFrames s.params 2 [0x63, 0x39] (writtenFb s.params 0 ms s.fb))
      [0x00]) := by
  have hcourse : course s.params (.temp v) = .ok ([], writeActs 0 ms ++ writeActs 2 degreeC) := by
    rw [course, encodedCourse, hs]
  rw [exec_of_script (os := glyphScript 0 ms ++ glyphScript 2 degreeC) (c := 4) (nx := ms.length + 2) (nd := 0) hcourse
    ?_ ?_ ?_ ?_ hr hx nofun, usedDly_zero, drawAll_append, outputsOf_append, drawAll_glyphScript, outputsOf_glyphScript,
    drawAll_glyphScript, outputsOf_glyphScript]
  · rfl
  · rw [opsOf_append, opsOf_writeActs 0 hl, opsOf_writeActs 2 (by decide)]
    rfl
  · rw [cursorAfter_append, writeActs, writeActs, cursorAfter, cursorAfter_maskActs]
    rfl
  · rw [flushCount_append, flushCount_glyphScript, flushCount_glyphScript]
    rfl
  · rw [delayCount_append, delayCount_glyphScript, delayCount_glyphScript]

/-- Settles O41: the two variants differ in how the string encodes. -/
theorem tempCompletes : Obligations.TempCompletes := by
  intro s v ms hr hx hms
  obtain ⟨hs, hl⟩ : encodeString s.params (tempString (signed v)) = .ok ms ∧ ms.length ≤ maxLen := by
    rcases hms with ⟨hv, rfl⟩ | ⟨hv, hlo, hhi, rfl⟩
    · refine ⟨encodeString_tempString_wide hv _, ?_⟩
      rw [List.length_map, length_tempString]
      decide
    · refine ⟨encodeString_tempString_narrow hv hlo hhi, ?_⟩
      rw [List.length_append, List.length_map, length_tempString]
      decide
  exact exec_temp_of_ok hs hl hr hx

theorem exec_temp_of_error {s : State} {v : Word} {c : Byte}
    (hs : encodeString s.params (tempString (signed v)) = .error c) (hr : s.resets = []) :
    exec (.temp v) s = .next (s.ended [] [0x02, c]) := by
  rw [exec_eq_runCourse, course, encodedCourse, hs]
  exact congrArg Host.Outcome.next (respond_eq_ended _ hr)

/-- Settles O42: neither 'l' nor 'h' is supported in NARROW. -/
theorem tempFailsInNarrow : Obligations.TempFailsInNarrow := by
  intro s v hv hr
  have hfirst {c d : Byte} (hc : supported .narrow c = false) (h : tempString (signed v) = [c, d]) :
      exec (.temp v) s = .next (s.ended [] [0x02, c]) := by
    refine exec_temp_of_error (encodeString_narrow_of_error hv ?_) hr
    rw [h]
    exact encodeAll_of_unsupported (before := []) nofun (hv ▸ hc)
  exact ⟨fun h => hfirst (by decide) (tempString_of_lt h), fun h => hfirst (by decide) (tempString_of_gt h)⟩

/-! ### SCROLL -/

theorem length_scrollWindows (ms : List Byte) : (scrollWindows ms).length = ms.length + 5 := by
  rw [scrollWindows, List.length_map, List.length_range]

theorem getElem?_scrollPadded (ms : List Byte) {k : Nat} (hk : k < ms.length + 8) :
    (scrollPadded ms)[k]? = some (if 4 ≤ k ∧ k < 4 + ms.length then ms.getD (k - 4) 0x00 else 0x00) := by
  have hblank {j : Nat} (hj : j < 4) : scrollPad[j]? = some 0x00 :=
    List.getElem?_replicate_of_lt (n := 4) (a := (0x00 : Byte)) hj
  have hpad : scrollPad.length = 4 := rfl
  rw [scrollPadded, List.append_assoc]
  by_cases hlo : k < 4
  · rw [List.getElem?_append_left hlo, hblank hlo, if_neg (by omega)]
  · rw [List.getElem?_append_right (by omega), hpad]
    by_cases hmid : k < 4 + ms.length
    · have hk' : k - 4 < ms.length := by omega
      rw [List.getElem?_append_left hk', if_pos ⟨by omega, hmid⟩, List.getD_eq_getElem?_getD,
        List.getElem?_eq_getElem hk', Option.getD_some]
    · rw [List.getElem?_append_right (by omega), hblank (by omega), if_neg (by omega)]

/-- Settles O43: a window is four places of the padded text. -/
theorem scrollWindowContents : Obligations.ScrollWindowContents := by
  refine fun ms => ⟨length_scrollWindows ms, fun i hi => ?_⟩
  rw [scrollWindows, List.getElem?_map, List.getElem?_range hi, Option.map_some]
  refine congrArg some (List.ext_getElem? fun j => ?_)
  rw [List.getElem?_take, List.getElem?_map]
  by_cases hj : j < 4
  · rw [if_pos hj, List.getElem?_drop, List.getElem?_range hj, Option.map_some]
    exact getElem?_scrollPadded ms (by omega)
  · rw [if_neg hj, List.getElem?_eq_none (by rw [List.length_range]; omega)]
    rfl

/-- The micro-operations of SCROLL's windows. -/
def scrollScript (delayMs : Half) (ws : List (List Byte)) : List MicroOp :=
  ws.flatMap fun w => glyphScript 0 w ++ [.delay delayMs]

theorem scrollScript_cons (delayMs : Half) (w : List Byte) (ws : List (List Byte)) :
    scrollScript delayMs (w :: ws) = glyphScript 0 w ++ [.delay delayMs] ++ scrollScript delayMs ws := rfl

theorem drawAll_scrollScript (p : Params) (delayMs : Half) (ws : List (List Byte)) (m : List Host.Cell) :
    drawAll p (scrollScript delayMs ws) m = (scrolled p delayMs ws m).1 := by
  induction ws generalizing m with
  | nil => rfl
  | cons w ws ih =>
    rw [scrollScript_cons, drawAll_append, drawAll_append, drawAll_glyphScript, ih]
    rfl

theorem outputsOf_scrollScript (p : Params) (delayMs : Half) (ws : List (List Byte)) (m : List Host.Cell) :
    outputsOf p (scrollScript delayMs ws) m = (scrolled p delayMs ws m).2 := by
  induction ws generalizing m with
  | nil => rfl
  | cons w ws ih =>
    rw [scrollScript_cons, outputsOf_append, outputsOf_append, drawAll_append, drawAll_glyphScript,
      outputsOf_glyphScript, ih, List.append_assoc]
    rfl

theorem flushCount_scrollScript (delayMs : Half) {ws : List (List Byte)} (h : ∀ w ∈ ws, w.length = 4) :
    flushCount (scrollScript delayMs ws) = 4 * ws.length := by
  induction ws with
  | nil => rfl
  | cons w ws ih =>
    rw [List.forall_mem_cons] at h
    have hdelay : flushCount [.delay delayMs] = 0 := rfl
    rw [scrollScript_cons, flushCount_append, flushCount_append, flushCount_glyphScript, h.1, ih h.2, hdelay,
      List.length_cons]
    omega

theorem delayCount_scrollScript (delayMs : Half) (ws : List (List Byte)) :
    delayCount (scrollScript delayMs ws) = ws.length := by
  induction ws with
  | nil => rfl
  | cons w ws ih =>
    have hdelay : delayCount [.delay delayMs] = 1 := rfl
    rw [scrollScript_cons, delayCount_append, delayCount_append, delayCount_glyphScript, ih, hdelay, List.length_cons]
    omega

theorem cursorAfter_scrollActs (delayMs : Half) {ws : List (List Byte)} (h : ∀ w ∈ ws, w.length = 4) (hne : ws ≠ [])
    (c : Half) : cursorAfter c (scrollActs delayMs ws) = 4 := by
  induction ws generalizing c with
  | nil => exact absurd rfl hne
  | cons w ws ih =>
    rw [List.forall_mem_cons] at h
    have hwindow : cursorAfter c (scrollActs delayMs (w :: ws)) = cursorAfter 4 (scrollActs delayMs ws) := by
      rw [scrollActs, List.flatMap_cons, cursorAfter_append, cursorAfter_append, cursorAfter_writeActs_four c h.1]
      rfl
    rw [hwindow]
    cases ws with
    | nil => rfl
    | cons w' ws => exact ih h.2 (List.cons_ne_nil _ _) 4

/-- Settles O44: window after window, each answered. -/
theorem scrollCompletes : Obligations.ScrollCompletes := by
  intro s delayMs str ms hs hr hx hd
  have hwindows : ∀ w ∈ scrollWindows ms, w.length = 4 := fun w => length_of_mem_scrollWindows
  have hne : scrollWindows ms ≠ [] := List.ne_nil_of_length_pos (by rw [length_scrollWindows]; omega)
  have hcourse : course s.params (.scroll delayMs str) = .ok ([], scrollActs delayMs (scrollWindows ms)) := by
    rw [course, encodedCourse, hs]
  rw [exec_of_script hcourse (opsOf_scrollActs delayMs hwindows) (cursorAfter_scrollActs delayMs hwindows hne s.cur)
    (nx := 4 * (ms.length + 5)) (nd := ms.length + 5) ?_ ?_ hr hx hd, ← drawAll_scrollScript,
    ← outputsOf_scrollScript]
  · rfl
  · exact (flushCount_scrollScript delayMs hwindows).trans (by rw [length_scrollWindows])
  · exact (delayCount_scrollScript delayMs _).trans (length_scrollWindows ms)

theorem map_isFrame_writtenFrames (p : Params) (n : Nat) (ms : List Byte) (m : List Host.Cell) :
    (writtenFrames p n ms m).map isFrame = List.replicate ms.length true := by
  induction ms generalizing n m with
  | nil => rfl
  | cons k ks ih =>
    rw [writtenFrames, List.map_cons, ih]
    rfl

theorem delaysOf_append (os us : List Output) : delaysOf (os ++ us) = delaysOf os ++ delaysOf us :=
  List.filterMap_append

theorem delaysOf_writtenFrames (p : Params) (n : Nat) (ms : List Byte) (m : List Host.Cell) :
    delaysOf (writtenFrames p n ms m) = [] := by
  induction ms generalizing n m with
  | nil => rfl
  | cons k ks ih => exact ih (n + 1) (glyphFb p k n m)

theorem map_isFrame_scrolled (p : Params) (delayMs : Half) {ws : List (List Byte)} (h : ∀ w ∈ ws, w.length = 4)
    (m : List Host.Cell) : (scrolled p delayMs ws m).2.map isFrame
      = (List.replicate ws.length [true, true, true, true, false]).flatten := by
  induction ws generalizing m with
  | nil => rfl
  | cons w ws ih =>
    rw [List.forall_mem_cons] at h
    rw [scrolled, List.map_append, List.map_cons, ih h.2, map_isFrame_writtenFrames, h.1]
    rfl

theorem delaysOf_scrolled (p : Params) (delayMs : Half) (ws : List (List Byte)) (m : List Host.Cell) :
    delaysOf (scrolled p delayMs ws m).2 = List.replicate ws.length delayMs := by
  induction ws generalizing m with
  | nil => rfl
  | cons w ws ih =>
    rw [scrolled, delaysOf_append, delaysOf_writtenFrames, List.nil_append, List.length_cons, List.replicate_succ,
      ← ih (writtenFb p 0 w m)]
    rfl

/-- Settles O45: four frames and a request per window. -/
theorem scrollOutputOrder : Obligations.ScrollOutputOrder := by
  intro p delayMs ms m
  have hwindows : ∀ w ∈ scrollWindows ms, w.length = 4 := fun w => length_of_mem_scrollWindows
  rw [map_isFrame_scrolled p delayMs hwindows, delaysOf_scrolled, length_scrollWindows, ← outputsOf_scrollScript]
  exact ⟨rfl, rfl, responsesOf_outputsOf _ _ _⟩

/-! ### Counting the frames of the helpers -/

theorem exists_frames_of_ended {i : Instr} {s t : State} {os : List Output} {r : Packet} {n : Nat}
    (h : exec i s = .next (t.ended os r)) (hout : t.out = s.out) (hn : (framesOf os).length = n) :
    ∃ u, exec i s = .next u ∧ (framesOf u.out).length = (framesOf s.out).length + n :=
  ⟨_, h, by rw [length_framesOf_ended, hout, hn]⟩

theorem exists_frames_temp {s : State} {v : Word} {ms : List Byte}
    (hs : encodeString s.params (tempString (signed v)) = .ok ms) (hl : ms.length ≤ maxLen) (hr : s.resets = [])
    (hx : TransportOk s (ms.length + 2)) :
    ∃ t, exec (.temp v) s = .next t ∧ (framesOf t.out).length = (framesOf s.out).length + (ms.length + 2) :=
  exists_frames_of_ended (exec_temp_of_ok hs hl hr hx) rfl (by
    rw [framesOf_append, List.length_append, length_framesOf_writtenFrames, length_framesOf_writtenFrames]
    rfl)

/-- Settles O48: the frames of each helper at its end. -/
theorem helperFlushCounts : Obligations.HelperFlushCounts := by
  intro s hr
  refine ⟨fun v hx => ?_, fun v hx => ?_, fun a b c hx => ?_, fun v hv hx => ?_, fun v hv hlo hhi hx => ?_,
    fun d str ms hs hx hd => ?_⟩
  · exact exists_frames_of_ended (hexCompletes s v hr hx) rfl (length_framesOf_writtenFrames _ _ _ _)
  · exact exists_frames_of_ended (numberCompletes s v hr hx) rfl
      (by rw [length_framesOf_writtenFrames, List.length_map, length_numberString])
  · refine exists_frames_of_ended (numbersCompletes s a b c _ hr hx rfl) rfl ?_
    rw [framesOf_append, List.length_append, length_framesOf_writtenFrames, List.length_map, length_numbersString]
    rfl
  · have hl : ((tempString (signed v)).map (maskOf s.params)).length = 2 := by
      rw [List.length_map, length_tempString]
    have h := exists_frames_temp (encodeString_tempString_wide hv _) (by rw [hl]; decide) hr (by rwa [hl])
    rwa [hl] at h
  · have hl : ((tempString (signed v)).map (maskOf s.params) ++ [0x00, 0x00]).length = 4 := by
      rw [List.length_append, List.length_map, length_tempString]
      rfl
    have h := exists_frames_temp (encodeString_tempString_narrow hv hlo hhi) (by rw [hl]; decide) hr (by rwa [hl])
    rwa [hl] at h
  · have hframes : (framesOf (scrolled s.params d (scrollWindows ms) s.fb).2).length = 4 * (ms.length + 5) := by
      rw [← outputsOf_scrollScript, length_framesOf_outputsOf,
        flushCount_scrollScript d fun w => length_of_mem_scrollWindows, length_scrollWindows]
    obtain ⟨t, ht, hcount⟩ := exists_frames_of_ended (scrollCompletes s d str ms hs hr hx hd) rfl hframes
    exact ⟨t, ht, hcount, encodeString_length hs⟩

end Sys2Proof.Machine
end

section
/-! FB after a command, however it ends: which pixels it leaves alone (43_composer.md R169). -/

namespace Sys2Proof.Machine

/-! ### FB after a course -/

/-- With no RESET to come, what every drawing of a course keeps, the course keeps, whatever its end. -/
theorem fb_runActs_keeps {P : List Host.Cell → Prop} {p : Params} {as : List Act}
    (hop : ∀ o ∈ opsOf as, ∀ m, P m → P (drawOn p o m)) {s : State} (hp : s.params = p) (hr : s.resets = [])
    (h : P s.fb) : P (runActs as s).state.fb := by
  induction as generalizing s with
  | nil => exact h
  | cons a as ih =>
    cases a with
    | cursor c => exact ih hop (s := s.setCur c) hp hr h
    | op o =>
      rw [opsOf_cons_op, List.forall_mem_cons] at hop
      have hdrawn : P (opsDone [o] s).fb := by
        rw [opsDone_fb, hp]
        exact hop.1 s.fb h
      have ho := performed o s
      rw [runActs, runAct, runOp_of_noReset o hr]
      generalize perform o s = r at ho ⊢
      cases ho with
      | goesOn => exact ih hop.2 (s := opsDone [o] s) hp hr hdrawn
      | fails => exact hdrawn
      | waits => exact hdrawn

theorem fb_respond_of_noReset {s : State} (bytes : Packet) (hr : s.resets = []) : (respond bytes s).fb = s.fb := by
  rw [respond_eq_ended bytes hr]
  rfl

theorem fb_finish_of_noReset {r : Progress} (payload : List Byte) (hr : r.state.resets = []) :
    (finish payload r).fb = r.state.fb := by
  cases r with
  | running s => exact fb_respond_of_noReset _ hr
  | raised e s => exact fb_respond_of_noReset _ hr
  | silent s => rfl

theorem fb_exec_keeps {P : List Host.Cell → Prop} {i : Instr} {s t : State} (hi : i.wellFormed = true)
    (hop : ∀ o ∈ script s.params i, ∀ m, P m → P (drawOn s.params o m)) (hr : s.resets = [])
    (h : exec i s = .next t) (hs : P s.fb) : P t.fb := by
  rw [script_eq_ops_course hi] at hop
  rw [eq_runCourse_of_exec h]
  match hc : course s.params i with
  | .error e =>
    rw [runCourse, fb_respond_of_noReset _ hr]
    exact hs
  | .ok (payload, as) =>
    rw [hc] at hop
    rw [runCourse, fb_finish_of_noReset _ (resets_of_pastChecks (pastChecks_runActs as hr))]
    exact fb_runActs_keeps hop rfl hr hs

/-! ### Pixels that a command leaves alone -/

theorem mem_elementOps_of_mem_glyphOps {o : MicroOp} {mask : Byte} {n : Nat} (h : o ∈ glyphOps mask n) :
    o = .flush ∨ ∃ k, o ∈ elementOps n k (mask.getLsbD k) := by
  rw [glyphOps_eq, glyphDraws_eq_elementOps] at h
  rcases List.mem_append.mp h with h | h
  · obtain ⟨k, -, hk⟩ := List.mem_flatMap.mp h
    exact .inr ⟨k, hk⟩
  · exact .inl (List.mem_singleton.mp h)

/-- The micro-operation leaves pixel `(x, y)` alone. -/
def MicroOp.Spares (x y : Nat) (o : MicroOp) : Prop :=
  ∀ (p : Params) (m : List Host.Cell), Memory.wf m = true → x < p.width → y < height p →
    getPixel p (drawOn p o m) x y = getPixel p m x y

theorem spares_of_paints {x y : Nat} {v : Bool} {o : MicroOp} (ho : o.Paints v)
    (hxy : ((x : Int), (y : Int)) ∉ o.pixels) : o.Spares x y :=
  fun _ _ h hx hy => getPixel_drawOn_of_not_mem ho h hx hy hxy

theorem spares_flush (x y : Nat) : MicroOp.Spares x y .flush := fun _ _ _ _ _ => rfl

theorem spares_delay (x y : Nat) (ms : Half) : MicroOp.Spares x y (.delay ms) := fun _ _ _ _ _ => rfl

theorem spares_of_mem_glyphOps {x y n : Nat} (he : elementAt n x y = none) {mask : Byte} {o : MicroOp}
    (h : o ∈ glyphOps mask n) : o.Spares x y := by
  rcases mem_elementOps_of_mem_glyphOps h with rfl | ⟨k, hk⟩
  · exact spares_flush x y
  · refine spares_of_paints (paints_of_mem_elementOps o hk) fun hxy => ?_
    have hin := mem_pixels_elementOps.mp (List.mem_flatMap.mpr ⟨o, hk, hxy⟩)
    exact Bool.eq_false_iff.mp (elementAt_eq_none_iff.mp he k) hin

theorem spares_of_mem_glyphScript {x y n : Nat} {ms : List Byte}
    (he : ∀ j, j < ms.length → elementAt (n + j) x y = none) {o : MicroOp} (h : o ∈ glyphScript n ms) :
    o.Spares x y := by
  induction ms generalizing n with
  | nil => cases h
  | cons k ks ih =>
    rcases List.mem_append.mp h with h | h
    · exact spares_of_mem_glyphOps (he 0 (Nat.succ_pos _)) h
    · refine ih (fun j hj => ?_) h
      rw [Nat.add_right_comm]
      exact he (j + 1) (Nat.succ_lt_succ hj)

theorem spares_of_mem_colonOps {x y : Nat} (hxy : inColon x y = false) {on : Bool} {o : MicroOp}
    (h : o ∈ colonOps on) : o.Spares x y := by
  refine spares_of_paints (paints_of_mem_colonOps o h) fun hmem => ?_
  exact Bool.eq_false_iff.mp hxy (mem_pixels_colonOps.mp (List.mem_flatMap.mpr ⟨o, h, hmem⟩))

theorem mem_encodedScript {p : Params} {str : List Byte} {f : List Byte → List MicroOp} {o : MicroOp}
    (h : o ∈ encodedScript p str f) : ∃ ms, o ∈ f ms := by
  unfold encodedScript at h
  split at h
  · exact ⟨_, h⟩
  · cases h

/-- Only CLEAR writes a pixel outside all element sets and the colon squares (R169). -/
theorem spares_of_mem_script {x y : Nat} (hcolon : inColon x y = false) (he : ∀ n, elementAt n x y = none)
    {p : Params} {i : Instr} (hi : ∀ v, i ≠ .clear v) {o : MicroOp} (h : o ∈ script p i) : o.Spares x y := by
  have hglyphs {n : Nat} {ms : List Byte} (h : o ∈ glyphScript n ms) : o.Spares x y :=
    spares_of_mem_glyphScript (fun j _ => he (n + j)) h
  cases i with
  | clear color => exact absurd rfl (hi color)
  | colon on => exact spares_of_mem_colonOps hcolon h
  | write pos masks =>
    rw [script] at h
    split at h
    · cases h
    · exact hglyphs h
  | encd n => cases h
  | encc c => cases h
  | encs cs => cases h
  | hex v => exact hglyphs h
  | number v =>
    obtain ⟨ms, h⟩ := mem_encodedScript h
    exact hglyphs h
  | numbers a b colon =>
    obtain ⟨ms, h⟩ := mem_encodedScript h
    rcases List.mem_append.mp h with h | h
    · exact hglyphs h
    · exact spares_of_mem_colonOps hcolon h
  | temp v =>
    obtain ⟨ms, h⟩ := mem_encodedScript h
    rcases List.mem_append.mp h with h | h
    · exact hglyphs h
    · exact hglyphs h
  | scroll delayMs str =>
    obtain ⟨ms, h⟩ := mem_encodedScript h
    obtain ⟨w, -, h⟩ := List.mem_flatMap.mp h
    rcases List.mem_append.mp h with h | h
    · exact hglyphs h
    · rw [List.mem_singleton.mp h]
      exact spares_delay x y delayMs

theorem getPixel_exec_of_spares {i : Instr} {s t : State} {x y : Nat} (hi : i.wellFormed = true)
    (hspares : ∀ o ∈ script s.params i, o.Spares x y) (hr : s.resets = []) (hwf : Memory.wf s.fb = true)
    (h : exec i s = .next t) (hx : x < s.params.width) (hy : y < height s.params) :
    getPixel s.params t.fb x y = getPixel s.params s.fb x y := by
  have hkept := fb_exec_keeps
    (P := fun m => Memory.wf m = true ∧ getPixel s.params m x y = getPixel s.params s.fb x y) hi
    (fun o ho m hm => ⟨drawOn_wf o hm.1, (hspares o ho s.params m hm.1 hx hy).trans hm.2⟩) hr h ⟨hwf, rfl⟩
  exact hkept.2

/-- Settles O24: no micro-operation of the command writes the pixel. -/
theorem writeLeavesOtherPixels : Obligations.WriteLeavesOtherPixels := by
  refine ⟨fun s t pos masks hr hwf hl h x y hx hy hxy => ?_, fun i s t hr hwf hi hclear h x y hx hy hcolon he => ?_⟩
  · have he : ∀ j, j < masks.length → elementAt (pos.toNat + j) x y = none :=
      hxy.elim id fun hc j _ => elementAt_of_inColon _ hc
    refine getPixel_exec_of_spares (i := .write pos masks) (decide_eq_true hl) (fun o ho => ?_) hr hwf h hx hy
    rw [script] at ho
    split at ho
    · cases ho
    · exact spares_of_mem_glyphScript he ho
  · exact getPixel_exec_of_spares hi (fun o => spares_of_mem_script hcolon he hclear) hr hwf h hx hy

end Sys2Proof.Machine
end

section
/-! After a command the last frame is FB (20_memory.md R62, 42_rasterizer.md R146): every drawing of a command is
flushed before anything else can end it. -/

namespace Sys2Proof.Machine

/-! ### What is drawn is flushed -/

/-- Every drawing of the list is flushed before the next delay and before its end; `dirty` says that FB was drawn on
since the last flush. -/
def flushesDrawings : Bool → List MicroOp → Bool
  | dirty, [] => !dirty
  | _, .flush :: os => flushesDrawings false os
  | dirty, .delay _ :: os => !dirty && flushesDrawings false os
  | _, .hline _ _ _ _ :: os => flushesDrawings true os
  | _, .vline _ _ _ _ :: os => flushesDrawings true os
  | _, .fillRect _ _ _ _ _ :: os => flushesDrawings true os
  | _, .fill _ :: os => flushesDrawings true os

theorem flushesDrawings_append {d : Bool} {os us : List MicroOp} (h : flushesDrawings d os = true)
    (hus : flushesDrawings false us = true) : flushesDrawings d (os ++ us) = true := by
  induction os generalizing d with
  | nil =>
    cases d with
    | false => exact hus
    | true => cases h
  | cons o os ih =>
    cases o with
    | delay ms =>
      rw [flushesDrawings, Bool.and_eq_true] at h
      rw [List.cons_append, flushesDrawings, Bool.and_eq_true]
      exact ⟨h.1, ih h.2⟩
    | _ => exact ih (d := _) h

theorem flushesDrawings_maskActs (c : Half) (ms : List Byte) :
    flushesDrawings false (opsOf (maskActs c ms)) = true := by
  induction ms generalizing c with
  | nil => rfl
  | cons k ks ih =>
    rw [maskActs, opsOf_append, opsOf_ops]
    exact flushesDrawings_append (os := glyphOps k c.toNat) rfl (ih (c + 1))

theorem flushesDrawings_writeActs (pos : Byte) (ms : List Byte) :
    flushesDrawings false (opsOf (writeActs pos ms)) = true :=
  flushesDrawings_maskActs (pos.setWidth 16) ms

theorem flushesDrawings_scrollActs (delayMs : Half) (ws : List (List Byte)) :
    flushesDrawings false (opsOf (scrollActs delayMs ws)) = true := by
  induction ws with
  | nil => rfl
  | cons w ws ih =>
    rw [scrollActs, List.flatMap_cons, opsOf_append, opsOf_append]
    exact flushesDrawings_append (flushesDrawings_append (flushesDrawings_writeActs 0 w) rfl) ih

theorem flushesDrawings_course {p : Params} {i : Instr} {payload : List Byte} {as : List Act}
    (h : course p i = .ok (payload, as)) : flushesDrawings false (opsOf as) = true := by
  cases hlookup : isLookup i with
  | true =>
    rw [acts_of_isLookup hlookup h]
    rfl
  | false =>
    cases i with
    | clear color => cases h; rfl
    | colon on => cases h; rfl
    | write pos masks =>
      rw [course] at h
      split at h
      · cases h
      · cases h
        exact flushesDrawings_writeActs pos masks
    | encd n => cases hlookup
    | encc c => cases hlookup
    | encs cs => cases hlookup
    | hex v =>
      cases h
      exact flushesDrawings_writeActs 0 _
    | number v =>
      obtain ⟨ms, -, hf⟩ := encodedCourse_eq_ok h
      cases hf
      exact flushesDrawings_writeActs 0 ms
    | numbers a b colon =>
      obtain ⟨ms, -, hf⟩ := encodedCourse_eq_ok h
      cases hf
      rw [opsOf_append, opsOf_ops]
      exact flushesDrawings_append (flushesDrawings_writeActs 0 ms) rfl
    | temp v =>
      obtain ⟨ms, -, hf⟩ := encodedCourse_eq_ok h
      cases hf
      rw [opsOf_append]
      exact flushesDrawings_append (flushesDrawings_writeActs 0 ms) (flushesDrawings_writeActs 2 degreeC)
    | scroll delayMs str =>
      obtain ⟨ms, -, hf⟩ := encodedCourse_eq_ok h
      cases hf
      exact flushesDrawings_scrollActs delayMs _

/-! ### The last frame of a course -/

/-- The last frame after the outputs `pre`, if there is one, is FB. -/
def LastFrameIsFb (pre : List Output) (s : State) : Prop :=
  ∀ os, s.out = pre ++ os → framesOf os ≠ [] → (framesOf os).getLast? = some (frameOf s.params s.fb)

theorem LastFrameIsFb.refl (s : State) : LastFrameIsFb s.out s := by
  intro os hout hne
  rw [List.self_eq_append_right.mp hout] at hne
  exact absurd rfl hne

theorem LastFrameIsFb.of_no_frame {pre us : List Output} {s t : State} (h : LastFrameIsFb pre s)
    (hpre : ∃ os, s.out = pre ++ os) (hout : t.out = s.out ++ us) (hus : framesOf us = []) (hp : t.params = s.params)
    (hfb : t.fb = s.fb) : LastFrameIsFb pre t := by
  intro os hos hne
  obtain ⟨vs, hvs⟩ := hpre
  have hsplit : os = vs ++ us := by
    rw [hout, hvs, List.append_assoc, List.append_cancel_left_eq] at hos
    exact hos.symm
  rw [hsplit, framesOf_append, hus, List.append_nil] at hne ⊢
  rw [hp, hfb]
  exact h vs hvs hne

theorem lastFrameIsFb_of_frame {pre : List Output} {s : State}
    (h : ∃ os, s.out = pre ++ os ++ [.frame (frameOf s.params s.fb)]) : LastFrameIsFb pre s := by
  intro os hos _
  obtain ⟨vs, hvs⟩ := h
  have hsplit : os = vs ++ [.frame (frameOf s.params s.fb)] := by
    rw [hvs, List.append_assoc, List.append_cancel_left_eq] at hos
    exact hos.symm
  rw [hsplit, framesOf_append]
  exact List.getLast?_concat

theorem lastFrameIsFb_opsDone_flush {pre : List Output} {s : State} (hpre : ∃ os, s.out = pre ++ os) :
    LastFrameIsFb pre (opsDone [.flush] s) := by
  obtain ⟨vs, hvs⟩ := hpre
  refine lastFrameIsFb_of_frame ⟨vs, ?_⟩
  rw [← hvs]
  rfl

/-- With no RESET to come the last frame of actions that flush what they draw is FB, whatever their end. -/
theorem lastFrameIsFb_runActs {pre : List Output} {as : List Act} {dirty : Bool}
    (has : flushesDrawings dirty (opsOf as) = true) {s : State} (hr : s.resets = []) (hpre : ∃ os, s.out = pre ++ os)
    (h : dirty = false → LastFrameIsFb pre s) : LastFrameIsFb pre (runActs as s).state := by
  induction as generalizing s dirty with
  | nil => exact h (by simpa [flushesDrawings] using has)
  | cons a as ih =>
    cases a with
    | cursor c =>
      refine ih has (s := s.setCur c) hr hpre fun hd => ?_
      exact (h hd).of_no_frame (us := []) hpre (List.append_nil _).symm rfl rfl rfl
    | op o =>
      have hgrown : ∃ os, (opsDone [o] s).out = pre ++ os := by
        obtain ⟨vs, hvs⟩ := hpre
        exact ⟨vs ++ outputsOf s.params [o] s.fb, by rw [opsDone_out, hvs, List.append_assoc]⟩
      rw [opsOf_cons_op] at has
      rw [runActs, runAct, runOp_of_noReset o hr]
      cases o with
      | flush =>
        have hdone := lastFrameIsFb_opsDone_flush hpre
        have hp := performed .flush s
        generalize perform .flush s = r at hp ⊢
        cases hp with
        | goesOn => exact ih has (s := opsDone [.flush] s) hr hgrown fun _ => hdone
        | fails => exact hdone
        | waits => exact hdone
      | delay ms =>
        rw [flushesDrawings, Bool.and_eq_true, Bool.not_eq_true'] at has
        have hdone : LastFrameIsFb pre (opsDone [.delay ms] s) :=
          (h has.1).of_no_frame hpre (opsDone_out _ _) rfl rfl rfl
        have hp := performed (.delay ms) s
        generalize perform (.delay ms) s = r at hp ⊢
        cases hp with
        | goesOn => exact ih has.2 (s := opsDone [.delay ms] s) hr hgrown fun _ => hdone
        | fails => exact hdone
        | waits => exact hdone
      | _ =>
        rw [perform_of_draws_eq rfl]
        exact ih (dirty := true) has (s := opsDone [_] s) hr hgrown nofun

/-- Settles O59: every drawing is flushed before a command can end. -/
theorem lastFrameShowsBuffer : Obligations.LastFrameShowsBuffer := by
  intro i s t os hr h hout hne
  have hpre : ∃ us, s.out = s.out ++ us := ⟨[], (List.append_nil _).symm⟩
  have hend {u : State} (bytes : Packet) (hu : LastFrameIsFb s.out u) (hur : u.resets = [])
      (hgrown : ∃ us, u.out = s.out ++ us) : LastFrameIsFb s.out (respond bytes u) := by
    rw [respond_eq_ended bytes hur]
    exact hu.of_no_frame (us := [.response bytes]) hgrown rfl rfl rfl rfl
  suffices hlast : LastFrameIsFb s.out t from hlast os hout hne
  rw [eq_runCourse_of_exec h]
  match hc : course s.params i with
  | .error e => exact hend _ (.refl s) hr hpre
  | .ok (payload, as) =>
    have hlast := lastFrameIsFb_runActs (flushesDrawings_course hc) hr hpre fun _ => .refl s
    have hpast := pastChecks_runActs as hr
    rw [runCourse]
    generalize runActs as s = r at hlast hpast ⊢
    cases hpast with
    | running hu => exact hend _ hlast hu.1 (hu.2.imp fun _ h => h.2)
    | ioError e hu => exact hend _ hlast hu.1 (hu.2.imp fun _ h => h.2)
    | waiting hu => exact hlast

end Sys2Proof.Machine
end

section
/-! What FB shows after a command that ended Ok is the picture of the commands so far (43_composer.md R177). Such a
command has drawn its whole script. -/

namespace Sys2Proof.Machine

/-! ### The pixels of a picture -/

theorem Picture.pixel_of_colon {q : Picture} {x y : Nat} (h : inColon x y = true) :
    q.pixel x y = q.colon.getD q.background := if_pos h

/-- A pixel of element `k` of slot `n` shows that bit of the slot's mask. -/
theorem Picture.pixel_of_element {q : Picture} {n k x y : Nat} (hn : n < 4) (h : elementAt n x y = some k) :
    q.pixel x y = match q.slots[n] with | some m => m.getLsbD k | none => q.background := by
  have hcolon : ¬ inColon x y = true := fun hc => by
    rw [elementAt_of_inColon n hc] at h
    cases h
  have hfind : ((List.finRange 4).find? fun j => (elementAt j.val x y).isSome) = some ⟨n, hn⟩ := by
    cases hf : (List.finRange 4).find? fun j => (elementAt j.val x y).isSome with
    | none =>
      have hnone := List.find?_eq_none.mp hf ⟨n, hn⟩ (List.mem_finRange _)
      rw [h] at hnone
      exact absurd rfl hnone
    | some j =>
      have hj := List.find?_some (p := fun j : Fin 4 => (elementAt j.val x y).isSome) hf
      obtain ⟨k', hk'⟩ := Option.isSome_iff_exists.mp hj
      rw [elementAt_eq_some_iff] at h hk'
      exact congrArg some (Fin.ext (slot_and_element_unique hk' h).1)
  rw [Picture.pixel, if_neg hcolon, hfind]
  simp only [h]
  cases q.slots[n] <;> rfl

/-- A pixel outside the slots and the colon shows the background. -/
theorem Picture.pixel_of_none {q : Picture} {x y : Nat} (hcolon : ¬ inColon x y = true)
    (h : ∀ n, n < 4 → elementAt n x y = none) : q.pixel x y = q.background := by
  have hfind : ((List.finRange 4).find? fun j => (elementAt j.val x y).isSome) = none :=
    List.find?_eq_none.mpr fun j _ => by simp [h j.val j.isLt]
  rw [Picture.pixel, if_neg hcolon, hfind]

/-- The picture after one mask in slot `n`. -/
def Picture.withMask (q : Picture) (n : Nat) (mask : Byte) : Picture :=
  if h : n < 4 then { q with slots := q.slots.set n (some mask) } else q

theorem Picture.pixel_withMask_of_some {q : Picture} {n k x y : Nat} (mask : Byte) (hn : n < 4)
    (h : elementAt n x y = some k) : (q.withMask n mask).pixel x y = mask.getLsbD k := by
  rw [Picture.pixel_of_element hn h, Picture.withMask, dif_pos hn]
  simp

theorem Picture.pixel_withMask_of_none {q : Picture} {n x y : Nat} (mask : Byte) (h : elementAt n x y = none) :
    (q.withMask n mask).pixel x y = q.pixel x y := by
  by_cases hn : n < 4
  · rw [Picture.withMask, dif_pos hn]
    by_cases hcolon : inColon x y = true
    · rw [Picture.pixel_of_colon hcolon, Picture.pixel_of_colon hcolon]
    · by_cases hslot : ∃ j k, j < 4 ∧ elementAt j x y = some k
      · obtain ⟨j, k, hj, hk⟩ := hslot
        have hne : n ≠ j := by
          rintro rfl
          cases h.symm.trans hk
        rw [Picture.pixel_of_element hj hk, Picture.pixel_of_element hj hk]
        simp only [Vector.getElem_set_ne _ _ hne]
      · have hnone (j : Nat) (hj : j < 4) : elementAt j x y = none :=
          Option.eq_none_iff_forall_ne_some.mpr fun k hk => hslot ⟨j, k, hj, hk⟩
        rw [Picture.pixel_of_none hcolon hnone, Picture.pixel_of_none hcolon hnone]
  · rw [Picture.withMask, dif_neg hn]

theorem shows_glyphFb {p : Params} {m : List Host.Cell} {q : Picture} (hw : p.width ≤ 86) (hwf : Memory.wf m = true)
    (h : Shows p m q) (mask : Byte) (n : Nat) : Shows p (glyphFb p mask n m) (q.withMask n mask) := by
  intro x y hx hy
  rw [getPixel_glyphFb mask n hwf hx hy]
  cases he : elementAt n x y with
  | none => rw [Picture.pixel_withMask_of_none mask he, ← h x y hx hy]
  | some k =>
    have hn : n < 4 := by
      by_contra hn
      cases (elementAt_of_past_slot_three (Nat.le_of_not_lt hn) (hx.trans_le hw)).symm.trans he
    exact (Picture.pixel_withMask_of_some mask hn he).symm

theorem shows_writtenFb {p : Params} {m : List Host.Cell} {q : Picture} (hw : p.width ≤ 86) (hwf : Memory.wf m = true)
    (h : Shows p m q) (n : Nat) (ms : List Byte) : Shows p (writtenFb p n ms m) (q.written n ms) := by
  induction ms generalizing n m q with
  | nil => exact h
  | cons k ks ih => exact ih (glyphFb_wf k n hwf) (shows_glyphFb hw hwf h k n) (n + 1)

theorem Picture.pixel_withColon (q : Picture) (on : Bool) (x y : Nat) :
    Picture.pixel { q with colon := some on } x y = if inColon x y then on else q.pixel x y := by
  by_cases hcolon : inColon x y = true
  · rw [Picture.pixel_of_colon hcolon, if_pos hcolon]
    rfl
  · rw [if_neg hcolon, Picture.pixel, Picture.pixel, if_neg hcolon, if_neg hcolon]

theorem shows_colonFb {p : Params} {m : List Host.Cell} {q : Picture} (hwf : Memory.wf m = true) (h : Shows p m q)
    (on : Bool) : Shows p (colonFb p on m) { q with colon := some on } := by
  intro x y hx hy
  rw [getPixel_colonFb on hwf hx hy, Picture.pixel_withColon, h x y hx hy]

theorem shows_fill {p : Params} {m : List Host.Cell} (hwf : Memory.wf m = true) (color : Bool) :
    Shows p (fill p color m) { background := color, slots := Vector.replicate 4 none, colon := none } := by
  intro x y hx hy
  rw [getPixel_fill color hwf hx hy]
  by_cases hcolon : inColon x y = true
  · rw [Picture.pixel_of_colon hcolon]
    rfl
  · by_cases hslot : ∃ j k, j < 4 ∧ elementAt j x y = some k
    · obtain ⟨j, k, hj, hk⟩ := hslot
      rw [Picture.pixel_of_element hj hk]
      simp
    · rw [Picture.pixel_of_none hcolon fun j hj =>
        Option.eq_none_iff_forall_ne_some.mpr fun k hk => hslot ⟨j, k, hj, hk⟩]

/-! ### The picture of SCROLL -/

/-- A whole window replaces whatever the slots showed. -/
theorem Picture.written_four (q : Picture) {w : List Byte} (h : w.length = 4) :
    q.written 0 w = { q with slots := Vector.ofFn fun n : Fin 4 => w[n]? } := by
  match w with
  | [a, b, c, d] =>
    have hslots : ((((q.slots.set 0 (some a)).set 1 (some b)).set 2 (some c)).set 3 (some d))
        = Vector.ofFn fun n : Fin 4 => [a, b, c, d][n]? := by
      ext n hn : 1
      interval_cases n <;> simp
    exact congrArg (fun slots => { q with slots := slots }) hslots

theorem shows_scrolled {p : Params} {m : List Host.Cell} {q : Picture} (hw : p.width ≤ 86) (hwf : Memory.wf m = true)
    (h : Shows p m q) (delayMs : Half) {ws : List (List Byte)} (hws : ∀ w ∈ ws, w.length = 4) {last : List Byte}
    (hlast : last.length = 4) : Shows p (scrolled p delayMs (ws ++ [last]) m).1 (q.written 0 last) := by
  induction ws generalizing m q with
  | nil => exact shows_writtenFb hw hwf h 0 last
  | cons w ws ih =>
    rw [List.forall_mem_cons] at hws
    have hlater := ih (writtenFb_wf 0 w hwf) (shows_writtenFb hw hwf h 0 w) hws.2
    rw [Picture.written_four _ hlast, Picture.written_four q hws.1] at hlater
    rw [Picture.written_four q hlast]
    exact hlater

/-- The last window of SCROLL is blank (R197, decision D28). -/
theorem scrollWindows_eq (ms : List Byte) : ∃ ws, scrollWindows ms = ws ++ [scrollPad] := by
  have hlast : ((scrollPadded ms).drop (ms.length + 4)).take 4 = scrollPad := by
    have hlen : (scrollPad ++ ms).length = ms.length + 4 := Nat.add_comm 4 ms.length ▸ List.length_append
    rw [scrollPadded, ← hlen, List.drop_left]
    rfl
  rw [scrollWindows, List.range_succ, List.map_append, List.map_singleton, hlast]
  exact ⟨_, rfl⟩

/-! ### The picture after a command -/

theorem masksOf_of_ok {p : Params} {str ms : List Byte} (h : encodeString p str = .ok ms) : masksOf p str = ms := by
  rw [masksOf, h]

theorem encodedScript_of_ok {p : Params} {str ms : List Byte} (f : List Byte → List MicroOp)
    (h : encodeString p str = .ok ms) : encodedScript p str f = f ms := by
  rw [encodedScript, h]

theorem shows_script {p : Params} {i : Instr} {payload : List Byte} {as : List Act}
    (hc : course p i = .ok (payload, as)) (hw : p.width ≤ 86) {m : List Host.Cell} (hwf : Memory.wf m = true)
    {q : Picture} (h : Shows p m q) : Shows p (drawAll p (script p i) m) (q.after p i) := by
  have hwrite (n : Nat) (ms : List Byte) : Shows p (drawAll p (glyphScript n ms) m) (q.written n ms) := by
    rw [drawAll_glyphScript]
    exact shows_writtenFb hw hwf h n ms
  have hwritten_wf (n : Nat) (ms : List Byte) : Memory.wf (drawAll p (glyphScript n ms) m) = true := drawAll_wf _ hwf
  cases i with
  | clear color => exact shows_fill hwf color
  | colon on => exact shows_colonFb hwf h on
  | write pos masks =>
    rw [course] at hc
    split at hc
    · cases hc
    · next hpos =>
      rw [script, if_neg hpos]
      exact hwrite _ masks
  | encd n => exact h
  | encc c => exact h
  | encs cs => exact h
  | hex v => exact hwrite 0 _
  | number v =>
    obtain ⟨ms, hs, -⟩ := encodedCourse_eq_ok hc
    rw [script, encodedScript_of_ok _ hs, Picture.after, masksOf_of_ok hs]
    exact hwrite 0 ms
  | numbers a b colon =>
    obtain ⟨ms, hs, -⟩ := encodedCourse_eq_ok hc
    rw [script, encodedScript_of_ok _ hs, Picture.after, masksOf_of_ok hs, drawAll_append]
    exact shows_colonFb (hwritten_wf 0 ms) (hwrite 0 ms) colon
  | temp v =>
    obtain ⟨ms, hs, -⟩ := encodedCourse_eq_ok hc
    rw [script, encodedScript_of_ok _ hs, Picture.after, masksOf_of_ok hs, drawAll_append, drawAll_glyphScript p 2]
    exact shows_writtenFb hw (hwritten_wf 0 ms) (hwrite 0 ms) 2 degreeC
  | scroll delayMs str =>
    obtain ⟨ms, hs, -⟩ := encodedCourse_eq_ok hc
    obtain ⟨ws, hws⟩ := scrollWindows_eq ms
    have hlengths (w : List Byte) (hmem : w ∈ ws) : w.length = 4 :=
      length_of_mem_scrollWindows (ms := ms) (hws ▸ List.mem_append_left _ hmem)
    rw [script, encodedScript_of_ok _ hs, ← scrollScript, drawAll_scrollScript, hws]
    exact shows_scrolled hw hwf h delayMs hlengths rfl

/-- With no RESET to come, a course that goes on to its end has drawn all of its script. -/
theorem runActs_running {as : List Act} {s u : State} (hr : s.resets = []) (h : runActs as s = .running u) :
    u.params = s.params ∧ u.fb = drawAll s.params (opsOf as) s.fb ∧ u.resets = [] := by
  induction as generalizing s with
  | nil =>
    cases h
    exact ⟨rfl, rfl, hr⟩
  | cons a as ih =>
    cases a with
    | cursor c => exact ih (s := s.setCur c) hr h
    | op o =>
      have hp := performed o s
      rw [runActs, runAct, runOp_of_noReset o hr] at h
      generalize perform o s = r at hp h
      cases hp with
      | goesOn => exact ih (s := opsDone [o] s) hr h
      | fails => cases h
      | waits => cases h

/-- Settles O58: a command that ends Ok has drawn its whole script. -/
theorem pictureFollowsCommands : Obligations.PictureFollowsCommands := by
  intro i s t q os payload hi hr hwf hw h hout hos hshows
  rw [eq_runCourse_of_exec h] at hout ⊢
  match hc : course s.params i with
  | .error e =>
    have hend : runCourse (.error e) s = s.ended [] (errResponse e) := respond_eq_ended _ hr
    rw [hc, hend] at hout
    have hbytes : errResponse e = 0x00 :: payload := response_eq_of_out_eq (pre := s.out) (os := []) (us := os)
      (by rw [← hout]; simp)
    cases e <;> cases hbytes
  | .ok (payload', as) =>
    rw [hc, runCourse] at hout
    rw [runCourse]
    have hafter := shows_script hc hw hwf hshows
    rw [script_eq_ops_course hi, hc, Course.ops] at hafter
    have hpast := pastChecks_runActs as hr
    have hdone {u : State} := runActs_running (u := u) (as := as) hr
    generalize runActs as s = r at hout hpast hdone ⊢
    cases hpast with
    | running hu =>
      obtain ⟨hup, hufb, -⟩ := hdone rfl
      rw [finish, respond_eq_ended _ hu.1, State.ended_params, State.ended_fb, hup, hufb]
      exact hafter
    | ioError e hu =>
      obtain ⟨hur, us, -, hus⟩ := hu
      rw [finish, respond_eq_ended _ hur, State.ended_out, List.nil_append, hus] at hout
      simpa [errResponse] using response_eq_of_out_eq hout
    | waiting hu =>
      obtain ⟨-, us, hnone, hus⟩ := hu
      exact absurd hnone (responsesOf_ne_nil_of_out_eq (hus.symm.trans hout))

end Sys2Proof.Machine
end

section
/-! Assembler text: a canonical line is read back from its pieces, and the default arguments (30_encoding.md R98 to
R100). -/

namespace Sys2Proof.Machine

/-! ### Integers as operands -/

theorem byteOf_toNat (b : Byte) : byteOf b.toNat = some b := by
  rw [byteOf, if_pos (by omega), BitVec.ofInt_natCast, BitVec.ofNat_toNat, BitVec.setWidth_eq]

theorem halfOf_toNat (h : Half) : halfOf h.toNat = some h := by
  rw [halfOf, if_pos (by omega), BitVec.ofInt_natCast, BitVec.ofNat_toNat, BitVec.setWidth_eq]

theorem wordOf_toInt (w : Word) : wordOf w.toInt = some w := by
  have hlo := BitVec.le_toInt w
  have hhi := BitVec.toInt_lt (x := w)
  rw [wordOf, if_pos (by norm_num at hlo hhi; omega), BitVec.ofInt_toInt]

theorem parseMoreMasks_cons (m : Byte) {ts : List Token} {ms : List Byte} (h : parseMoreMasks ts = some ms) :
    parseMoreMasks (.comma :: .int m.toNat :: ts) = some (m :: ms) := by
  rw [parseMoreMasks, byteOf_toNat, h]

theorem maskTokens_cons_cons (m m' : Byte) (ms : List Byte) :
    maskTokens (m :: m' :: ms) = .int m.toNat :: .comma :: maskTokens (m' :: ms) := rfl

/-- The masks of a line after the first one. -/
def moreMaskTokens (ms : List Byte) : List Token := ms.flatMap fun m => [.comma, .int m.toNat]

theorem maskTokens_cons (m : Byte) (ms : List Byte) : maskTokens (m :: ms) = .int m.toNat :: moreMaskTokens ms := by
  induction ms generalizing m with
  | nil => rfl
  | cons m' ms ih =>
    rw [maskTokens_cons_cons, ih]
    rfl

theorem parseMoreMasks_moreMaskTokens (ms : List Byte) : parseMoreMasks (moreMaskTokens ms ++ [.close]) = some ms := by
  induction ms with
  | nil => rfl
  | cons m ms ih => exact parseMoreMasks_cons m ih

theorem parseMasks_maskTokens (ms : List Byte) : parseMasks (.open :: (maskTokens ms ++ [.close])) = some ms := by
  cases ms with
  | nil => rfl
  | cons m ms =>
    rw [maskTokens_cons, List.cons_append, parseMasks, byteOf_toNat, parseMoreMasks_moreMaskTokens]

/-! ### Lines -/

theorem opcodeNamed_nameOf (o : Opcode) : opcodeNamed (nameOf o) = some o := by cases o <;> decide

theorem parseTokens_of_operands {o : Opcode} {ts : List Token} {i : Instr} (h : parseOperands o ts = some i)
    (hi : i.wellFormed = true) : parseTokens (.word (nameOf o) :: ts) = some i := by
  rw [parseTokens, opcodeNamed_nameOf]
  simp only [h]
  exact if_pos hi

theorem parseTokens_toTokens (i : Instr) (hi : i.wellFormed = true) : parseTokens (toTokens i) = some i := by
  cases i with
  | clear color => exact parseTokens_of_operands (by simp [truthToken, parseOperands, byteOf_toNat]) hi
  | colon on => exact parseTokens_of_operands (by simp [truthToken, parseOperands, byteOf_toNat]) hi
  | write pos masks =>
    exact parseTokens_of_operands (by rw [parseOperands, byteOf_toNat, parseMasks_maskTokens]) hi
  | encd n => exact parseTokens_of_operands (by rw [parseOperands, byteOf_toNat]; rfl) hi
  | encc c => exact parseTokens_of_operands rfl hi
  | encs cs => exact parseTokens_of_operands rfl hi
  | hex v => exact parseTokens_of_operands (by rw [parseOperands, halfOf_toNat]; rfl) hi
  | number v => exact parseTokens_of_operands (by rw [parseOperands, wordOf_toInt]; rfl) hi
  | numbers a b colon =>
    exact parseTokens_of_operands (by simp [truthToken, parseOperands, byteOf_toNat, wordOf_toInt]) hi
  | temp v => exact parseTokens_of_operands (by rw [parseOperands, wordOf_toInt]; rfl) hi
  | scroll delayMs str => exact parseTokens_of_operands (by rw [parseOperands, halfOf_toNat]; rfl) hi

/-- Settles O60: the operands of each mnemonic, with the missing ones at their defaults. -/
theorem assemblerReadsItsTokens : Obligations.AssemblerReadsItsTokens := by
  refine ⟨parseTokens_toTokens, by decide, fun ms hms => ?_, fun a b => ?_⟩
  · have hoperands : parseOperands .write (.open :: (maskTokens ms ++ [.close])) = some (.write 0 ms) := by
      rw [parseOperands, parseMasks_maskTokens]
      · rfl
      · nofun
    exact parseTokens_of_operands hoperands (decide_eq_true hms)
  · exact parseTokens_of_operands (by rw [parseOperands, wordOf_toInt, wordOf_toInt]) rfl

end Sys2Proof.Machine
end
